-- ==== Sys2Proof/Word.lean ====
section
/-! DEFINITION. The widths every other file uses: the 64-bit register word and the byte. -/

namespace Sys2Proof

/-- A register and a command word: `REG_BITS` = 64 bits (00_scope.md R7, 10_state.md R22). -/
abbrev Word := BitVec 64

/-- A byte (00_scope.md R11). -/
abbrev Byte := BitVec 8

end Sys2Proof
end

