-- ==== Sys2Proof/Config.lean ====
section
/-! DEFINITION. What one block is built with: the descriptor's enumerations (00_scope.md R16, R17), the format
descriptor (30_encoding.md R90), and the parameters `REGISTRY` and `FB_CAPACITY` (00_scope.md R7). -/

namespace Sys2Proof

/-- The layout families, one decoder strategy each (R16). -/
inductive Family where
  | planar
  | semi
  | packed422
  | tiled
  | mixed
  | mono
  deriving DecidableEq, Repr

/-- The plane topologies of the source (R94). -/
inductive Topology where
  | planar
  | semiPlanar
  | packedInterleaved
  | tiledSemiPlanar
  deriving DecidableEq, Repr

/-- Chroma subsampling (R17). -/
inductive Subsampling where
  | s420
  | s422
  | s444
  | snone
  deriving DecidableEq, Repr

/-- Which chroma component comes first in storage (R17). -/
inductive ChromaOrder where
  | cbFirst
  | crFirst
  deriving DecidableEq, Repr

/-- The supported bit depths, exactly 8 and 10 (R8). -/
inductive Depth where
  | eight
  | ten
  deriving DecidableEq, Repr

/-- How samples are packed: 8-bit bytes, loose 10-bit pairs, compact 10-bit groups (R17). -/
inductive Packing where
  | pnone
  | loose
  | compact
  deriving DecidableEq, Repr

/-- A format descriptor (R90). -/
structure Descriptor where
  fam : Family
  subs : Subsampling
  co : ChromaOrder
  depth : Depth
  pack : Packing
  yoff : BitVec 2
  cboff : BitVec 2
  croff : BitVec 2
  tw : BitVec 16
  th : BitVec 16
  toks : List (List Byte)
  deriving DecidableEq, Repr

/-- A finite map from 16-bit ids to descriptors, as a list of its entries (R7, R102). -/
abbrev Registry := List (BitVec 16 × Descriptor)

/-- The parameters of one block. A model takes each as an argument (R7): they stand in the state, no step changes
them, and every statement about a state holds for each of their values (log entry 1). -/
structure Config where
  /-- `REGISTRY`. -/
  registry : Registry
  /-- `FB_CAPACITY`, in bytes; OPEN in the spec (D18). -/
  fbCapacity : Nat
  deriving DecidableEq, Repr

/-- `NAME_MAX`, the size of the NAME buffer in bytes (R7). -/
def nameMax : Nat := 256

/-- `ID_MAGIC` (R7, R24). -/
def idMagic : BitVec 32 := 0x59555644#32

end Sys2Proof
end

