-- ==== Sys2Proof/Syntax.lean ====
section
/-! DEFINITION. The commands: one constructor per row of spec/opcode_table.json (30_encoding.md R81). -/

namespace Sys2Proof

/-- The commands. None has an operand field: every operand comes from the registers and buffers, latched at accept
(R80, R85). -/
inductive Instr where
  /-- 0x00, 45_control.md R230. -/
  | nop
  /-- 0x01, 40_registry.md R117. -/
  | lookup
  /-- 0x02, 40_registry.md R118. -/
  | findname
  /-- 0x03, 41_geometry.md R139. -/
  | geom
  /-- 0x04, 44_decode.md R212. -/
  | decode
  /-- 0x0F, 45_control.md R231. -/
  | sreset
  deriving DecidableEq, Repr

end Sys2Proof
end

