-- ==== Sys2Proof/WellFormed.lean ====
section
/-! DEFINITION. Which terms are well-formed: a command (always, it has no operand) and a registry, by the nine
conditions of 30_encoding.md R93. -/

namespace Sys2Proof

/-- A command has no operand field that could be out of range (R80, R85): each is well-formed. -/
def Instr.wf : Instr → Bool
  | .nop => true
  | .lookup => true
  | .findname => true
  | .geom => true
  | .decode => true
  | .sreset => true

/-- R93 (1): depth 8 exactly with no packing, depth 10 exactly with LOOSE or COMPACT. -/
def Descriptor.wfDepth (d : Descriptor) : Bool :=
  match d.depth with
  | .eight => d.pack == .pnone
  | .ten => d.pack == .loose || d.pack == .compact

/-- R93 (2) to (6): which subsamplings a family may have. -/
def Descriptor.wfSubs (d : Descriptor) : Bool :=
  match d.fam with
  | .planar => d.subs == .s420 || d.subs == .s422 || d.subs == .s444
  | .semi => d.subs == .s420 || d.subs == .s422 || d.subs == .s444
  | .packed422 => d.subs == .s422
  | .tiled => d.subs == .s420
  | .mixed => d.subs == .s422 || d.subs == .s444
  | .mono => d.subs == .snone

/-- R93 (3) and (7): a packed family's four offsets are exactly 0, 1, 2, 3, and any other family has offsets 0. -/
def Descriptor.wfOffsets (d : Descriptor) : Bool :=
  match d.fam with
  | .packed422 =>
    decide (d.yoff.toNat ≤ 1) &&
      [0, 1, 2, 3].all (fun k => [d.yoff.toNat, d.yoff.toNat + 2, d.cboff.toNat, d.croff.toNat].contains k)
  | .planar | .semi | .tiled | .mixed | .mono => d.yoff == 0#2 && d.cboff == 0#2 && d.croff == 0#2

/-- R93 (4) and (7): only the tiled family has tile dimensions, and it may have any (a zero is caught by GEOM). -/
def Descriptor.wfTile (d : Descriptor) : Bool :=
  match d.fam with
  | .tiled => true
  | .planar | .semi | .packed422 | .mixed | .mono => d.tw == 0#16 && d.th == 0#16

/-- R93 (8): a token is 1 to 256 bytes long and holds no upper-case ASCII letter. -/
def tokenWf (k : List Byte) : Bool :=
  decide (1 ≤ k.length) && decide (k.length ≤ 256) &&
    k.all (fun c => !(decide (0x41 ≤ c.toNat) && decide (c.toNat ≤ 0x5A)))

/-- R93 (1) to (8) for one descriptor. -/
def Descriptor.wf (d : Descriptor) : Bool :=
  d.wfDepth && d.wfSubs && d.wfOffsets && d.wfTile && d.toks.all tokenWf

/-- A registry: every descriptor well-formed, and each id a key once, since `REGISTRY` is a finite map (R7, R93). That
ids are 16-bit, R93 (9), is their type. -/
def registryWf (r : Registry) : Bool :=
  r.all (fun e => e.2.wf) && decide (r.map Prod.fst).Nodup

/-- A configuration the model accepts (R93: one that breaks a condition is refused). -/
def Config.wf (c : Config) : Bool := registryWf c.registry

end Sys2Proof
end

