-- ==== Sys2Proof/Decode.lean ====
section
/-! DEFINITION. The command word CMD64 and its decoder and encoder (30_encoding.md R80 to R84). -/

namespace Sys2Proof

/-- Why a word is no command (R82). -/
inductive DecodeError where
  /-- `v[63:8] ≠ 0`. -/
  | reservedBits
  /-- `v[7:0]` is not in the table of R81. -/
  | reservedOpcode (op : BitVec 8)
  deriving DecidableEq, Repr

/-- OPCODE, `v[7:0]` (R80). -/
def opcodeField (v : Word) : BitVec 8 := v.extractLsb' 0 8

/-- RSVD, `v[63:8]` (R80). -/
def rsvdField (v : Word) : BitVec 56 := v.extractLsb' 8 56

/-- The opcode map read from an OPCODE field (R81). -/
def decodeOpcode (op : BitVec 8) : Except DecodeError Instr :=
  match op.toNat with
  | 0x00 => .ok .nop
  | 0x01 => .ok .lookup
  | 0x02 => .ok .findname
  | 0x03 => .ok .geom
  | 0x04 => .ok .decode
  | 0x0F => .ok .sreset
  | _ => .error (.reservedOpcode op)

/-- The command a word stands for, or why it is illegal (R81, R82). Total on every word. -/
def decode (v : Word) : Except DecodeError Instr :=
  if rsvdField v = 0 then decodeOpcode (opcodeField v) else .error .reservedBits

/-- The opcode map written the other way (R81). -/
def opcodeOf : Instr → BitVec 8
  | .nop => 0x00#8
  | .lookup => 0x01#8
  | .findname => 0x02#8
  | .geom => 0x03#8
  | .decode => 0x04#8
  | .sreset => 0x0F#8

/-- The word of a command: RSVD 0 above its OPCODE (R80, R84: exactly one 64-bit word). -/
def encode (i : Instr) : Word := 0#56 ++ opcodeOf i

/-- What the decoder reads from an instruction whose `nbits` bits, bit 0 first, are `w`. CMD64 is one 64-bit word (R84). A
longer word is no command, and a word given with fewer than 64 bits is read with zeros above: R84 has only 64-bit words,
DESIGN CHOICE, log entry 23. -/
def decodeTableWord (nbits w : Nat) : Option Instr :=
  if nbits ≤ 64 ∧ w < 2 ^ 64 then (decode (BitVec.ofNat 64 (w % 2 ^ nbits))).toOption else none

end Sys2Proof
end

