-- ==== Sys2Proof/Machine/Errors.lean ====
section
/-! DEFINITION. The error kinds of a command and their codes (60_exceptions.md R260). -/

namespace Sys2Proof.Machine

/-- The eight error kinds (R260). A command ends with success or exactly one of them (00_scope.md R14). -/
inductive ErrKind where
  /-- LOOKUP, GEOM: the id is no key of `REGISTRY` (R261). -/
  | unsupportedFormat
  /-- FINDNAME: no token occurs in the text (R262). -/
  | noMatch
  /-- GEOM: a zero size, a forbidden odd size, a compact byte count that is not integral (R263). -/
  | invalidGeometry
  /-- GEOM: a tile dimension is zero or does not divide (R264). -/
  | invalidTileDims
  /-- DECODE: the source ended before one frame (R267). -/
  | shortRead
  /-- GEOM: the allocation exceeds `FB_CAPACITY` (R268). -/
  | allocationFailure
  /-- Any illegal command word (R269). -/
  | illegalCommand
  /-- DECODE accepted without a context (R270). -/
  | noGeometry
  deriving DecidableEq, Repr

/-- ERRCODE of an error kind (R260); 0 is success and 9 to 15 are never produced. -/
def ErrKind.code : ErrKind → BitVec 4
  | .unsupportedFormat => 1#4
  | .noMatch => 2#4
  | .invalidGeometry => 3#4
  | .invalidTileDims => 4#4
  | .shortRead => 5#4
  | .allocationFailure => 6#4
  | .illegalCommand => 7#4
  | .noGeometry => 8#4

end Sys2Proof.Machine
end

