-- ==== Sys2Proof/Machine/Geometry.lean ====
section
/-! DEFINITION. The frame geometry calculator (41_geometry.md R130 to R138). -/

namespace Sys2Proof.Machine

/-- The geometry record (R130). -/
structure Geometry where
  /-- Total pixel count. -/
  pix : Nat
  /-- Luma plane size. -/
  y : Nat
  /-- Source chroma size, each of Cb and Cr. -/
  csrc : Nat
  /-- Output chroma view size, each of Cb and Cr. -/
  cout : Nat
  /-- Chroma store size, each of CB and CR. -/
  cstore : Nat
  /-- 8-bit frame size. -/
  r8 : Nat
  /-- Source bytes per frame. -/
  raw : Nat
  /-- Frame-buffer allocation. -/
  alloc : Nat
  /-- The width or height is not a multiple of 16. -/
  wmb : Bool
  deriving DecidableEq, Repr

/-- Source chroma size (R137). -/
def chromaSrc (subs : Subsampling) (pix : Nat) : Nat :=
  match subs with
  | .s420 => pix / 4
  | .s422 => pix / 2
  | .s444 => pix
  | .snone => 0

/-- Output chroma view size (R138). -/
def chromaOut (d : Descriptor) (pix : Nat) : Nat :=
  match d.fam with
  | .mixed | .mono => pix / 4
  | .planar | .semi | .packed422 | .tiled => chromaSrc d.subs pix

/-- The parity condition that fails (R134): odd width with S420 or S422, odd height with S420, either odd with MIXED. -/
def parityBad (w h : Nat) (d : Descriptor) : Bool :=
  ((d.subs == .s420 || d.subs == .s422) && w % 2 != 0) || (d.subs == .s420 && h % 2 != 0) ||
    (d.fam == .mixed && (w % 2 != 0 || h % 2 != 0))

/-- The tile condition that fails (R133). -/
def tileBad (w h : Nat) (d : Descriptor) : Bool :=
  d.fam == .tiled &&
    (d.tw.toNat == 0 || d.th.toNat == 0 || w % d.tw.toNat != 0 || h % d.th.toNat != 0 || (h / 2) % d.th.toNat != 0)

/-- Source bytes per frame, or none where the compact byte count is not integral (R135). -/
def rawBytes (pack : Packing) (r8 : Nat) : Option Nat :=
  match pack with
  | .pnone => some r8
  | .loose => some (2 * r8)
  | .compact => if r8 % 4 ≠ 0 then none else some (r8 * 10 / 8)

/-- The record of R130 once `raw` is known. -/
def geometryRecord (w h : Nat) (d : Descriptor) (raw : Nat) : Geometry :=
  let pix := w * h
  let csrc := chromaSrc d.subs pix
  let cout := chromaOut d pix
  let cstore := max csrc cout
  let r8 := pix + 2 * csrc
  { pix := pix, y := pix, csrc := csrc, cout := cout, cstore := cstore, r8 := r8, raw := raw,
    alloc := r8 + pix + 2 * cstore, wmb := w % 16 != 0 || h % 16 != 0 }

/-- `geom(w, h, d)` (R130): the checks in this order, the first that fails decides the error. -/
def geom (capacity w h : Nat) (d : Descriptor) : Except ErrKind Geometry :=
  if w = 0 ∨ h = 0 then .error .invalidGeometry
  else if parityBad w h d then .error .invalidGeometry
  else if tileBad w h d then .error .invalidTileDims
  else
    match rawBytes d.pack (w * h + 2 * chromaSrc d.subs (w * h)) with
    | none => .error .invalidGeometry
    | some raw =>
      if (geometryRecord w h d raw).alloc > capacity then .error .allocationFailure
      else .ok (geometryRecord w h d raw)

end Sys2Proof.Machine
end

