-- ==== Sys2Proof/Machine/Memory.lean ====
section
/-! DEFINITION. Byte memories in one canonical form: cells with strictly rising addresses, and no cell equal to what an
unlisted address reads as. In a frame-buffer plane an unlisted byte is `undef` (00_scope.md R13); in the NAME buffer it
is 0, its reset value (10_state.md R46). -/

namespace Sys2Proof.Machine

/-- A sparse byte memory. -/
abbrev Memory := List Host.Cell

/-- The byte listed at an address. -/
def Memory.find : Memory → Nat → Option Byte
  | [], _ => none
  | c :: m, a => if c.1 = a then some c.2 else Memory.find m a

/-- List byte `b` at address `a`, in its place. -/
def Memory.put : Memory → Nat → Byte → Memory
  | [], a, b => [(a, b)]
  | c :: m, a, b => if a < c.1 then (a, b) :: c :: m else if a = c.1 then (a, b) :: m else c :: Memory.put m a b

/-- List nothing at address `a`. -/
def Memory.erase (m : Memory) (a : Nat) : Memory := m.filter (fun c => c.1 != a)

/-- What address `a` reads as, where an unlisted address reads as `unlisted`. -/
def Memory.read (unlisted : Option Byte) (m : Memory) (a : Nat) : Option Byte := (m.find a).or unlisted

/-- Write one byte. Writing what an unlisted address reads as removes the cell. -/
def Memory.write (unlisted : Option Byte) (m : Memory) (a : Nat) (b : Byte) : Memory :=
  if some b = unlisted then m.erase a else m.put a b

/-- The cells of a byte sequence laid out from address `start`. -/
def Memory.ofBytes : Nat → List Byte → Memory
  | _, [] => []
  | start, b :: bs => (start, b) :: Memory.ofBytes (start + 1) bs

/-- Write a byte sequence at addresses 0, 1, … of a plane, where an unlisted byte is `undef`. -/
def Memory.writeRun (m : Memory) (bs : List Byte) : Memory :=
  Memory.ofBytes 0 bs ++ m.filter (fun c => decide (bs.length ≤ c.1))

/-- The canonical form, with every address below `bound`. -/
abbrev Memory.wf (unlisted : Option Byte) (bound : Nat) (m : Memory) : Prop :=
  m.Pairwise (fun c c' => c.1 < c'.1) ∧ ∀ c ∈ m, c.1 < bound ∧ some c.2 ≠ unlisted

/-- Byte `i` of a sequence. The rules use no index outside the sequence (44_decode.md R208); there the model gives 0 (log
entry 8). -/
def byteAt (s : List Byte) (i : Nat) : Byte := s.getD i 0#8

/-- `s[a..b)` (00_scope.md R11). -/
def slice (s : List Byte) (a b : Nat) : List Byte := (s.drop a).take (b - a)

end Sys2Proof.Machine
end

