-- ==== Sys2Proof/Machine/Registry.lean ====
section
/-! DEFINITION. The format registry: codes and descriptor words (30_encoding.md R91, R92), the default table (R96), lookup
and findByNameToken (40_registry.md R110 to R116). -/

namespace Sys2Proof.Machine

/-- FAMILY codes (00_scope.md R16). -/
def familyCode : Family → BitVec 3
  | .planar => 0#3
  | .semi => 1#3
  | .packed422 => 2#3
  | .tiled => 3#3
  | .mixed => 4#3
  | .mono => 5#3

/-- SUBS codes (00_scope.md R17). -/
def subsCode : Subsampling → BitVec 2
  | .s420 => 0#2
  | .s422 => 1#2
  | .s444 => 2#2
  | .snone => 3#2

/-- Chroma order codes (00_scope.md R17). -/
def orderCode : ChromaOrder → BitVec 1
  | .cbFirst => 0#1
  | .crFirst => 1#1

/-- DEPTH: 0 for 8-bit, 1 for 10-bit (R91). -/
def depthCode : Depth → BitVec 1
  | .eight => 0#1
  | .ten => 1#1

/-- PACK10 codes (00_scope.md R17). -/
def packCode : Packing → BitVec 2
  | .pnone => 0#2
  | .loose => 1#2
  | .compact => 2#2

/-- Topology from family (R94). -/
def topologyOf : Family → Topology
  | .planar | .mixed | .mono => .planar
  | .semi => .semiPlanar
  | .packed422 => .packedInterleaved
  | .tiled => .tiledSemiPlanar

/-- TOPO codes (R91). -/
def topoCode : Topology → BitVec 2
  | .planar => 0#2
  | .semiPlanar => 1#2
  | .packedInterleaved => 2#2
  | .tiledSemiPlanar => 3#2

/-- CORDER (R91): the chroma order, except that a packed family has 1 exactly when `cboff > croff`. -/
def corderField (d : Descriptor) : BitVec 1 :=
  match d.fam with
  | .packed422 => if d.cboff.toNat > d.croff.toNat then 1#1 else 0#1
  | .planar | .semi | .tiled | .mixed | .mono => orderCode d.co

/-- An offset field (R91): the offset for a packed family, 0 for any other. -/
def offsetField (d : Descriptor) (off : BitVec 2) : BitVec 2 :=
  match d.fam with
  | .packed422 => off
  | .planar | .semi | .tiled | .mixed | .mono => 0#2

/-- A tile field (R92): the dimension for the tiled family, 0 for any other. -/
def tileField (d : Descriptor) (dim : BitVec 16) : BitVec 16 :=
  match d.fam with
  | .tiled => dim
  | .planar | .semi | .packed422 | .mixed | .mono => 0#16

/-- DESC0 of a descriptor (R91): the fields from bit 63 down to bit 0. -/
def enc0 (d : Descriptor) : Word :=
  0#46 ++ topoCode (topologyOf d.fam) ++ 0#1 ++ offsetField d d.croff ++ offsetField d d.cboff ++ offsetField d d.yoff ++
    packCode d.pack ++ depthCode d.depth ++ corderField d ++ subsCode d.subs ++ familyCode d.fam

/-- DESC1 of a descriptor (R92): NTOK, TILE_H, TILE_W from bit 39 down. -/
def enc1 (d : Descriptor) : Word :=
  0#24 ++ BitVec.ofNat 8 (min d.toks.length 255) ++ tileField d d.th ++ tileField d d.tw

/-- The entry of an id, if it is a key. -/
def registryFind : Registry → BitVec 16 → Option Descriptor
  | [], _ => none
  | e :: r, fid => if e.1 = fid then some e.2 else registryFind r fid

/-- `lookup(id)` (R110): the descriptor, or UnsupportedFormat. -/
def lookup (r : Registry) (fid : BitVec 16) : Except ErrKind Descriptor :=
  match registryFind r fid with
  | some d => .ok d
  | none => .error .unsupportedFormat

/-- ASCII case folding of one byte (R114). -/
def lowerByte (c : Byte) : Byte := if 0x41 ≤ c.toNat ∧ c.toNat ≤ 0x5A then c + 0x20#8 else c

/-- Case folding of a text (R114). -/
def lower (s : List Byte) : List Byte := s.map lowerByte

/-- Token `k` occurs in `t` as a contiguous substring (R112, R116: some p has `t[p..p+|k|) = k`). -/
def occurs (k : List Byte) : List Byte → Bool
  | [] => k.isEmpty
  | c :: t => k.isPrefixOf (c :: t) || occurs k t

/-- Lexicographic order on byte strings, bytes compared as unsigned numbers (R116): `a` comes strictly before `b`. -/
def lexLt : List Byte → List Byte → Bool
  | [], [] => false
  | [], _ :: _ => true
  | _ :: _, [] => false
  | a :: s, b :: t => decide (a.toNat < b.toNat) || (a == b && lexLt s t)

/-- The candidates of R116: every token of every entry, at least one byte long, that occurs in the folded text. -/
def candidates (r : Registry) (t : List Byte) : List (List Byte × BitVec 16) :=
  r.flatMap (fun e => (e.2.toks.filter (fun k => decide (1 ≤ k.length) && occurs k t)).map (fun k => (k, e.1)))

/-- The greatest length among tokens (R116, L). -/
def longest (ks : List (List Byte)) : Nat := ks.foldl (fun n k => max n k.length) 0

/-- The lexically first of tokens (R116, min_lex). -/
def lexFirst (k : List Byte) (ks : List (List Byte)) : List Byte := ks.foldl (fun a b => if lexLt b a then b else a) k

/-- The least of ids (R116). -/
def leastId (i : BitVec 16) (is : List (BitVec 16)) : BitVec 16 := is.foldl (fun a b => if b.toNat < a.toNat then b else a) i

/-- `findByNameToken(text)` (R116): the longest matching token, ties by lexical order, then the lowest id; NoMatch when
nothing matches. -/
def findByNameToken (r : Registry) (text : List Byte) : Except ErrKind (BitVec 16) :=
  let cands := candidates r (lower text)
  let len := longest (cands.map Prod.fst)
  match (cands.map Prod.fst).filter (fun k => k.length == len) with
  | [] => .error .noMatch
  | k :: ks =>
    let tok := lexFirst k ks
    match (cands.filter (fun c => c.1 == tok)).map Prod.snd with
    | [] => .error .noMatch
    | i :: is => .ok (leastId i is)

/-- The bytes of an ASCII word. -/
def ascii (cs : List Char) : List Byte := cs.map (fun c => BitVec.ofNat 8 c.toNat)

/-- An 8-bit entry with no offsets and no tiles. -/
def plainEntry (fam : Family) (subs : Subsampling) (co : ChromaOrder) (toks : List (List Byte)) : Descriptor :=
  { fam := fam, subs := subs, co := co, depth := .eight, pack := .pnone, yoff := 0#2, cboff := 0#2, croff := 0#2,
    tw := 0#16, th := 0#16, toks := toks }

/-- The default `REGISTRY`, ids 0 to 12 (R96; the packed offsets are those of R97). -/
def defaultRegistry : Registry :=
  [ (0#16, plainEntry .planar .s420 .cbFirst
      [ascii ['i', '4', '2', '0'], ascii ['i', 'y', 'u', 'v'], ascii ['y', 'u', 'v', '4', '2', '0', 'p']]),
    (1#16, plainEntry .planar .s420 .crFirst [ascii ['y', 'v', '1', '2']]),
    (2#16, { plainEntry .planar .s420 .crFirst [ascii ['y', 'v', '1', '2', '1', '0']] with
      depth := .ten, pack := .compact }),
    (3#16, { plainEntry .planar .s420 .cbFirst [ascii ['y', 'u', 'v', '4', '2', '0', 'p', '1', '0', 'l', 'e']] with
      depth := .ten, pack := .loose }),
    (4#16, plainEntry .semi .s420 .cbFirst [ascii ['n', 'v', '1', '2']]),
    (5#16, plainEntry .semi .s420 .crFirst [ascii ['n', 'v', '2', '1']]),
    (6#16, { plainEntry .packed422 .s422 .cbFirst [ascii ['y', 'u', 'y', 'v'], ascii ['y', 'u', 'y', '2']] with
      yoff := 0#2, cboff := 1#2, croff := 3#2 }),
    (7#16, { plainEntry .packed422 .s422 .cbFirst [ascii ['u', 'y', 'v', 'y']] with
      yoff := 1#2, cboff := 0#2, croff := 2#2 }) ] ++
  [ (8#16, { plainEntry .tiled .s420 .cbFirst [ascii ['t', 'i', 'l', 'e', '4', 'x', '4']] with tw := 4#16, th := 4#16 }),
    (9#16, { plainEntry .tiled .s420 .cbFirst [ascii ['t', 'i', 'l', 'e', '8', 'x', '4']] with tw := 8#16, th := 4#16 }),
    (10#16, plainEntry .mixed .s422 .crFirst [ascii ['y', 'u', 'v', '4', '2', '2', 'p'], ascii ['4', '2', '2']]),
    (11#16, plainEntry .mixed .s444 .crFirst [ascii ['y', 'u', 'v', '4', '4', '4', 'p'], ascii ['4', '4', '4']]),
    (12#16, plainEntry .mono .snone .cbFirst
      [ascii ['y', '8', '0', '0'], ascii ['g', 'r', 'a', 'y'], ascii ['m', 'o', 'n', 'o']]) ]

/-- The configuration a run starts with: the default registry (R7, R96), and for the OPEN parameter `FB_CAPACITY` the value
2^26 that the test vectors assume (D18). DESIGN CHOICE, log entry 1. -/
def defaultConfig : Config := { registry := defaultRegistry, fbCapacity := 67108864 }

/-- ID (10_state.md R24): MAGIC in [31:0], the number of registry entries in [47:32] (log entry 9). -/
def idWord (r : Registry) : Word := 0#16 ++ BitVec.ofNat 16 r.length ++ idMagic

end Sys2Proof.Machine
end

