-- ==== Sys2Proof/Machine/State.lean ====
section
/-! DEFINITION. The state of one block (10_state.md R20), the two agents' moves still to come (45_control.md R235), and the
reset state (R51). -/

namespace Sys2Proof.Machine

/-- STATUS, field by field (R26); its word is `Status.word`. -/
structure Status where
  busy : Bool
  done : Bool
  err : Bool
  valid : Bool
  ctx : Bool
  ovr : Bool
  warnMb : Bool
  warnFsize : Bool
  errcode : BitVec 4
  lastop : BitVec 8
  deriving DecidableEq, Repr

/-- A context `(fid, w, h)` (R40). -/
structure Context where
  fid : BitVec 16
  w : BitVec 16
  h : BitVec 16
  deriving DecidableEq, Repr

/-- The planes of the frame buffer (20_memory.md R60). -/
inductive Plane where
  | raw
  | y
  | cb
  | cr
  deriving DecidableEq, Repr

/-- One plane: how many bytes exist, and the bytes that hold a value. A byte not listed is `undef` (R44, R45). -/
structure PlaneStore where
  size : Nat
  cells : Memory
  deriving DecidableEq, Repr

/-- The frame buffer (R44). -/
structure FrameBuffer where
  raw : PlaneStore
  y : PlaneStore
  cb : PlaneStore
  cr : PlaneStore
  deriving DecidableEq, Repr

/-- The operands a command latches at accept (R48). A field the command does not latch is 0, empty or none. -/
structure Operands where
  fid : BitVec 16
  width : BitVec 16
  height : BitVec 16
  srcSize : BitVec 48
  nameLen : BitVec 9
  text : List Byte
  ctx : Option Context
  deriving DecidableEq, Repr

/-- The in-flight latch when it is not empty (R48): the accepted word and its operands. -/
structure Latch where
  op : Word
  operands : Operands
  deriving DecidableEq, Repr

/-- The host transactions (45_control.md R235). An argument out of range cannot be formed, but for the index of FB_RD. -/
inductive Transaction where
  | csrRd (i : Fin 64)
  | csrWr (i : Fin 64) (v : Word)
  | nameWr (i : Fin 256) (b : Byte)
  | nameRd (i : Fin 256)
  | fbRd (p : Plane) (i : Nat)
  | srcPush (b : Byte)
  | srcEof
  | srcFlush
  deriving DecidableEq, Repr

/-- What the host does next: one transaction, or the loop `poll` (30_encoding.md R87): read STATUS until BUSY = 0. -/
inductive HostOp where
  | tx (t : Transaction)
  | poll
  deriving DecidableEq, Repr

/-- The agents that take steps (00_scope.md R6). -/
inductive Agent where
  | host
  | engine
  deriving DecidableEq, Repr

/-- What a host transaction returned (45_control.md R235). -/
inductive HostReturn where
  | none
  | word (v : Word)
  | byte (b : Byte)
  deriving DecidableEq, Repr

/-- The whole state. The fields down to `latch` are the block's (R20); `faultMark` is the spec's mark of a run (45_control.md
R244); `cfg`, `host`, `turns` and `ret` are the model's own (log entries 1, 2, 3). A register is held as its fields; every
other bit of it reads 0 (R23). ID, CMD, SRC_STAT and the reserved registers have no storage (R24, R25, R43, R50). -/
structure State where
  status : Status
  fmtId : BitVec 16
  width : BitVec 16
  height : BitVec 16
  srcSize : BitVec 48
  nameLen : BitVec 9
  resultId : BitVec 16
  desc0 : Word
  desc1 : Word
  ctxInfo : Word
  gPix : Word
  gY : Word
  gCsrc : Word
  gCout : Word
  gR8 : Word
  gRaw : Word
  srcPos : Word
  /-- The hidden context (R40). -/
  ctx : Option Context
  fb : FrameBuffer
  /-- The NAME buffer (R46): an unlisted byte is 0. -/
  name : Memory
  fifo : List Byte
  eof : Bool
  latch : Option Latch
  /-- The host-fault mark (45_control.md R244). -/
  faultMark : Bool
  /-- The parameters `REGISTRY` and `FB_CAPACITY` (00_scope.md R7). -/
  cfg : Config
  /-- The host operations still to come, first one first. -/
  host : List HostOp
  /-- Who moves next; when it is empty a fair default decides (`State.nextAgent`). -/
  turns : List Agent
  /-- The value the last completed host transaction returned. -/
  ret : HostReturn
  deriving DecidableEq, Repr

/-- The reasons a step can stop with a fault. A host read of an `undef` byte is not one of them: it sets the fault mark and
the run goes on (45_control.md R244). -/
inductive Fault where
  /-- Raised by the engine's turn in a state with BUSY = 1 and an empty latch, which no run reaches (10_state.md R48). Safe:
  the model stops where the spec describes no machine. -/
  | noCommandInFlight
  deriving DecidableEq, Repr

/-- The reasons the model has no meaning to give. -/
inductive Refusal where
  /-- Raised by exec for an instruction that has no meaning yet. Safe. No arm raises it now. -/
  | notModelled (mnemonic : String)
  /-- Raised by step in a state whose `REGISTRY` is not well-formed (30_encoding.md R93: the model refuses the
  configuration before any step). Safe. -/
  | illFormedRegistry
  deriving DecidableEq, Repr

/-- STATUS = 0. -/
def Status.reset : Status :=
  { busy := false, done := false, err := false, valid := false, ctx := false, ovr := false, warnMb := false,
    warnFsize := false, errcode := 0#4, lastop := 0#8 }

/-- A plane with no bytes. -/
def PlaneStore.empty : PlaneStore := { size := 0, cells := [] }

/-- The frame buffer without a context: every size 0 (R44). -/
def FrameBuffer.empty : FrameBuffer :=
  { raw := PlaneStore.empty, y := PlaneStore.empty, cb := PlaneStore.empty, cr := PlaneStore.empty }

/-- The machine right after reset (R51), with no host operation pending. -/
def State.reset : State :=
  { status := Status.reset, fmtId := 0#16, width := 0#16, height := 0#16, srcSize := 0#48, nameLen := 0#9,
    resultId := 0#16, desc0 := 0#64, desc1 := 0#64, ctxInfo := 0#64, gPix := 0#64, gY := 0#64, gCsrc := 0#64,
    gCout := 0#64, gR8 := 0#64, gRaw := 0#64, srcPos := 0#64, ctx := none, fb := FrameBuffer.empty, name := [],
    fifo := [], eof := false, latch := none, faultMark := false, cfg := defaultConfig, host := [], turns := [],
    ret := .none }

end Sys2Proof.Machine
end

