-- ==== Sys2Proof/Machine/Flags.lean ====
section
/-! DEFINITION. STATUS: its word, and every way its bits change (10_state.md R26 to R33). -/

namespace Sys2Proof.Machine

/-- One bit of a word. -/
def bit (b : Bool) : BitVec 1 := BitVec.ofBool b

/-- The STATUS word (R26). -/
def Status.word (st : Status) : Word :=
  0#44 ++ st.lastop ++ st.errcode ++ bit st.warnFsize ++ bit st.warnMb ++ bit st.ovr ++ bit st.ctx ++ bit st.valid ++
    bit st.err ++ bit st.done ++ bit st.busy

/-- The accept of a word with OPCODE field `op` (45_control.md R238). -/
def Status.accepted (op : BitVec 8) (st : Status) : Status :=
  { st with busy := true, done := false, err := false, errcode := 0#4, ovr := false, lastop := op }

/-- A request dropped because the block is busy (R31, R238). -/
def Status.dropped (st : Status) : Status := { st with ovr := true }

/-- Success completion (60_exceptions.md R265). -/
def Status.succeeded (st : Status) : Status := { st with busy := false, done := true, err := false, errcode := 0#4 }

/-- Error completion with kind `e` (60_exceptions.md R266). -/
def Status.failed (e : ErrKind) (st : Status) : Status :=
  { st with busy := false, done := true, err := true, errcode := e.code }

/-- The warning bits and CTX of a successful GEOM (41_geometry.md R139, R141). -/
def Status.contextSet (g : Geometry) (srcSize : BitVec 48) (st : Status) : Status :=
  { st with ctx := true, warnMb := g.wmb, warnFsize := decide (srcSize.toNat ≠ 0) && decide (srcSize.toNat % g.raw ≠ 0) }

/-- VALID <- 0 (44_decode.md R216, 41_geometry.md R140). -/
def Status.invalidated (st : Status) : Status := { st with valid := false }

/-- VALID <- 1 (44_decode.md R215). -/
def Status.validated (st : Status) : Status := { st with valid := true }

end Sys2Proof.Machine
end

