-- ==== Sys2Proof/Machine/Operands.lean ====
section
/-! DEFINITION. Operand assembly and the operands a command latches at accept (30_encoding.md R85, 10_state.md R48). -/

namespace Sys2Proof.Machine

/-- NAME[i] (10_state.md R46). -/
def State.nameByte (s : State) (i : Nat) : Byte := (s.name.read (some 0#8) i).getD 0#8

/-- `NAME[0..n)` (40_registry.md R115). -/
def State.nameText (s : State) (n : Nat) : List Byte := (List.range n).map s.nameByte

/-- No operand latched. -/
def Operands.none : Operands :=
  { fid := 0#16, width := 0#16, height := 0#16, srcSize := 0#48, nameLen := 0#9, text := [], ctx := Option.none }

/-- The operands one command reads, taken from the registers and buffers of this state (R48, R85). -/
def State.operandsOf (i : Instr) (s : State) : Operands :=
  match i with
  | .nop => Operands.none
  | .lookup => { Operands.none with fid := s.fmtId }
  | .findname => { Operands.none with nameLen := s.nameLen, text := s.nameText s.nameLen.toNat }
  | .geom => { Operands.none with fid := s.fmtId, width := s.width, height := s.height, srcSize := s.srcSize }
  | .decode => { Operands.none with ctx := s.ctx }
  | .sreset => Operands.none

/-- What the accept of word `v` latches as operands: those of its command; an illegal word has none (R48, R269). -/
def State.capture (v : Word) (s : State) : Operands :=
  match Sys2Proof.decode v with
  | .ok i => s.operandsOf i
  | .error _ => Operands.none

/-- The operands command `i` runs on: the latched ones while a command is in flight (R48). With an empty latch the engine
takes no step, and the model lets a direct call of a meaning read what an accept would latch now (log entry 5). -/
def State.operandsFor (i : Instr) (s : State) : Operands :=
  match s.latch with
  | some l => l.operands
  | Option.none => s.operandsOf i

end Sys2Proof.Machine
end

