-- ==== Sys2Proof/Machine/BitDepth.lean ====
section
/-! DEFINITION. The bit-depth converter, 10 to 8 bits (42_bitdepth.md R160 to R167). -/

namespace Sys2Proof.Machine

/-- `conv8(s) = min(255, (s + 2) >> 2)` (R160). -/
def conv8 (s : Nat) : Nat := min 255 ((s + 2) / 4)

/-- Sample `i` of a loose stream: a 16-bit little-endian load, not masked (R162, R163). -/
def looseSample (b : List Byte) (i : Nat) : Nat := (byteAt b (2 * i)).toNat ||| ((byteAt b (2 * i + 1)).toNat <<< 8)

/-- `loose(b, n)` (R163). -/
def loose (b : List Byte) (n : Nat) : List Byte := (List.range n).map (fun i => BitVec.ofNat 8 (conv8 (looseSample b i)))

/-- The offset pair of position `k` in a compact group (R165): bits taken from the lower and from the upper byte. -/
def compactOffsets (k : Nat) : Nat × Nat :=
  match k with
  | 0 => (8, 2)
  | 1 => (6, 4)
  | 2 => (4, 6)
  | _ => (2, 8)

/-- `unpack10(b)[i]` (R165). -/
def unpack10 (b : List Byte) (i : Nat) : Nat :=
  let g := i / 4
  let k := i % 4
  let o := compactOffsets k
  let lo := (byteAt b (5 * g + k)).toNat >>> (8 - o.1)
  let hi := (byteAt b (5 * g + k + 1)).toNat &&& (2 ^ o.2 - 1)
  (lo ||| (hi <<< o.1)) &&& 0x3FF

/-- `compact(b, n)` (R165). -/
def compact (b : List Byte) (n : Nat) : List Byte := (List.range n).map (fun i => BitVec.ofNat 8 (conv8 (unpack10 b i)))

/-- The R8 frame of `n` samples from the source bytes of one frame (R167, 44_decode.md R200, R208). -/
def toR8 (pack : Packing) (src : List Byte) (n : Nat) : List Byte :=
  match pack with
  | .pnone => src.take n
  | .loose => loose src n
  | .compact => compact src n

end Sys2Proof.Machine
end

