-- ==== Sys2Proof/Machine/Tile.lean ====
section
/-! DEFINITION. The tile deinterleaver (43_tile.md R180 to R182). -/

namespace Sys2Proof.Machine

/-- `taddr(x, y; W, tw, th)` (R180). -/
def taddr (x y W tw th : Nat) : Nat := (y / th) * (th * W) + (x / tw) * (tw * th) + (y % th) * tw + x % tw

/-- `detile(buf, base, W, H, tw, th)` (R181): raster byte `y·W + x` comes from `base + taddr(x, y)`. -/
def detile (buf : List Byte) (base W H tw th : Nat) : List Byte :=
  (List.range (W * H)).map (fun k => byteAt buf (base + taddr (k % W) (k / W) W tw th))

/-- The raster index `y·W + x` of the pixel whose tile address is `a`: the digits of R180 read back. -/
def rasterOf (a W tw th : Nat) : Nat :=
  let row := a / (th * W)
  let inRow := a % (th * W)
  let col := inRow / (tw * th)
  let inTile := inRow % (tw * th)
  (row * th + inTile / tw) * W + (col * tw + inTile % tw)

/-- `tile(P, W, H, tw, th)`, the forward tiling function (R182). The block never computes it. -/
def tile (p : List Byte) (W H tw th : Nat) : List Byte :=
  (List.range (W * H)).map (fun a => byteAt p (rasterOf a W tw th))

end Sys2Proof.Machine
end

