-- ==== Sys2Proof/Machine/Unpack.lean ====
section
/-! DEFINITION. The frame decoders: one unpacker per family from the R8 frame to the three planes (44_decode.md R191, R200
to R208). -/

namespace Sys2Proof.Machine

/-- The three canonical planes (R191). -/
structure Planes where
  y : List Byte
  cb : List Byte
  cr : List Byte
  deriving DecidableEq, Repr

/-- Order two chroma runs by the declared chroma order (R201, R207). -/
def orderChroma (co : ChromaOrder) (y p1 p2 : List Byte) : Planes :=
  match co with
  | .cbFirst => { y := y, cb := p1, cr := p2 }
  | .crFirst => { y := y, cb := p2, cr := p1 }

/-- Every `stride`-th byte from `start`, `n` of them. -/
def strided (s : List Byte) (start stride n : Nat) : List Byte :=
  (List.range n).map (fun j => byteAt s (start + stride * j))

/-- `split(CI, n, co)` beside a luma plane (R207): even-offset bytes, odd-offset bytes, ordered. -/
def splitChroma (co : ChromaOrder) (y ci : List Byte) (n : Nat) : Planes :=
  orderChroma co y (strided ci 0 2 n) (strided ci 1 2 n)

/-- Planar (R201): three contiguous runs. -/
def unpackPlanar (d : Descriptor) (w h : Nat) (g : Geometry) (r8 : List Byte) : Planes :=
  orderChroma d.co (slice r8 0 (w * h)) (slice r8 (w * h) (w * h + g.csrc))
    (slice r8 (w * h + g.csrc) (w * h + 2 * g.csrc))

/-- Semi-planar (R202): luma, then one interleaved chroma run. -/
def unpackSemi (d : Descriptor) (w h : Nat) (g : Geometry) (r8 : List Byte) : Planes :=
  splitChroma d.co (slice r8 0 (w * h)) (slice r8 (w * h) (w * h + 2 * g.csrc)) g.csrc

/-- Packed 4:2:2 (R203): fixed offsets, luma stride 2, chroma stride 4. -/
def unpackPacked (d : Descriptor) (w h : Nat) (g : Geometry) (r8 : List Byte) : Planes :=
  { y := strided r8 d.yoff.toNat 2 (w * h), cb := strided r8 d.cboff.toNat 4 g.csrc,
    cr := strided r8 d.croff.toNat 4 g.csrc }

/-- Tiled semi-planar (R204; regions of 43_tile.md R183, R184). -/
def unpackTiled (d : Descriptor) (w h : Nat) (g : Geometry) (r8 : List Byte) : Planes :=
  splitChroma d.co (detile r8 0 w h d.tw.toNat d.th.toNat) (detile r8 (w * h) w (h / 2) d.tw.toNat d.th.toNat) g.csrc

/-- The lossy downsample of one chroma plane to 4:2:0 (R205): even rows, and for 4:4:4 even columns. -/
def downsample (subs : Subsampling) (w h : Nat) (p : List Byte) : List Byte :=
  match subs with
  | .s422 => (List.range ((w / 2) * (h / 2))).map
      (fun k => byteAt p ((2 * (k / (w / 2))) * (w / 2) + k % (w / 2)))
  | .s444 => (List.range ((w / 2) * (h / 2))).map
      (fun k => byteAt p ((2 * (k / (w / 2))) * w + 2 * (k % (w / 2))))
  | .s420 => p
  | .snone => p

/-- Mixed-subsample planar (R205): planar, then downsampled. -/
def unpackMixed (d : Descriptor) (w h : Nat) (g : Geometry) (r8 : List Byte) : Planes :=
  let p := unpackPlanar d w h g r8
  { y := p.y, cb := downsample d.subs w h p.cb, cr := downsample d.subs w h p.cr }

/-- Mono (R206): luma only, chroma filled with 128. -/
def unpackMono (w h : Nat) (g : Geometry) (r8 : List Byte) : Planes :=
  { y := slice r8 0 (w * h), cb := List.replicate g.cout 128#8, cr := List.replicate g.cout 128#8 }

/-- Dispatch by family (R191). -/
def unpack (d : Descriptor) (w h : Nat) (g : Geometry) (r8 : List Byte) : Planes :=
  match d.fam with
  | .planar => unpackPlanar d w h g r8
  | .semi => unpackSemi d w h g r8
  | .packed422 => unpackPacked d w h g r8
  | .tiled => unpackTiled d w h g r8
  | .mixed => unpackMixed d w h g r8
  | .mono => unpackMono w h g r8

/-- `decodeFrame(d, w, h, g, S)` (R208): the R8 frame and the planes. -/
def decodeFrame (d : Descriptor) (w h : Nat) (g : Geometry) (src : List Byte) : List Byte × Planes :=
  let r8 := toR8 d.pack src g.r8
  (r8, unpack d w h g r8)

end Sys2Proof.Machine
end

