-- ==== Sys2Proof/Machine/Ops.lean ====
section
/-! DEFINITION. The shared operations over the state: completion with success or with an error (60_exceptions.md R265, R266),
accept (45_control.md R238), reset (70_reset_and_hazards.md R290), the source (20_memory.md R64), the context and the frame
buffer (10_state.md R40, R44, R45), and the registers (R23). -/

namespace Sys2Proof.Machine

/-! ### Frame buffer -/

/-- The store of a plane. -/
def FrameBuffer.plane (fb : FrameBuffer) (p : Plane) : PlaneStore :=
  match p with
  | .raw => fb.raw
  | .y => fb.y
  | .cb => fb.cb
  | .cr => fb.cr

/-- Byte `i` of plane `p`; none is `undef` (R45). -/
def FrameBuffer.read (fb : FrameBuffer) (p : Plane) (i : Nat) : Option Byte := (fb.plane p).cells.read none i

/-- A plane of `n` bytes, every byte `undef`. -/
def PlaneStore.undef (n : Nat) : PlaneStore := { size := n, cells := [] }

/-- Every byte of every store becomes `undef`; the sizes stay (44_decode.md R216). -/
def FrameBuffer.poisoned (fb : FrameBuffer) : FrameBuffer :=
  { raw := PlaneStore.undef fb.raw.size, y := PlaneStore.undef fb.y.size, cb := PlaneStore.undef fb.cb.size,
    cr := PlaneStore.undef fb.cr.size }

/-- The store size of a plane (R44). -/
def Geometry.storeSize (g : Geometry) (p : Plane) : Nat :=
  match p with
  | .raw => g.r8
  | .y => g.y
  | .cb => g.cstore
  | .cr => g.cstore

/-- The view size of a plane (R44). -/
def Geometry.viewSize (g : Geometry) (p : Plane) : Nat :=
  match p with
  | .raw => g.r8
  | .y => g.y
  | .cb => g.cout
  | .cr => g.cout

/-- The stores of a new allocation: the sizes of the geometry, every byte `undef` (41_geometry.md R139). -/
def FrameBuffer.allocated (g : Geometry) : FrameBuffer :=
  { raw := PlaneStore.undef (g.storeSize .raw), y := PlaneStore.undef (g.storeSize .y),
    cb := PlaneStore.undef (g.storeSize .cb), cr := PlaneStore.undef (g.storeSize .cr) }

/-- Write a run of bytes from index 0 of a plane. -/
def PlaneStore.writeRun (p : PlaneStore) (bs : List Byte) : PlaneStore := { p with cells := p.cells.writeRun bs }

/-- The writes of a successful DECODE (44_decode.md R215). -/
def FrameBuffer.filled (fb : FrameBuffer) (r8 : List Byte) (pl : Planes) : FrameBuffer :=
  { raw := fb.raw.writeRun r8, y := fb.y.writeRun pl.y, cb := fb.cb.writeRun pl.cb, cr := fb.cr.writeRun pl.cr }

/-! ### Context -/

/-- The descriptor and geometry of a context: `REGISTRY[fid]` and `geom(w, h, REGISTRY[fid])` (R40). -/
def contextGeometry (cfg : Config) (c : Context) : Except ErrKind (Descriptor × Geometry) :=
  match lookup cfg.registry c.fid with
  | .error e => .error e
  | .ok d =>
    match geom cfg.fbCapacity c.w.toNat c.h.toNat d with
    | .error e => .error e
    | .ok g => .ok (d, g)

/-- The view size of plane `p` (R44): 0 without a context. R44 gives no size for a context whose lookup or geometry fails, which
no run installs; here it is 0. DESIGN CHOICE, log entry 24. -/
def State.viewSize (s : State) (p : Plane) : Nat :=
  match s.ctx with
  | none => 0
  | some c =>
    match contextGeometry s.cfg c with
    | .error _ => 0
    | .ok (_, g) => g.viewSize p

/-- CTXINFO of a context (R23). -/
def Context.info (c : Context) : Word := 0#16 ++ c.h ++ c.w ++ c.fid

/-- The writes of a successful GEOM but its completion (41_geometry.md R139, R140, R141). -/
def State.installContext (c : Context) (g : Geometry) (srcSize : BitVec 48) (s : State) : State :=
  let s1 : State :=
    { s with
      ctx := some c, ctxInfo := c.info,
      gPix := BitVec.ofNat 64 g.pix, gY := BitVec.ofNat 64 g.y, gCsrc := BitVec.ofNat 64 g.csrc,
      gCout := BitVec.ofNat 64 g.cout, gR8 := BitVec.ofNat 64 g.r8, gRaw := BitVec.ofNat 64 g.raw,
      status := s.status.contextSet g srcSize }
  if s.ctx = some c then s1
  else { s1 with fb := FrameBuffer.allocated g, status := s1.status.invalidated }

/-! ### Completion, accept, reset -/

/-- Success completion (R265): STATUS, and the latch is emptied. -/
def State.completeSuccess (s : State) : State := { s with status := s.status.succeeded, latch := none }

/-- Error completion, `raise e` (R266, R273): STATUS, and the latch is emptied. No state is saved beyond ERRCODE and
LASTOP, no vector is taken, the block becomes idle. -/
def State.completeError (e : ErrKind) (s : State) : State := { s with status := s.status.failed e, latch := none }

/-- The accept of word `v` (R238): STATUS, the latch, and for a DECODE with a context the poisoning of the buffer (R212,
R216). -/
def State.accept (v : Word) (s : State) : State :=
  let s1 : State := { s with
    status := s.status.accepted (opcodeField v), latch := some { op := v, operands := s.capture v } }
  match Sys2Proof.decode v, s.ctx with
  | .ok .decode, some _ => { s1 with fb := s.fb.poisoned, status := s1.status.invalidated }
  | _, _ => s1

/-- The reset event (R290): every piece of the block's state takes its reset value, in one step. The parameters are no
state, and the fault mark belongs to the run (R290); the agents' moves still to come and the value the host holds are not
the block's (log entry 11). -/
def State.resetEvent (s : State) : State :=
  { State.reset with
    faultMark := s.faultMark, cfg := s.cfg, host := s.host, turns := s.turns, ret := s.ret }

/-! ### Source -/

/-- `SrcTake(n)` (20_memory.md R64): the first `n` bytes, and the state without them. -/
def State.srcTake (n : Nat) (s : State) : List Byte × State :=
  (s.fifo.take n, { s with fifo := s.fifo.drop n, srcPos := s.srcPos + BitVec.ofNat 64 n })

/-- SRC_STAT, the live view of the FIFO (10_state.md R43). -/
def State.srcStat (s : State) : Word :=
  0#15 ++ bit s.eof ++ BitVec.ofNat 48 (min s.fifo.length (2 ^ 48 - 1))

/-! ### Registers -/

/-- `reg[i]` as a host read sees it (R23, 45_control.md R236). -/
def State.csrRead (i : Fin 64) (s : State) : Word :=
  match i.val with
  | 0x00 => idWord s.cfg.registry
  | 0x01 => 0#64
  | 0x02 => s.status.word
  | 0x03 => s.fmtId.setWidth 64
  | 0x04 => s.width.setWidth 64
  | 0x05 => s.height.setWidth 64
  | 0x06 => s.srcSize.setWidth 64
  | 0x07 => s.nameLen.setWidth 64
  | 0x08 => s.resultId.setWidth 64
  | 0x09 => s.desc0
  | 0x0A => s.desc1
  | 0x0B => s.ctxInfo
  | 0x0C => s.gPix
  | 0x0D => s.gY
  | 0x0E => s.gCsrc
  | 0x0F => s.gCout
  | 0x10 => s.gR8
  | 0x11 => s.gRaw
  | 0x12 => s.srcPos
  | 0x13 => s.srcStat
  | _ => 0#64

/-- NAME_LEN is WARL (R37): a write of `v` stores `min(v[8:0], 256)`. -/
def nameLenOf (v : Word) : BitVec 9 :=
  if (v.extractLsb' 0 9).toNat ≤ nameMax then v.extractLsb' 0 9 else BitVec.ofNat 9 nameMax

/-- A host write to a register other than CMD (45_control.md R237). -/
def State.csrWrite (i : Fin 64) (v : Word) (s : State) : State :=
  match i.val with
  | 0x03 => { s with fmtId := v.extractLsb' 0 16 }
  | 0x04 => { s with width := v.extractLsb' 0 16 }
  | 0x05 => { s with height := v.extractLsb' 0 16 }
  | 0x06 => { s with srcSize := v.extractLsb' 0 48 }
  | 0x07 => { s with nameLen := nameLenOf v }
  | _ => s

/-! ### What a DECODE step does -/

/-- The four ways an engine step of DECODE can go (44_decode.md R212), and the error of a context that has no geometry,
which no run installs (log entry 7). -/
inductive DecodeAction where
  | fail (e : ErrKind)
  | frame (d : Descriptor) (w h : Nat) (g : Geometry)
  | shortRead
  | wait
  deriving DecidableEq, Repr

/-- The decision of R212 on the latched context: no context, enough bytes, end of source, or wait. -/
def State.decodeAction (ctx : Option Context) (s : State) : DecodeAction :=
  match ctx with
  | none => .fail .noGeometry
  | some c =>
    match contextGeometry s.cfg c with
    | .error e => .fail e
    | .ok (d, g) =>
      if g.raw ≤ s.fifo.length then .frame d c.w.toNat c.h.toNat g
      else if s.eof then .shortRead
      else .wait

end Sys2Proof.Machine
end

