-- ==== Sys2Proof/Machine/Control.lean ====
section
/-! DEFINITION. NOP and SRESET (45_control.md R230, R231), and the completion of an illegal word (60_exceptions.md R269). -/

namespace Sys2Proof.Machine

/-- NOP (R230): complete with success. -/
def execNop (s : State) : Host.Outcome State Fault Refusal := .next s.completeSuccess

/-- SRESET (R231): the reset event. It happens within the CMD write, BUSY or not, and does not complete in the DONE = 1
sense. -/
def execSreset (s : State) : Host.Outcome State Fault Refusal := .next s.resetEvent

/-- The engine step of an illegal word (R269). -/
def execIllegal (s : State) : Host.Outcome State Fault Refusal := .next (s.completeError .illegalCommand)

end Sys2Proof.Machine
end

