-- ==== Sys2Proof/Machine/FrameCommands.lean ====
section
/-! DEFINITION. GEOM and DECODE (41_geometry.md R139, 44_decode.md R212). -/

namespace Sys2Proof.Machine

/-- GEOM (R139): look the format up, compute the geometry, install it as the context. A failure writes only STATUS
(R142). -/
def execGeom (s : State) : Host.Outcome State Fault Refusal :=
  let o := s.operandsFor .geom
  let c : Context := { fid := o.fid, w := o.width, h := o.height }
  match contextGeometry s.cfg c with
  | .error e => .next (s.completeError e)
  | .ok (_, g) => .next (s.installContext c g o.srcSize).completeSuccess

/-- DECODE (R212): NoGeometry without a context; one frame when its bytes are present; ShortRead when the source has ended
with fewer; else the step waits and changes nothing (70_reset_and_hazards.md R303). -/
def execDecode (s : State) : Host.Outcome State Fault Refusal :=
  match s.decodeAction (s.operandsFor .decode).ctx with
  | .fail e => .next (s.completeError e)
  | .frame d w h g =>
    let taken := s.srcTake g.raw
    let frame := decodeFrame d w h g taken.1
    .next ({ taken.2 with
      fb := taken.2.fb.filled frame.1 frame.2, status := taken.2.status.validated } : State).completeSuccess
  | .shortRead => .next ((s.srcTake s.fifo.length).2.completeError .shortRead)
  | .wait => .next s

end Sys2Proof.Machine
end

