-- ==== Sys2Proof/Machine/RegistryCommands.lean ====
section
/-! DEFINITION. LOOKUP and FINDNAME (40_registry.md R117, R118). -/

namespace Sys2Proof.Machine

/-- LOOKUP (R117): DESC0 and DESC1 of the latched id, or UnsupportedFormat. -/
def execLookup (s : State) : Host.Outcome State Fault Refusal :=
  match lookup s.cfg.registry (s.operandsFor .lookup).fid with
  | .error e => .next (s.completeError e)
  | .ok d => .next ({ s with desc0 := enc0 d, desc1 := enc1 d } : State).completeSuccess

/-- FINDNAME (R118): RESULT_ID of the latched text, or NoMatch. -/
def execFindname (s : State) : Host.Outcome State Fault Refusal :=
  match findByNameToken s.cfg.registry (s.operandsFor .findname).text with
  | .error e => .next (s.completeError e)
  | .ok fid => .next ({ s with resultId := fid } : State).completeSuccess

end Sys2Proof.Machine
end

