-- ==== Sys2Proof/Machine/Dispatch.lean ====
section
/-! DEFINITION. One arm per command (45_control.md R239, R231). -/

namespace Sys2Proof.Machine

def exec (i : Instr) (s : State) : Host.Outcome State Fault Refusal :=
  match i with
  | .nop => Sys2Proof.Machine.execNop s
  | .lookup => Sys2Proof.Machine.execLookup s
  | .findname => Sys2Proof.Machine.execFindname s
  | .geom => Sys2Proof.Machine.execGeom s
  | .decode => Sys2Proof.Machine.execDecode s
  | .sreset => Sys2Proof.Machine.execSreset s

end Sys2Proof.Machine
end

