-- ==== Sys2Proof/Machine/Engine.lean ====
section
/-! DEFINITION. The engine step (45_control.md R239). -/

namespace Sys2Proof.Machine

/-- The engine's turn (R239): nothing while BUSY = 0; else the latched word is decoded and run, an illegal word completes
with IllegalCommand. SRESET is never latched (R238), and R239 sends a latched 0x0F to its last case. -/
def State.engineStep (s : State) : Host.Outcome State Fault Refusal :=
  if s.status.busy then
    match s.latch with
    | none => .fault .noCommandInFlight
    | some l =>
      match Sys2Proof.decode l.op with
      | .error _ => execIllegal s
      | .ok i => if i = .sreset then execIllegal s else exec i s
  else .next s

end Sys2Proof.Machine
end

