-- ==== Sys2Proof/Machine/Transactions.lean ====
section
/-! DEFINITION. The host transactions (45_control.md R236 to R247). -/

namespace Sys2Proof.Machine

/-- The index of CMD (10_state.md R23). -/
def cmdIndex : Fin 64 := 0x01

/-- The index of STATUS (10_state.md R23). -/
def statusIndex : Fin 64 := 0x02

/-- A command request, the write of `v` to CMD (R238): SRESET is honoured always, any other word is dropped while BUSY = 1
and accepted otherwise. -/
def State.cmdRequest (v : Word) (s : State) : Host.Outcome State Fault Refusal :=
  if v = encode .sreset then execSreset s
  else if s.status.busy then .next { s with status := s.status.dropped }
  else .next (s.accept v)

/-- FB_RD (R243, R244): a byte inside the view that holds a value, else a fault of the host program: the run's mark is set,
the block is unchanged, the host gets no value. -/
def State.fbRead (p : Plane) (i : Nat) (s : State) : State :=
  if i < s.viewSize p then
    match s.fb.read p i with
    | some b => { s with ret := .byte b }
    | none => { s with ret := .none, faultMark := true }
  else { s with ret := .none, faultMark := true }

/-- NAME_WR (R240). -/
def State.nameWrite (i : Fin 256) (b : Byte) (s : State) : State :=
  { s with name := s.name.write (some 0#8) i.val b }

/-- SRC_FLUSH (R247): ignored while BUSY = 1; SRC_POS is not changed. -/
def State.srcFlush (s : State) : State := if s.status.busy then s else { s with fifo := [], eof := false }

/-- One host transaction (R235). A transaction that returns nothing leaves no value with the host (log entry 3). -/
def State.transact (t : Transaction) (s : State) : Host.Outcome State Fault Refusal :=
  match t with
  | .csrRd i => .next { s with ret := .word (s.csrRead i) }
  | .csrWr i v =>
    if i = cmdIndex then ({ s with ret := .none } : State).cmdRequest v
    else .next (({ s with ret := .none } : State).csrWrite i v)
  | .nameWr i b => .next (({ s with ret := .none } : State).nameWrite i b)
  | .nameRd i => .next { s with ret := .byte (s.nameByte i.val) }
  | .fbRd p i => .next (s.fbRead p i)
  | .srcPush b => .next { s with ret := .none, fifo := s.fifo ++ [b] }
  | .srcEof => .next { s with ret := .none, eof := true }
  | .srcFlush => .next ({ s with ret := .none } : State).srcFlush

/-- The host's turn: its next operation. A poll reads STATUS and goes on when the value read has BUSY = 0 (30_encoding.md
R87). A host with nothing left to do does nothing (70_reset_and_hazards.md R312). -/
def State.hostStep (s : State) : Host.Outcome State Fault Refusal :=
  match s.host with
  | [] => .next s
  | .tx t :: rest => ({ s with host := rest } : State).transact t
  | .poll :: rest =>
    if s.status.busy then .next { s with ret := .word (s.csrRead statusIndex) }
    else .next { s with host := rest, ret := .word (s.csrRead statusIndex) }

end Sys2Proof.Machine
end

