-- ==== Sys2Proof/Machine/Schedule.lean ====
section
/-! DEFINITION. Who moves next (20_memory.md R72, 70_reset_and_hazards.md R311) and that agent's step. -/

namespace Sys2Proof.Machine

/-- The in-flight command is a DECODE that waits for source bytes (70_reset_and_hazards.md R303). -/
def State.waiting (s : State) : Bool :=
  match s.latch with
  | none => false
  | some l =>
    match Sys2Proof.decode l.op with
    | .ok .decode => decide (s.decodeAction l.operands.ctx = .wait)
    | _ => false

/-- Who moves next: the first of the turns. With no turn listed, the engine if it has an effective step, else the host: a
weakly fair default (R311, log entry 2). -/
def State.nextAgent (s : State) : Agent :=
  match s.turns with
  | a :: _ => a
  | [] => if s.status.busy && !s.waiting then .engine else .host

/-- The state once the turn is taken off the list. -/
def State.turnTaken (s : State) : State := { s with turns := s.turns.tail }

/-- One atomic step of the agent that moves next (R235). -/
def State.agentStep (s : State) : Host.Outcome State Fault Refusal :=
  match s.nextAgent with
  | .engine => s.turnTaken.engineStep
  | .host => s.turnTaken.hostStep

end Sys2Proof.Machine
end

