-- ==== Sys2Proof/Machine/Step.lean ====
section
/-! DEFINITION. One step of the machine (45_control.md R235), and how a command word is placed to run next. -/

namespace Sys2Proof.Machine

/-- One step: a configuration that is not well-formed is refused (30_encoding.md R93), else the agent that moves next takes
one atomic step. -/
def step (s : State) : Host.Outcome State Fault Refusal :=
  if s.cfg.wf then s.agentStep else .refused .illFormedRegistry

/-- `s` with the command word `w` placed so that the very next step runs it. The block fetches no instruction (20_memory.md
R76): a command is the value of a CMD write, latched at accept, and its engine step runs it. So `w` is accepted as R238
says and the next turn is the engine's; SRESET, whose effect is within the CMD write itself, is left as the host's next
transaction (log entry 13). A word given with fewer than 64 bits is placed with zeros above, and of a longer one the low 64
bits: DESIGN CHOICE, log entry 23. -/
def State.withFetchWord (s : State) (nbits w : Nat) : State :=
  let v : Word := BitVec.ofNat 64 (w % 2 ^ nbits)
  if v = encode .sreset then
    { s with host := .tx (.csrWr cmdIndex v) :: s.host, turns := .host :: s.turns }
  else { s.accept v with turns := .engine :: s.turns }

end Sys2Proof.Machine
end

