-- ==== Sys2Proof/Machine/HostProgram.lean ====
section
/-! DEFINITION. The lines of a host program, each as its parts, and the operations they stand for (30_encoding.md R86, R87). -/

namespace Sys2Proof.Machine

/-- The register names of 10_state.md R23. -/
inductive RegName where
  | id
  | cmd
  | status
  | fmtId
  | width
  | height
  | srcSize
  | nameLen
  | resultId
  | desc0
  | desc1
  | ctxInfo
  | gPix
  | gY
  | gCsrc
  | gCout
  | gR8
  | gRaw
  | srcPos
  | srcStat
  deriving DecidableEq, Repr

/-- The index of a register (10_state.md R23). -/
def regIndex : RegName → Fin 64
  | .id => 0x00
  | .cmd => 0x01
  | .status => 0x02
  | .fmtId => 0x03
  | .width => 0x04
  | .height => 0x05
  | .srcSize => 0x06
  | .nameLen => 0x07
  | .resultId => 0x08
  | .desc0 => 0x09
  | .desc1 => 0x0A
  | .ctxInfo => 0x0B
  | .gPix => 0x0C
  | .gY => 0x0D
  | .gCsrc => 0x0E
  | .gCout => 0x0F
  | .gR8 => 0x10
  | .gRaw => 0x11
  | .srcPos => 0x12
  | .srcStat => 0x13

/-- The lines of a host program (R86) and its pseudo-instructions (R87). -/
inductive Line where
  | wr (r : RegName) (v : Word)
  | rd (r : RegName)
  | cmd (i : Instr)
  | nwr (i : Fin 256) (b : Byte)
  | nrd (i : Fin 256)
  | fbrd (p : Plane) (i : Nat)
  | push (bs : List Byte)
  | eof
  | flush
  | name (t : List Byte)
  | poll
  | run (i : Instr)
  | cfg (fid w h : Word)
  | cmdw (v : Word)
  deriving DecidableEq, Repr

/-- The NAME_WR transactions of the pseudo `name` from buffer index `i` on. -/
def nameWrites : Nat → List Byte → List HostOp
  | _, [] => []
  | i, b :: bs => .tx (.nameWr (Fin.ofNat 256 i) b) :: nameWrites (i + 1) bs

/-- The operations a line stands for; none where the line cannot be formed, a name of more than 256 bytes (R86, R87). -/
def expandLine : Line → Option (List HostOp)
  | .wr r v => some [.tx (.csrWr (regIndex r) v)]
  | .rd r => some [.tx (.csrRd (regIndex r))]
  | .cmd i => some [.tx (.csrWr cmdIndex (encode i))]
  | .nwr i b => some [.tx (.nameWr i b)]
  | .nrd i => some [.tx (.nameRd i)]
  | .fbrd p i => some [.tx (.fbRd p i)]
  | .push bs => some (bs.map (fun b => .tx (.srcPush b)))
  | .eof => some [.tx .srcEof]
  | .flush => some [.tx .srcFlush]
  | .name t =>
    if t.length ≤ nameMax then
      some (nameWrites 0 t ++ [.tx (.csrWr (regIndex .nameLen) (BitVec.ofNat 64 t.length))])
    else none
  | .poll => some [.poll]
  | .run i => some [.tx (.csrWr cmdIndex (encode i)), .poll]
  | .cfg fid w h =>
    some [.tx (.csrWr (regIndex .fmtId) fid), .tx (.csrWr (regIndex .width) w), .tx (.csrWr (regIndex .height) h)]
  | .cmdw v => some [.tx (.csrWr cmdIndex v)]

/-- The operations of a program, line by line. -/
def expandProgram : List Line → Option (List HostOp)
  | [] => some []
  | l :: ls =>
    match expandLine l, expandProgram ls with
    | some a, some b => some (a ++ b)
    | _, _ => none

end Sys2Proof.Machine
end

