-- ==== Sys2Proof/Machine/Assembler.lean ====
section
/-! DEFINITION. The characters of a host program: its lines read as `Line` (30_encoding.md R86, R87). What the rules leave open
about spelling is log entry 14. -/

namespace Sys2Proof.Machine

/-- The pieces of a line. -/
inductive Token where
  | word (w : List Char)
  | text (t : List Char)
  | comma
  deriving DecidableEq, Repr

/-- Where the reading of a line stands: between pieces, inside a word, or inside a quoted text. The letters read so far are
held last one first. -/
inductive LexMode where
  | between
  | word (w : List Char)
  | text (t : List Char)
  deriving DecidableEq, Repr

/-- The pieces of one line. Blanks separate, `;` starts a comment; inside a quoted text every character counts. None for a
text that does not end. -/
def lexLine : LexMode → List Char → Option (List Token)
  | .text _, [] => none
  | .text t, c :: cs => if c = '"' then (lexLine .between cs).map (.text t.reverse :: ·) else lexLine (.text (c :: t)) cs
  | .between, [] => some []
  | .word w, [] => some [.word w.reverse]
  | .between, c :: cs =>
    if c = ';' then some []
    else if c = ' ' ∨ c = '\t' then lexLine .between cs
    else if c = ',' then (lexLine .between cs).map (.comma :: ·)
    else if c = '"' then lexLine (.text []) cs
    else lexLine (.word [c]) cs
  | .word w, c :: cs =>
    if c = ';' then some [.word w.reverse]
    else if c = ' ' ∨ c = '\t' then (lexLine .between cs).map (.word w.reverse :: ·)
    else if c = ',' then (lexLine .between cs).map (fun ts => .word w.reverse :: .comma :: ts)
    else if c = '"' then (lexLine (.text []) cs).map (.word w.reverse :: ·)
    else lexLine (.word (c :: w)) cs

/-- The value of a digit in a base of at most 16. Hexadecimal digits have either case: DESIGN CHOICE, log entry 14. -/
def digitOf (base : Nat) (c : Char) : Option Nat :=
  let n := c.toNat
  let v := if 48 ≤ n ∧ n ≤ 57 then n - 48 else if 65 ≤ n ∧ n ≤ 70 then n - 55 else if 97 ≤ n ∧ n ≤ 102 then n - 87 else 16
  if v < base then some v else none

/-- The number that digits stand for, the highest first, after the number `n` read so far. One `_` may stand between two
digits, as 95_test_vectors.md L2.8 writes a number; R86 is silent: DESIGN CHOICE, log entry 14. -/
def digits (base : Nat) : Nat → List Char → Option Nat
  | n, [] => some n
  | n, '_' :: c :: cs =>
    match digitOf base c with
    | some d => digits base (n * base + d) cs
    | none => none
  | n, c :: cs =>
    match digitOf base c with
    | some d => digits base (n * base + d) cs
    | none => none

/-- A number: decimal, or hexadecimal after `0x` (R86). It begins with a digit. -/
def numberOf : List Char → Option Nat
  | [] => none
  | '_' :: _ => none
  | ['0', 'x'] => none
  | '0' :: 'x' :: '_' :: _ => none
  | '0' :: 'x' :: cs => digits 16 0 cs
  | cs => digits 10 0 cs

/-- A 64-bit value; none for a number that does not fit. -/
def wordOf (w : List Char) : Option Word :=
  match numberOf w with
  | some n => if n < 2 ^ 64 then some (BitVec.ofNat 64 n) else none
  | none => none

/-- A byte; none for a number that does not fit. -/
def byteOf (w : List Char) : Option Byte :=
  match numberOf w with
  | some n => if n < 256 then some (BitVec.ofNat 8 n) else none
  | none => none

/-- An index of the NAME buffer; none for a number out of range (45_control.md R235). -/
def nameIndexOf (w : List Char) : Option (Fin 256) :=
  match numberOf w with
  | some n => if h : n < 256 then some ⟨n, h⟩ else none
  | none => none

/-- The register names (10_state.md R23). -/
def registerNames : List (List Char × RegName) :=
  [(['I', 'D'], .id), (['C', 'M', 'D'], .cmd), (['S', 'T', 'A', 'T', 'U', 'S'], .status),
    (['F', 'M', 'T', '_', 'I', 'D'], .fmtId), (['W', 'I', 'D', 'T', 'H'], .width)] ++
  [(['H', 'E', 'I', 'G', 'H', 'T'], .height), (['S', 'R', 'C', '_', 'S', 'I', 'Z', 'E'], .srcSize),
    (['N', 'A', 'M', 'E', '_', 'L', 'E', 'N'], .nameLen), (['R', 'E', 'S', 'U', 'L', 'T', '_', 'I', 'D'], .resultId)] ++
  [(['D', 'E', 'S', 'C', '0'], .desc0), (['D', 'E', 'S', 'C', '1'], .desc1), (['C', 'T', 'X', 'I', 'N', 'F', 'O'], .ctxInfo),
    (['G', '_', 'P', 'I', 'X'], .gPix), (['G', '_', 'Y'], .gY), (['G', '_', 'C', 'S', 'R', 'C'], .gCsrc)] ++
  [(['G', '_', 'C', 'O', 'U', 'T'], .gCout), (['G', '_', 'R', '8'], .gR8), (['G', '_', 'R', 'A', 'W'], .gRaw),
    (['S', 'R', 'C', '_', 'P', 'O', 'S'], .srcPos), (['S', 'R', 'C', '_', 'S', 'T', 'A', 'T'], .srcStat)]

/-- The command mnemonics (30_encoding.md R81). -/
def mnemonics : List (List Char × Instr) :=
  [(['N', 'O', 'P'], .nop), (['L', 'O', 'O', 'K', 'U', 'P'], .lookup), (['F', 'I', 'N', 'D', 'N', 'A', 'M', 'E'], .findname),
    (['G', 'E', 'O', 'M'], .geom), (['D', 'E', 'C', 'O', 'D', 'E'], .decode), (['S', 'R', 'E', 'S', 'E', 'T'], .sreset)]

/-- The plane names (R86). -/
def planeNames : List (List Char × Plane) := [(['R', 'A', 'W'], .raw), (['Y'], .y), (['C', 'B'], .cb), (['C', 'R'], .cr)]

/-- What a name stands for. -/
def named {α : Type} : List (List Char × α) → List Char → Option α
  | [], _ => none
  | e :: es, w => if e.1 = w then some e.2 else named es w

/-- The bytes of a list of words. -/
def bytesOf : List Token → Option (List Byte)
  | [] => some []
  | .word w :: ts =>
    match byteOf w, bytesOf ts with
    | some b, some bs => some (b :: bs)
    | _, _ => none
  | .text _ :: _ => none
  | .comma :: _ => none

/-- The bytes of an ASCII text (R87). -/
def asciiOf : List Char → Option (List Byte)
  | [] => some []
  | c :: cs =>
    match asciiOf cs with
    | some bs => if c.toNat < 128 then some (BitVec.ofNat 8 c.toNat :: bs) else none
    | none => none

/-- Read a line from its pieces, by its first word and the shape of its arguments (R86, R87). R86 shows `push b0 b1 ...` and
does not say whether a `push` may have no byte: here it may, and stands for no transaction. A register is given by its name
only, and 10_state.md R23 gives the reserved registers none, so no `rd` or `wr` line reaches them; R86 does not say whether
an index may stand for a name. DESIGN CHOICE, log entry 14. -/
def lineOf (ts : List Token) : Option Line :=
  match ts with
  | [.word ['w', 'r'], .word r, .comma, .word v] =>
    match named registerNames r, wordOf v with
    | some r, some v => some (.wr r v)
    | _, _ => none
  | [.word ['r', 'd'], .word r] => (named registerNames r).map .rd
  | [.word ['c', 'm', 'd'], .word m] => (named mnemonics m).map .cmd
  | [.word ['n', 'w', 'r'], .word i, .comma, .word b] =>
    match nameIndexOf i, byteOf b with
    | some i, some b => some (.nwr i b)
    | _, _ => none
  | [.word ['n', 'r', 'd'], .word i] => (nameIndexOf i).map .nrd
  | [.word ['f', 'b', 'r', 'd'], .word p, .comma, .word i] =>
    match named planeNames p, numberOf i with
    | some p, some i => some (.fbrd p i)
    | _, _ => none
  | .word ['p', 'u', 's', 'h'] :: bs => (bytesOf bs).map .push
  | [.word ['e', 'o', 'f']] => some .eof
  | [.word ['f', 'l', 'u', 's', 'h']] => some .flush
  | [.word ['n', 'a', 'm', 'e'], .text t] => (asciiOf t).map .name
  | [.word ['p', 'o', 'l', 'l']] => some .poll
  | [.word ['r', 'u', 'n'], .word m] => (named mnemonics m).map .run
  | [.word ['c', 'f', 'g'], .word f, .comma, .word w, .comma, .word h] =>
    match wordOf f, wordOf w, wordOf h with
    | some f, some w, some h => some (.cfg f w h)
    | _, _, _ => none
  | [.word ['c', 'm', 'd', 'w'], .word v] => (wordOf v).map .cmdw
  | _ => none

/-- Cut a program into lines. -/
def linesOf : List Char → List (List Char)
  | [] => [[]]
  | c :: cs =>
    match linesOf cs with
    | [] => [[]]
    | l :: ls => if c = '\n' then [] :: l :: ls else (c :: l) :: ls

/-- Read the lines of a program; a line with nothing but blanks and a comment stands for nothing. -/
def readLines : List (List Char) → Option (List Line)
  | [] => some []
  | l :: ls =>
    match lexLine .between l, readLines ls with
    | some [], some rest => some rest
    | some ts, some rest => (lineOf ts).map (· :: rest)
    | _, _ => none

/-- The host operations of a program text; none where a line cannot be read or formed (R86, R87). -/
def assemble (text : List Char) : Option (List HostOp) :=
  match readLines (linesOf text) with
  | some ls => expandProgram ls
  | none => none

end Sys2Proof.Machine
end

