-- ==== Sys2Proof/Safety.lean ====
section
/-! DEFINITION. The terms statements use: the block's part of a state, the invariant of the machine, a safe run, and what is
observed at the end of a run. -/

namespace Sys2Proof.Machine

/-- The block's part of a state (10_state.md R20): the fields that are the run's or the model's own are set to their reset
values. -/
def State.block (s : State) : State :=
  { s with faultMark := false, cfg := defaultConfig, host := [], turns := [], ret := .none }

/-- Byte `i` of a plane as a host may read it: none beyond the view and for an `undef` byte (45_control.md R243). -/
def State.viewByte (s : State) (p : Plane) (i : Nat) : Option Byte :=
  if i < s.viewSize p then s.fb.read p i else none

/-- What the registers and the stores hold for the current context (10_state.md R40, R41, R44, R32). -/
def State.ContextOk (s : State) : Prop :=
  match s.ctx with
  | none =>
    s.ctxInfo = 0#64 ∧ s.gPix = 0#64 ∧ s.gY = 0#64 ∧ s.gCsrc = 0#64 ∧ s.gCout = 0#64 ∧ s.gR8 = 0#64 ∧ s.gRaw = 0#64 ∧
      (∀ p, (s.fb.plane p).size = 0) ∧ s.status.warnMb = false ∧ s.status.warnFsize = false
  | some c =>
    ∃ d g, contextGeometry s.cfg c = .ok (d, g) ∧ s.ctxInfo = c.info ∧ s.gPix = BitVec.ofNat 64 g.pix ∧
      s.gY = BitVec.ofNat 64 g.y ∧ s.gCsrc = BitVec.ofNat 64 g.csrc ∧ s.gCout = BitVec.ofNat 64 g.cout ∧
      s.gR8 = BitVec.ofNat 64 g.r8 ∧ s.gRaw = BitVec.ofNat 64 g.raw ∧ (∀ p, (s.fb.plane p).size = g.storeSize p) ∧
      s.status.warnMb = g.wmb

/-- What the latch holds while a command is in flight (10_state.md R48, R33, 44_decode.md R216): a word that is not SRESET,
whose OPCODE is LASTOP; a text of the latched length; for a DECODE the current context, and, if there is one, a buffer that
is all `undef` with VALID = 0. -/
def State.LatchOk (s : State) (l : Latch) : Prop :=
  l.op ≠ encode .sreset ∧ s.status.lastop = opcodeField l.op ∧
    l.operands.text.length = l.operands.nameLen.toNat ∧ l.operands.nameLen.toNat ≤ nameMax ∧
    (decode l.op = .ok .decode → l.operands.ctx = s.ctx ∧
      (s.ctx ≠ none → s.status.valid = false ∧ ∀ p, (s.fb.plane p).cells = []))

/-- The invariant every step keeps. -/
structure Inv (s : State) : Prop where
  /-- `REGISTRY` holds only well-formed descriptors (30_encoding.md R93). -/
  cfgWf : s.cfg.wf = true
  /-- While BUSY = 1 exactly one command is in flight (10_state.md R27, R48). -/
  busyLatch : s.status.busy = s.latch.isSome
  /-- STATUS.CTX = 1 exactly when a context exists (R30). -/
  ctxBit : s.status.ctx = s.ctx.isSome
  /-- ERR = 1 exactly when ERRCODE ≠ 0 (R26). -/
  errBit : s.status.err = decide (s.status.errcode ≠ 0#4)
  /-- Codes 9 to 15 are never produced (60_exceptions.md R260). -/
  errRange : s.status.errcode.toNat ≤ 8
  /-- STATUS while BUSY = 1 shows DONE = 0 and no error (45_control.md R236). -/
  busyStatus : s.status.busy = true → s.status.done = false ∧ s.status.errcode = 0#4
  /-- NAME_LEN is WARL 0 to 256 (R37). -/
  nameLen : s.nameLen.toNat ≤ nameMax
  /-- The NAME buffer is 256 bytes in its canonical form (R46). -/
  nameWf : Memory.wf (some 0#8) nameMax s.name
  /-- A plane holds no byte beyond its store, in its canonical form (R44). -/
  planesWf : ∀ p, Memory.wf none (s.fb.plane p).size (s.fb.plane p).cells
  context : s.ContextOk
  /-- VALID = 1 promises every byte of every view (R29). -/
  validViews : s.status.valid = true → s.ctx ≠ none ∧ ∀ p i, i < s.viewSize p → s.fb.read p i ≠ none
  latchOk : ∀ l, s.latch = some l → s.LatchOk l

/-- A run is safe so far: the host has read no byte it may not read (45_control.md R244). -/
def State.Safe (s : State) : Prop := s.faultMark = false

/-- The host's duty for a read of the frame buffer (45_control.md R248): VALID = 1 and an index below the view size. -/
def State.MayRead (s : State) (p : Plane) (i : Nat) : Prop := s.status.valid = true ∧ i < s.viewSize p

/-- The end of a run (70_reset_and_hazards.md R312): the host has nothing left to do and BUSY = 0. -/
def State.Ended (s : State) : Prop := s.host = [] ∧ s.status.busy = false

/-- What is observed at the end of a run (70_reset_and_hazards.md R312). -/
structure Observation where
  regs : List Word
  name : List Byte
  views : List (List (Option Byte))
  fifo : List Byte
  eof : Bool
  faultMark : Bool
  deriving DecidableEq, Repr

/-- The observation of a state (R312): the register file, the NAME buffer, the frame-buffer views, the source FIFO and the
fault mark. -/
def State.observe (s : State) : Observation :=
  { regs := (List.finRange 64).map (fun i => s.csrRead i), name := s.nameText nameMax,
    views := [Plane.raw, Plane.y, Plane.cb, Plane.cr].map
      (fun p => (List.range (s.viewSize p)).map (fun i => s.viewByte p i)),
    fifo := s.fifo, eof := s.eof, faultMark := s.faultMark }

/-- The conditions (1) to (8) on a descriptor, written out (30_encoding.md R93); (9) is the type of an id. -/
structure DescriptorConditions (d : Descriptor) : Prop where
  depthPacking : (d.depth = .eight ↔ d.pack = .pnone) ∧ (d.depth = .ten ↔ (d.pack = .loose ∨ d.pack = .compact))
  planarSemi : d.fam = .planar ∨ d.fam = .semi → d.subs = .s420 ∨ d.subs = .s422 ∨ d.subs = .s444
  packed : d.fam = .packed422 → d.subs = .s422 ∧ (d.yoff.toNat = 0 ∨ d.yoff.toNat = 1) ∧
    ∀ k : Nat, (k = d.yoff.toNat ∨ k = d.yoff.toNat + 2 ∨ k = d.cboff.toNat ∨ k = d.croff.toNat) ↔ k < 4
  tiled : d.fam = .tiled → d.subs = .s420
  mixed : d.fam = .mixed → d.subs = .s422 ∨ d.subs = .s444
  mono : d.fam = .mono → d.subs = .snone
  tileOnly : d.fam ≠ .tiled → d.tw.toNat = 0 ∧ d.th.toNat = 0
  offsetsOnly : d.fam ≠ .packed422 → d.yoff.toNat = 0 ∧ d.cboff.toNat = 0 ∧ d.croff.toNat = 0
  tokens : ∀ k ∈ d.toks, 1 ≤ k.length ∧ k.length ≤ 256 ∧ ∀ c ∈ k, ¬ (0x41 ≤ c.toNat ∧ c.toNat ≤ 0x5A)

/-- Token `k` of entry `fid` matches the folded text `t` (40_registry.md R116, the set C). -/
def TokenMatches (r : Registry) (t : List Byte) (k : List Byte) (fid : BitVec 16) : Prop :=
  ∃ d, (fid, d) ∈ r ∧ k ∈ d.toks ∧ 1 ≤ k.length ∧ ∃ p, slice t p (p + k.length) = k

/-- `a` comes before `b` in lexicographic order: at the first place where they differ its byte is smaller (R116). -/
def LexBefore (a b : List Byte) : Prop :=
  ∃ n x y, a.take n = b.take n ∧ a[n]? = some x ∧ b[n]? = some y ∧ x.toNat < y.toNat

/-- A size is forbidden by parity (41_geometry.md R134). -/
def ParityForbidden (w h : Nat) (d : Descriptor) : Prop :=
  ((d.subs = .s420 ∨ d.subs = .s422) ∧ w % 2 = 1) ∨ (d.subs = .s420 ∧ h % 2 = 1) ∨
    (d.fam = .mixed ∧ (w % 2 = 1 ∨ h % 2 = 1))

/-- A tile shape is bad for a size (41_geometry.md R133). -/
def TileForbidden (w h : Nat) (d : Descriptor) : Prop :=
  d.fam = .tiled ∧
    (d.tw = 0#16 ∨ d.th = 0#16 ∨ ¬ d.tw.toNat ∣ w ∨ ¬ d.th.toNat ∣ h ∨ ¬ d.th.toNat ∣ h / 2)

/-- The states a run can reach from `s`. -/
inductive Reaches (s : State) : State → Prop where
  | refl : Reaches s s
  | step (t u : State) : Reaches s t → Sys2Proof.Machine.step t = .next u → Reaches s u

end Sys2Proof.Machine
end

