-- ==== Sys2Proof/Certificates/Slice0/Obligations.lean ====
section
/-! DEFINITION. The statements about this model, for the provers. Each docstring names the rule of spec/ it formalises. -/

open Sys2Proof Sys2Proof.Machine

/-! ### The command word -/

/-- 30_encoding.md R81: a word selects a command exactly when it is that command's one encoding, one of the six values of the
table; so decode of encode is the command, and no other word decodes. -/
def Obligations.WordsDecodeExactlyToTheirCommand : Prop :=
  (∀ (v : Word) (i : Instr), decode v = .ok i ↔ v = encode i) ∧
    [Instr.nop, .lookup, .findname, .geom, .decode, .sreset].map (fun i => (encode i).toNat) =
      [0x00, 0x01, 0x02, 0x03, 0x04, 0x0F]

/-- 30_encoding.md R81, R82: the six words of the opcode map, written out, and three illegal ones. -/
def Obligations.OpcodeMapWords : Prop :=
  decode 0x0000000000000000#64 = .ok .nop ∧ decode 0x0000000000000001#64 = .ok .lookup ∧
    decode 0x0000000000000002#64 = .ok .findname ∧ decode 0x0000000000000003#64 = .ok .geom ∧
    decode 0x0000000000000004#64 = .ok .decode ∧ decode 0x000000000000000F#64 = .ok .sreset ∧
    decode 0x0000000000000005#64 = .error (.reservedOpcode 0x05#8) ∧
    decode 0x0000000000000104#64 = .error .reservedBits ∧ decode 0x000000000000010F#64 = .error .reservedBits

/-- 30_encoding.md R82: which words are illegal; and an illegal word written to an idle block is accepted, and the next
engine step completes it with IllegalCommand (7), with no effect beyond STATUS (and the latch, empty again), LASTOP
recording v[7:0]; 0x0F with reserved bits set is one of them, and is no reset. -/
def Obligations.IllegalWordCompletesWithIllegalCommand : Prop :=
  (∀ v : Word, (∃ e, decode v = .error e) ↔
    (v.toNat / 256 ≠ 0 ∨ (0x05 ≤ v.toNat % 256 ∧ v.toNat % 256 ≤ 0x0E) ∨ 0x10 ≤ v.toNat % 256)) ∧
  ∀ (s : State) (v : Word), s.status.busy = false → (∃ e, decode v = .error e) →
    State.transact (.csrWr cmdIndex v) s = .next (({ s with ret := .none } : State).accept v) ∧
    (({ s with ret := .none } : State).accept v).engineStep = .next { s with
      ret := .none, latch := none,
      status := { s.status with busy := false, done := true, err := true, errcode := 7#4, ovr := false,
                                lastop := v.extractLsb' 0 8 } }

/-! ### Steps -/

/-- 45_control.md R239, R231: a step runs the decoded command. On the engine's turn with a command in flight, step is exec of
the latched word's command in the state whose turn is taken; SRESET runs on the host's turn, within its CMD write. Around
exec, step only takes the turn (and the write) off the list. -/
def Obligations.StepRunsTheDecodedCommand : Prop :=
  (∀ (s : State) (l : Latch) (i : Instr), s.cfg.wf = true → s.nextAgent = .engine → s.status.busy = true →
    s.latch = some l → decode l.op = .ok i → i ≠ .sreset →
      step s = exec i { s with turns := s.turns.tail }) ∧
  (∀ (s : State) (rest : List HostOp), s.cfg.wf = true → s.nextAgent = .host →
    s.host = .tx (.csrWr cmdIndex (encode .sreset)) :: rest →
      step s = exec .sreset { s with turns := s.turns.tail, host := rest, ret := .none })

/-- A command word placed to run next is the command of the very next step. How a word is placed is the model's own (log entry
13); it goes the way of 45_control.md R238, R239 and R231. -/
def Obligations.PlacedWordIsTheNextCommand : Prop :=
  ∀ (s : State) (v : Word),
    decodeTableWord 64 v.toNat = (decode v).toOption ∧
    ∀ i, decode v = .ok i → s.cfg.wf = true →
      (i ≠ .sreset → step (s.withFetchWord 64 v.toNat) = exec i (s.accept v)) ∧
      (i = .sreset → step (s.withFetchWord 64 v.toNat) = exec .sreset { s with ret := .none })

/-- 45_control.md R235, 20_memory.md R72: on the host's turn a step is the host's next transaction, one at a time in issue
order. -/
def Obligations.HostTurnTakesTheNextTransaction : Prop :=
  ∀ (s : State) (t : Transaction) (rest : List HostOp), s.cfg.wf = true → s.nextAgent = .host →
    s.host = .tx t :: rest → step s = State.transact t { s with turns := s.turns.tail, host := rest }

/-- 30_encoding.md R93: a registry is refused before any step exactly when a descriptor breaks one of the conditions (1) to (8),
spelled out in `DescriptorConditions`, or one id stands twice (REGISTRY is a finite map, 00_scope.md R7); nothing else is
refused. That the check stands in step, and that a doubled id is refused, is the model's, log entry 10. -/
def Obligations.IllFormedRegistryIsRefused : Prop :=
  ∀ s : State, (step s = .refused .illFormedRegistry ↔
      ((∃ e ∈ s.cfg.registry, ¬ DescriptorConditions e.2) ∨ ¬ (s.cfg.registry.map Prod.fst).Nodup)) ∧
    ∀ r, step s = .refused r → r = .illFormedRegistry

/-- 45_control.md R239: with a command in flight, each command except a waiting DECODE completes in this engine step (BUSY = 0,
DONE = 1, latch empty); a DECODE step that waits changes nothing. Three points are the model's choice and no rule's: while
BUSY = 0, where R239 gives no engine step, the engine's turn answers the unchanged state (log entry 21); and over all
states, those no run reaches too, a latched context without a geometry (log entry 7) and a latched 0x0F (log entry 16)
complete as well. -/
def Obligations.EngineStepCompletesOrWaits : Prop :=
  (∀ s : State, s.status.busy = false → s.engineStep = .next s) ∧
  ∀ (s : State) (l : Latch), s.status.busy = true → s.latch = some l →
    (decode l.op = .ok .decode ∧ s.waiting = true ∧ s.engineStep = .next s) ∨
    (s.waiting = false ∧ ∃ t, s.engineStep = .next t ∧ t.status.busy = false ∧ t.status.done = true ∧ t.latch = none)

/-! ### Reset and control -/

/-- 10_state.md R51: every register, buffer, plane, the FIFO, the context and the latch at their reset values. -/
def Obligations.ResetLeavesEveryResetValue : Prop :=
  State.reset.csrRead 0x00 = idWord State.reset.cfg.registry ∧
    (∀ i : Fin 64, i ≠ 0x00 → State.reset.csrRead i = 0#64) ∧
    State.reset.status = { busy := false, done := false, err := false, valid := false, ctx := false, ovr := false,
                           warnMb := false, warnFsize := false, errcode := 0#4, lastop := 0#8 } ∧
    State.reset.ctx = none ∧
    (∀ p : Plane, (State.reset.fb.plane p).size = 0 ∧ State.reset.viewSize p = 0 ∧
      ∀ i, State.reset.fb.read p i = none) ∧
    (∀ i : Nat, State.reset.nameByte i = 0#8) ∧
    State.reset.fifo = [] ∧ State.reset.eof = false ∧ State.reset.latch = none

/-- 70_reset_and_hazards.md R290: SRESET, in every state, sets every piece of the block's state to its reset value in one
step; the parameters and the host-fault mark stay. -/
def Obligations.SresetIsTheResetEvent : Prop :=
  ∀ s : State, ∃ t, exec .sreset s = .next t ∧ t.block = State.reset.block ∧ t.cfg = s.cfg ∧
    t.faultMark = s.faultMark

/-- 45_control.md R230: NOP completes with success in every state and changes nothing else; run on an idle block it leaves
ERR, ERRCODE and OVR clear; written while BUSY = 1 it is dropped and sets OVR. -/
def Obligations.NopOnlyCompletes : Prop :=
  encode .nop = 0#64 ∧
  (∀ s : State, exec .nop s = .next { s with
    status := { s.status with busy := false, done := true, err := false, errcode := 0#4 }, latch := none }) ∧
  (∀ s : State, ∃ t, exec .nop (s.accept (encode .nop)) = .next t ∧ t.status.err = false ∧ t.status.errcode = 0#4 ∧
    t.status.ovr = false ∧ t.status.done = true) ∧
  ∀ s : State, s.status.busy = true → State.transact (.csrWr cmdIndex (encode .nop)) s =
    .next { s with ret := .none, status := { s.status with ovr := true } }

/-! ### Accept and the latch -/

/-- 45_control.md R238: a write of v to CMD. SRESET is honoured whether BUSY or not; any other word is dropped while BUSY = 1
and only sets OVR; else it is accepted: BUSY, DONE, ERR, ERRCODE, OVR, LASTOP and the latch are written, the latch with the
operands of 10_state.md R48, and a DECODE with a context clears VALID and makes every byte undef (44_decode.md R212, R216).
Nothing else changes, and the transaction returns nothing to the host. -/
def Obligations.CommandRequestAcceptsDropsOrResets : Prop :=
  ∀ (s : State) (v : Word),
    (v = 0x0F#64 → State.transact (.csrWr cmdIndex v) s = exec .sreset { s with ret := .none }) ∧
    (v ≠ 0x0F#64 → s.status.busy = true → State.transact (.csrWr cmdIndex v) s =
      .next { s with ret := .none, status := { s.status with ovr := true } }) ∧
    (v ≠ 0x0F#64 → s.status.busy = false → ∃ o fb,
      State.transact (.csrWr cmdIndex v) s = .next { s with
        ret := .none, fb := fb, latch := some { op := v, operands := o },
        status := { s.status with
          busy := true, done := false, err := false, errcode := 0#4, ovr := false, lastop := v.extractLsb' 0 8,
          valid := s.status.valid && !(decide (v = 0x04#64) && decide (s.ctx ≠ none)) } } ∧
      (v = 0x01#64 → o.fid = s.fmtId) ∧
      (v = 0x02#64 → o.nameLen = s.nameLen ∧ o.text = (List.range s.nameLen.toNat).map (fun j => s.nameByte j)) ∧
      (v = 0x03#64 → o.fid = s.fmtId ∧ o.width = s.width ∧ o.height = s.height ∧ o.srcSize = s.srcSize) ∧
      (v = 0x04#64 → o.ctx = s.ctx) ∧
      (v = 0x04#64 → s.ctx ≠ none → ∀ p, (fb.plane p).size = (s.fb.plane p).size ∧ ∀ i, fb.read p i = none) ∧
      (¬ (v = 0x04#64 ∧ s.ctx ≠ none) → fb = s.fb))

/-- 10_state.md R48: what each command latches at accept; of the host's transactions only a CMD write touches the latch (a
completion and SRESET empty it); the latch
is empty when BUSY = 0 (of the states the invariant admits). -/
def Obligations.LatchHoldsTheOperandsOfTheAccept : Prop :=
  (∀ s : State, s.status.busy = false →
    (∃ t o, State.transact (.csrWr cmdIndex (encode .lookup)) s = .next t ∧ t.latch = some ⟨encode .lookup, o⟩ ∧
      o.fid = s.fmtId) ∧
    (∃ t o, State.transact (.csrWr cmdIndex (encode .findname)) s = .next t ∧ t.latch = some ⟨encode .findname, o⟩ ∧
      o.nameLen = s.nameLen ∧ o.text = (List.range s.nameLen.toNat).map (fun j => s.nameByte j)) ∧
    (∃ t o, State.transact (.csrWr cmdIndex (encode .geom)) s = .next t ∧ t.latch = some ⟨encode .geom, o⟩ ∧
      o.fid = s.fmtId ∧ o.width = s.width ∧ o.height = s.height ∧ o.srcSize = s.srcSize) ∧
    (∃ t o, State.transact (.csrWr cmdIndex (encode .decode)) s = .next t ∧ t.latch = some ⟨encode .decode, o⟩ ∧
      o.ctx = s.ctx)) ∧
  (∀ (s s' : State) (t : Transaction), (∀ v, t ≠ .csrWr cmdIndex v) → State.transact t s = .next s' →
    s'.latch = s.latch) ∧
  ∀ s : State, Inv s → s.status.busy = false → s.latch = none

/-- 70_reset_and_hazards.md R302, 10_state.md R48: while a command is in flight, writing an operand register or the NAME
buffer does not change what its engine step does: the write and the step commute. -/
def Obligations.OperandWritesCommuteWithTheInFlightCommand : Prop :=
  ∀ (s t : State) (l : Latch) (i : Instr), s.latch = some l → i ≠ .sreset → exec i s = .next t →
    (∀ (r : Fin 64) (v : Word), exec i (s.csrWrite r v) = .next (t.csrWrite r v)) ∧
    ∀ (k : Fin 256) (b : Byte), exec i (s.nameWrite k b) = .next (t.nameWrite k b)

/-! ### Registers -/

/-- 10_state.md R26: the STATUS word, each field at its bits. -/
def Obligations.StatusWordHasItsFields : Prop :=
  ∀ st : Status, st.word.toNat =
    st.busy.toNat + 2 * st.done.toNat + 4 * st.err.toNat + 8 * st.valid.toNat + 16 * st.ctx.toNat + 32 * st.ovr.toNat +
      64 * st.warnMb.toNat + 128 * st.warnFsize.toNat + 256 * st.errcode.toNat + 4096 * st.lastop.toNat

/-- 45_control.md R236, 10_state.md R43: a register read returns the register: CMD and the reserved indices read 0, SRC_STAT is
the live view of the FIFO, every other register its stored value; the read changes nothing but what the host holds; and
STATUS while BUSY = 1 shows DONE = 0 and ERR = 0 (in the states of the invariant). -/
def Obligations.RegisterReadReturnsTheRegister : Prop :=
  (∀ (s : State) (i : Fin 64), State.transact (.csrRd i) s = .next { s with ret := .word (s.csrRead i) }) ∧
  (∀ s : State, Inv s → s.status.busy = true → s.status.done = false ∧ s.status.err = false) ∧
  ∀ s : State,
    s.csrRead 0x00 = idWord s.cfg.registry ∧ s.csrRead 0x01 = 0#64 ∧ s.csrRead 0x02 = s.status.word ∧
    (s.csrRead 0x03).toNat = s.fmtId.toNat ∧ (s.csrRead 0x04).toNat = s.width.toNat ∧
    (s.csrRead 0x05).toNat = s.height.toNat ∧ (s.csrRead 0x06).toNat = s.srcSize.toNat ∧
    (s.csrRead 0x07).toNat = s.nameLen.toNat ∧ (s.csrRead 0x08).toNat = s.resultId.toNat ∧
    s.csrRead 0x09 = s.desc0 ∧ s.csrRead 0x0A = s.desc1 ∧ s.csrRead 0x0B = s.ctxInfo ∧ s.csrRead 0x0C = s.gPix ∧
    s.csrRead 0x0D = s.gY ∧ s.csrRead 0x0E = s.gCsrc ∧ s.csrRead 0x0F = s.gCout ∧ s.csrRead 0x10 = s.gR8 ∧
    s.csrRead 0x11 = s.gRaw ∧ s.csrRead 0x12 = s.srcPos ∧
    (s.csrRead 0x13).toNat = min s.fifo.length (2 ^ 48 - 1) + 2 ^ 48 * s.eof.toNat ∧
    ∀ i : Fin 64, 0x14 ≤ i.val → s.csrRead i = 0#64

/-- 10_state.md R24: ID holds MAGIC 0x59555644 in [31:0] and the number of registry entries in [47:32]; at reset, with the
default registry, 0x0000000D59555644. -/
def Obligations.IdRegisterIsConstant : Prop :=
  (∀ s : State, s.cfg.registry.length < 2 ^ 16 →
    (s.csrRead 0x00).toNat = 0x59555644 + 2 ^ 32 * s.cfg.registry.length) ∧
  State.reset.csrRead 0x00 = 0x0000000D59555644#64 ∧
  ∀ s t : State, step s = .next t → t.csrRead 0x00 = s.csrRead 0x00

/-- 45_control.md R237: what a write of v to each register stores, read back; a write to any other index changes nothing at
all, and no write but CMD changes another register, STATUS included, or anything else: the state is the one before with
only the five operand registers written. -/
def Obligations.RegisterWriteStoresItsField : Prop :=
  ∀ (s : State) (i : Fin 64) (v : Word), i ≠ cmdIndex →
    State.transact (.csrWr i v) s = .next ((({ s with ret := .none } : State)).csrWrite i v) ∧
    (i = 0x03 ∨ i = 0x04 ∨ i = 0x05 → ((s.csrWrite i v).csrRead i).toNat = v.toNat % 2 ^ 16) ∧
    (i = 0x06 → ((s.csrWrite i v).csrRead i).toNat = v.toNat % 2 ^ 48) ∧
    (i = 0x07 → ((s.csrWrite i v).csrRead i).toNat = min (v.toNat % 2 ^ 9) 256) ∧
    (i.val < 0x03 ∨ 0x07 < i.val → s.csrWrite i v = s) ∧
    s.csrWrite i v = { s with
      fmtId := (s.csrWrite i v).fmtId, width := (s.csrWrite i v).width, height := (s.csrWrite i v).height,
      srcSize := (s.csrWrite i v).srcSize, nameLen := (s.csrWrite i v).nameLen } ∧
    (∀ j : Fin 64, j ≠ i → (s.csrWrite i v).csrRead j = s.csrRead j) ∧
    (s.csrWrite i v).fb = s.fb ∧ (s.csrWrite i v).name = s.name ∧ (s.csrWrite i v).fifo = s.fifo ∧
    (s.csrWrite i v).eof = s.eof ∧ (s.csrWrite i v).ctx = s.ctx ∧ (s.csrWrite i v).latch = s.latch

/-! ### NAME buffer, frame buffer reads, source -/

/-- 45_control.md R240, R241: a byte written to the NAME buffer is read back, every other byte and everything else stays;
reading changes nothing. -/
def Obligations.NameBufferReadsWhatWasWritten : Prop :=
  ∀ (s : State) (i : Fin 256) (b : Byte),
    (∃ t, State.transact (.nameWr i b) s = .next t ∧ t.nameByte i.val = b ∧
      (∀ j : Nat, j ≠ i.val → t.nameByte j = s.nameByte j) ∧ t = { s with ret := .none, name := t.name }) ∧
    State.transact (.nameRd i) s = .next { s with ret := .byte (s.nameByte i.val) }

/-- 45_control.md R243: FB_RD returns the byte inside the view that holds a value; beyond the view, which is everywhere without
a context, or at an undef byte, it faults: the run's fault mark is set and the host gets no value (R244). Either way the
block is unchanged. That the faulting read answers a next state, with the fault in the mark, is the model's reading of R244,
log entry 4; so is the view size 0 of a context without a geometry, which no run installs, log entry 24. During a DECODE
every byte is undef, from accept to completion. No host transaction but a CMD write changes
the frame buffer. -/
def Obligations.FrameBufferReadReturnsOrFaults : Prop :=
  (∀ (s t : State) (op : Transaction), (∀ v, op ≠ .csrWr cmdIndex v) → State.transact op s = .next t → t.fb = s.fb) ∧
  ∀ (s : State) (p : Plane) (i : Nat),
    (∀ b, i < s.viewSize p → s.fb.read p i = some b →
      State.transact (.fbRd p i) s = .next { s with ret := .byte b }) ∧
    (s.viewSize p ≤ i ∨ s.fb.read p i = none →
      State.transact (.fbRd p i) s = .next { s with ret := .none, faultMark := true }) ∧
    (s.ctx = none → s.viewSize p = 0) ∧
    (∀ l, Inv s → s.latch = some l → decode l.op = .ok .decode → s.fb.read p i = none)

/-- 45_control.md R248: in a state of the invariant a host that reads a view only while VALID = 1, below the view size, gets a
byte, and its run stays safe. -/
def Obligations.DutifulReadIsAnswered : Prop :=
  ∀ (s : State) (p : Plane) (i : Nat), Inv s → s.MayRead p i →
    ∃ b, State.transact (.fbRd p i) s = .next { s with ret := .byte b }

/-- 45_control.md R245, R246, R247: push appends, at any time; EOF sets eof, and only a flush and a reset clear it; flush
empties the FIFO and clears eof while idle, leaves SRC_POS, and is ignored while BUSY = 1. -/
def Obligations.SourceTransactionsFeedTheFifo : Prop :=
  (∀ s t : State, step s = .next t → s.eof = true → t.eof = false → s.nextAgent = .host ∧ ∃ rest,
    s.host = .tx .srcFlush :: rest ∨ s.host = .tx (.csrWr cmdIndex (encode .sreset)) :: rest) ∧
  ∀ s : State,
    (∀ b, State.transact (.srcPush b) s = .next { s with ret := .none, fifo := s.fifo ++ [b] }) ∧
    State.transact .srcEof s = .next { s with ret := .none, eof := true } ∧
    (s.status.busy = false → State.transact .srcFlush s = .next { s with ret := .none, fifo := [], eof := false }) ∧
    (s.status.busy = true → State.transact .srcFlush s = .next { s with ret := .none })

/-! ### Registry -/

/-- 30_encoding.md R91, R92: the codes of the fields (00_scope.md R16, R17, 30_encoding.md R94), and the fields of the
descriptor words of a well-formed descriptor, each at its bits. -/
def Obligations.DescriptorWordsHaveTheirFields : Prop :=
  [Family.planar, .semi, .packed422, .tiled, .mixed, .mono].map
      (fun f => ((familyCode f).toNat, (topoCode (topologyOf f)).toNat)) =
    [(0, 0), (1, 1), (2, 2), (3, 3), (4, 0), (5, 0)] ∧
  [Subsampling.s420, .s422, .s444, .snone].map (fun x => (subsCode x).toNat) = [0, 1, 2, 3] ∧
  [ChromaOrder.cbFirst, .crFirst].map (fun x => (orderCode x).toNat) = [0, 1] ∧
  [Depth.eight, .ten].map (fun x => (depthCode x).toNat) = [0, 1] ∧
  [Packing.pnone, .loose, .compact].map (fun x => (packCode x).toNat) = [0, 1, 2] ∧
  ∀ d : Descriptor, d.wf = true →
    (enc0 d).toNat = (familyCode d.fam).toNat + 8 * (subsCode d.subs).toNat +
      32 * (if d.fam = .packed422 then (decide (d.croff.toNat < d.cboff.toNat)).toNat else (orderCode d.co).toNat) +
      64 * (depthCode d.depth).toNat + 128 * (packCode d.pack).toNat + 512 * d.yoff.toNat + 2048 * d.cboff.toNat +
      8192 * d.croff.toNat + 65536 * (topoCode (topologyOf d.fam)).toNat ∧
    (enc1 d).toNat = d.tw.toNat + 2 ^ 16 * d.th.toNat + 2 ^ 32 * min d.toks.length 255

/-- 30_encoding.md R96, 40_registry.md R110: the default registry is well-formed, has exactly the ids 0 to 12, and gives the
DESC0 and DESC1 words of the table. -/
def Obligations.DefaultRegistryGivesTheTableWords : Prop :=
  registryWf defaultRegistry = true ∧
  (∀ fid : BitVec 16, lookup defaultRegistry fid = .error .unsupportedFormat ↔ 13 ≤ fid.toNat) ∧
  defaultRegistry.map (fun e => (e.1.toNat, (enc0 e.2).toNat, (enc1 e.2).toNat)) =
    [(0, 0x0, 0x300000000), (1, 0x20, 0x100000000), (2, 0x160, 0x100000000), (3, 0xC0, 0x100000000)] ++
    [(4, 0x10001, 0x100000000), (5, 0x10021, 0x100000000), (6, 0x2680A, 0x200000000), (7, 0x2420A, 0x100000000)] ++
    [(8, 0x30003, 0x100040004), (9, 0x30003, 0x100040008), (10, 0x2C, 0x200000000), (11, 0x34, 0x200000000),
     (12, 0x1D, 0x300000000)]

/-- 40_registry.md R117: LOOKUP writes DESC0 and DESC1 of the latched id and completes with success; for an id that is no key
it completes with UnsupportedFormat (1) and DESC0, DESC1 stay. Nothing else changes: no other STATUS bit, not the context,
the frame buffer or the source. The id is FMT_ID at accept; with the default registry exactly the ids from 13 on fail. -/
def Obligations.LookupWritesTheDescriptorWords : Prop :=
  encode .lookup = 0x01#64 ∧
  (∀ s : State, ((s.accept (encode .lookup)).operandsFor .lookup).fid = s.fmtId) ∧
  (∀ fid : BitVec 16, (∃ d, (fid, d) ∈ defaultRegistry) ↔ fid.toNat < 13) ∧
  ∀ (s : State),
    (∀ d, ((s.operandsFor .lookup).fid, d) ∈ s.cfg.registry → s.cfg.wf = true → exec .lookup s = .next { s with
      desc0 := enc0 d, desc1 := enc1 d,
      status := { s.status with busy := false, done := true, err := false, errcode := 0#4 }, latch := none }) ∧
    ((∀ d, ((s.operandsFor .lookup).fid, d) ∉ s.cfg.registry) → exec .lookup s = .next { s with
      status := { s.status with busy := false, done := true, err := true, errcode := 1#4 }, latch := none })

/-- 40_registry.md R116: findByNameToken gives the entry of the longest matching token, ties broken by lexical order and then by
the lowest id, and NoMatch exactly when no token matches; 40_registry.md R114: the text is folded byte by byte, ASCII letters
only. -/
def Obligations.FindByNameTokenIsTheLongestMatch : Prop :=
  (∀ (t : List Byte) (i : Nat), (lower t)[i]? =
    t[i]?.map (fun c => if 0x41 ≤ c.toNat ∧ c.toNat ≤ 0x5A then c + 0x20#8 else c)) ∧
  ∀ (r : Registry) (text : List Byte),
    (∀ fid, findByNameToken r text = .ok fid ↔
      ∃ k, TokenMatches r (lower text) k fid ∧ ∀ k' fid', TokenMatches r (lower text) k' fid' →
        k'.length ≤ k.length ∧ (k'.length = k.length → k' = k ∨ LexBefore k k') ∧
        (k' = k → fid.toNat ≤ fid'.toNat)) ∧
    (findByNameToken r text = .error .noMatch ↔ ∀ k fid, ¬ TokenMatches r (lower text) k fid)

/-- 40_registry.md R120: the result depends only on the text and on which tokens which ids have, not on the order of the
registry's entries or of a descriptor's tokens. -/
def Obligations.FindByNameTokenIgnoresTheOrder : Prop :=
  ∀ (r r' : Registry) (text : List Byte),
    (∀ fid k, (∃ d, (fid, d) ∈ r ∧ k ∈ d.toks) ↔ (∃ d, (fid, d) ∈ r' ∧ k ∈ d.toks)) →
      findByNameToken r text = findByNameToken r' text

/-- 40_registry.md R118: FINDNAME writes RESULT_ID with the id of its latched text and completes with success; when nothing
matches (so always for the empty text) it completes with NoMatch (2) and RESULT_ID stays. FMT_ID is not written, nothing
else changes. The text is NAME[0..NAME_LEN) at accept; a token longer than the text does not match. -/
def Obligations.FindnameWritesResultId : Prop :=
  encode .findname = 0x02#64 ∧
  (∀ s : State, ((s.accept (encode .findname)).operandsFor .findname).text =
    (List.range s.nameLen.toNat).map (fun j => s.nameByte j)) ∧
  (∀ (r : Registry) (text k : List Byte) (fid : BitVec 16), TokenMatches r (lower text) k fid →
    k.length ≤ text.length) ∧
  ∀ (s : State),
    (∀ fid, findByNameToken s.cfg.registry (s.operandsFor .findname).text = .ok fid → exec .findname s = .next { s with
      resultId := fid,
      status := { s.status with busy := false, done := true, err := false, errcode := 0#4 }, latch := none }) ∧
    ((∀ k fid, ¬ TokenMatches s.cfg.registry (lower (s.operandsFor .findname).text) k fid) →
      exec .findname s = .next { s with
        status := { s.status with busy := false, done := true, err := true, errcode := 2#4 }, latch := none }) ∧
    ((s.operandsFor .findname).text = [] → exec .findname s = .next { s with
      status := { s.status with busy := false, done := true, err := true, errcode := 2#4 }, latch := none })

/-! ### Geometry -/

/-- 41_geometry.md R130: which checks fail with which error, in the rule's order, and the record of a geometry that
succeeds. -/
def Obligations.GeometryChecksInOrder : Prop :=
  ∀ (cap w h : Nat) (d : Descriptor),
    let c := if d.subs = .s420 then w * h / 4 else if d.subs = .s422 then w * h / 2 else if d.subs = .s444 then w * h else 0
    let co := if d.fam = .mixed ∨ d.fam = .mono then w * h / 4 else c
    let zero : Prop := w = 0 ∨ h = 0
    let notWhole : Prop := d.pack = .compact ∧ (w * h + 2 * c) % 4 ≠ 0
    let need := 2 * (w * h) + 2 * c + 2 * max c co
    (geom cap w h d = .error .invalidGeometry ↔
      zero ∨ ParityForbidden w h d ∨ (¬ TileForbidden w h d ∧ notWhole)) ∧
    (geom cap w h d = .error .invalidTileDims ↔ ¬ zero ∧ ¬ ParityForbidden w h d ∧ TileForbidden w h d) ∧
    (geom cap w h d = .error .allocationFailure ↔
      ¬ zero ∧ ¬ ParityForbidden w h d ∧ ¬ TileForbidden w h d ∧ ¬ notWhole ∧ cap < need) ∧
    (∀ e, geom cap w h d = .error e → e = .invalidGeometry ∨ e = .invalidTileDims ∨ e = .allocationFailure) ∧
    (∀ g, geom cap w h d = .ok g →
      g.pix = w * h ∧ g.y = w * h ∧ g.csrc = c ∧ g.cout = co ∧ g.cstore = max g.csrc g.cout ∧
      g.r8 = g.y + 2 * g.csrc ∧ (d.pack = .pnone → g.raw = g.r8) ∧ (d.pack = .loose → g.raw = 2 * g.r8) ∧
      (d.pack = .compact → g.raw = g.r8 * 10 / 8) ∧ g.alloc = need ∧
      (g.wmb = true ↔ (w % 16 ≠ 0 ∨ h % 16 ≠ 0)))

/-- 41_geometry.md R137, R138: the chroma sizes. -/
def Obligations.ChromaSizesFollowSubsampling : Prop :=
  ∀ (cap w h : Nat) (d : Descriptor) (g : Geometry), geom cap w h d = .ok g →
    (d.subs = .s420 → g.csrc = w * h / 4 ∧ 4 * g.csrc = w * h) ∧
    (d.subs = .s422 → g.csrc = w * h / 2 ∧ 2 * g.csrc = w * h) ∧
    (d.subs = .s444 → g.csrc = w * h) ∧ (d.subs = .snone → g.csrc = 0) ∧
    (d.fam = .mixed ∨ d.fam = .mono → g.cout = w * h / 4) ∧
    (d.fam ≠ .mixed → d.fam ≠ .mono → g.cout = g.csrc)

/-- 41_geometry.md R143: the invariants (a) to (g) of every geometry of a well-formed descriptor that succeeds. -/
def Obligations.GeometryInvariants : Prop :=
  ∀ (cap w h : Nat) (d : Descriptor) (g : Geometry), d.wf = true → geom cap w h d = .ok g →
    g.y = w * h ∧ g.r8 = g.y + 2 * g.csrc ∧ (g.cout ≤ g.cstore ∧ g.csrc ≤ g.cstore) ∧
    (d.subs = .s420 → g.csrc = (w / 2) * (h / 2)) ∧ (d.subs = .s422 → g.csrc = (w / 2) * h) ∧
    (d.fam = .packed422 → g.r8 = 2 * w * h) ∧ (d.fam = .tiled → g.r8 = w * h + w * (h / 2)) ∧
    (d.pack = .compact → g.raw * 8 = g.r8 * 10) ∧ (d.pack = .loose → g.raw = 2 * g.r8) ∧
    1 ≤ g.raw ∧ g.alloc ≤ cap

/-- 41_geometry.md R139, R140, R141: a GEOM whose lookup and geometry succeed installs the context and completes with
success. The G_ registers and CTXINFO hold the exact values (10_state.md R41: each fits its register). With the same context
the buffers and VALID stay; with a new one the stores take the new sizes (10_state.md R44: RAW r8, Y y, CB and CR cstore),
every byte is undef and VALID is 0. Nothing else changes. -/
def Obligations.GeomInstallsTheContext : Prop :=
  ∀ (s : State) (d : Descriptor) (g : Geometry),
    let o := s.operandsFor .geom
    let c : Context := { fid := o.fid, w := o.width, h := o.height }
    registryFind s.cfg.registry o.fid = some d → geom s.cfg.fbCapacity o.width.toNat o.height.toNat d = .ok g →
    ∃ t, exec .geom s = .next t ∧ t.ctx = some c ∧
      t.ctxInfo.toNat = o.fid.toNat + 2 ^ 16 * o.width.toNat + 2 ^ 32 * o.height.toNat ∧
      t.gPix.toNat = g.pix ∧ t.gY.toNat = g.y ∧ t.gCsrc.toNat = g.csrc ∧ t.gCout.toNat = g.cout ∧
      t.gR8.toNat = g.r8 ∧ t.gRaw.toNat = g.raw ∧
      t.status = { s.status with
        busy := false, done := true, err := false, errcode := 0#4, ctx := true,
        warnMb := decide (o.width.toNat % 16 ≠ 0 ∨ o.height.toNat % 16 ≠ 0),
        warnFsize := decide (o.srcSize.toNat ≠ 0 ∧ o.srcSize.toNat % g.raw ≠ 0),
        valid := if s.ctx = some c then s.status.valid else false } ∧
      (s.ctx = some c → t.fb = s.fb) ∧
      (s.ctx ≠ some c → (t.fb.plane .raw).size = g.r8 ∧ (t.fb.plane .y).size = g.y ∧ (t.fb.plane .cb).size = g.cstore ∧
        (t.fb.plane .cr).size = g.cstore ∧ ∀ p i, t.fb.read p i = none) ∧
      t = { s with
        ctx := t.ctx, ctxInfo := t.ctxInfo, gPix := t.gPix, gY := t.gY, gCsrc := t.gCsrc, gCout := t.gCout,
        gR8 := t.gR8, gRaw := t.gRaw, status := t.status, fb := t.fb, latch := none }

/-- 41_geometry.md R142, 60_exceptions.md R271: a GEOM that fails writes only STATUS (and empties the latch); an unknown format
is reported before any geometry check. ERRCODE is 1 for an unknown format, 3 for InvalidGeometry, 4 for InvalidTileDims and 6
for AllocationFailure (60_exceptions.md R260). -/
def Obligations.FailedGeomWritesOnlyStatus : Prop :=
  ∀ (s : State),
    let o := s.operandsFor .geom
    let failed : BitVec 4 → Host.Outcome State Fault Refusal := fun code => .next { s with
      status := { s.status with busy := false, done := true, err := true, errcode := code }, latch := none }
    (registryFind s.cfg.registry o.fid = none → exec .geom s = failed 1#4) ∧
    ∀ d e, registryFind s.cfg.registry o.fid = some d →
      geom s.cfg.fbCapacity o.width.toNat o.height.toNat d = .error e →
      exec .geom s = failed e.code ∧ (e = .invalidGeometry → exec .geom s = failed 3#4) ∧
        (e = .invalidTileDims → exec .geom s = failed 4#4) ∧ (e = .allocationFailure → exec .geom s = failed 6#4)

/-! ### Bit-depth converter -/

/-- 42_bitdepth.md R160, R161: conv8 maps 0 to 1023 into 0 to 255, is monotone, and saturates exactly from 1022 on. -/
def Obligations.ConversionRangeAndMonotone : Prop :=
  (∀ s, conv8 s = min 255 ((s + 2) / 4)) ∧ (∀ s, conv8 s ≤ 255) ∧ (∀ s s', s ≤ s' → conv8 s ≤ conv8 s') ∧
    ∀ s, 255 < (s + 2) / 4 ↔ 1022 ≤ s

/-- 42_bitdepth.md R165: a compact sample is the 10-bit field of its group read as a 40-bit little-endian number. (A byte beyond
the stream, which no rule uses, is as log entry 8 says, the same on both sides.) -/
def Obligations.CompactGroupIsLittleEndian : Prop :=
  ∀ (b : List Byte) (i : Nat),
    let at' := fun j => (byteAt b (5 * (i / 4) + j)).toNat
    unpack10 b i =
      ((at' 0 + 256 * at' 1 + 256 ^ 2 * at' 2 + 256 ^ 3 * at' 3 + 256 ^ 4 * at' 4) / 2 ^ (10 * (i % 4))) % 1024

/-- 42_bitdepth.md R163, R165, R168: the loose and compact converters: their lengths, every sample of each, zero bytes to zero
bytes for streams as long as R163 and R164 ask, and each 10-bit value reproduced. (A byte beyond the stream, which no rule
uses, is as log entry 8 says, the same on both sides of the sample clauses.) -/
def Obligations.ConvertersReproduceEverySample : Prop :=
  (∀ b n, (loose b n).length = n ∧ (compact b n).length = n) ∧
  (∀ (b : List Byte) (n i : Nat), i < n →
    (loose b n)[i]? = some (BitVec.ofNat 8 (conv8 ((byteAt b (2 * i)).toNat + 256 * (byteAt b (2 * i + 1)).toNat)))) ∧
  (∀ (b : List Byte) (n i : Nat), i < n → (compact b n)[i]? = some (BitVec.ofNat 8 (conv8 (unpack10 b i)))) ∧
  (∀ n m, 2 * n ≤ m → loose (List.replicate m 0#8) n = List.replicate n 0#8) ∧
  (∀ n m, n % 4 = 0 → 5 * n / 4 ≤ m → compact (List.replicate m 0#8) n = List.replicate n 0#8) ∧
  (∀ v, v < 1024 → loose [BitVec.ofNat 8 (v % 256), BitVec.ofNat 8 (v / 256)] 1 = [BitVec.ofNat 8 (conv8 v)]) ∧
  ∀ v0 v1 v2 v3, v0 < 1024 → v1 < 1024 → v2 < 1024 → v3 < 1024 →
    let n := v0 + 2 ^ 10 * v1 + 2 ^ 20 * v2 + 2 ^ 30 * v3
    compact ((List.range 5).map (fun j => BitVec.ofNat 8 (n / 256 ^ j))) 4 = [v0, v1, v2, v3].map
      (fun v => BitVec.ofNat 8 (conv8 v))

/-! ### Tile deinterleaver -/

/-- 43_tile.md R180, R181: the tile address is the sum of its four terms, under its conditions it maps the raster positions
one-to-one onto [0, W·H), and detile reads each raster byte from its tile address. -/
def Obligations.TileAddressIsOneToOne : Prop :=
  (∀ x y W tw th : Nat, taddr x y W tw th = (y / th) * (th * W) + (x / tw) * (tw * th) + (y % th) * tw + (x % tw)) ∧
  ∀ (W H tw th : Nat), 1 ≤ tw → 1 ≤ th → W % tw = 0 → H % th = 0 →
    (∀ (buf : List Byte) (base x y : Nat), base + W * H ≤ buf.length → x < W → y < H →
      (detile buf base W H tw th)[y * W + x]? = buf[base + taddr x y W tw th]?) ∧
    (∀ x y, x < W → y < H → taddr x y W tw th < W * H) ∧
    (∀ x y x' y', x < W → y < H → x' < W → y' < H → taddr x y W tw th = taddr x' y' W tw th → x = x' ∧ y = y') ∧
    ∀ a, a < W * H → ∃ x y, x < W ∧ y < H ∧ taddr x y W tw th = a

/-- 43_tile.md R182: tile puts raster byte (x, y) at its tile address, and detile undoes tile on every plane of W·H bytes. -/
def Obligations.DetileInvertsTile : Prop :=
  ∀ (W H tw th : Nat) (p : List Byte), 1 ≤ tw → 1 ≤ th → W % tw = 0 → H % th = 0 → p.length = W * H →
    (∀ x y, x < W → y < H → (tile p W H tw th)[taddr x y W tw th]? = p[y * W + x]?) ∧
    detile (tile p W H tw th) 0 W H tw th = p

/-- 43_tile.md R186: with tiles as wide as the region, the tile address is the raster address and detile is the identity on
the region. -/
def Obligations.FullWidthTilesAreRaster : Prop :=
  ∀ (W H th base : Nat) (buf : List Byte), 1 ≤ W → 1 ≤ th → H % th = 0 → base + W * H ≤ buf.length →
    (∀ x y, x < W → y < H → taddr x y W W th = y * W + x) ∧
    detile buf base W H W th = slice buf base (base + W * H)

/-! ### Unpackers -/

/-- 44_decode.md R191, R200, R208, 42_bitdepth.md R167: for a geometry that succeeds with a well-formed descriptor and a source of
exactly raw bytes, the R8 frame is the source itself, its loose or its compact conversion, by the packing; the planes are
the unpacked R8 frame; and the frame has r8 bytes, the luma plane y bytes, and each chroma plane cout bytes. -/
def Obligations.DecodedPlanesHaveTheGeometrySizes : Prop :=
  ∀ (cap w h : Nat) (d : Descriptor) (g : Geometry) (src : List Byte), d.wf = true → geom cap w h d = .ok g →
    src.length = g.raw →
    (d.pack = .pnone → (decodeFrame d w h g src).1 = src) ∧
    (d.pack = .loose → (decodeFrame d w h g src).1 = loose src g.r8) ∧
    (d.pack = .compact → (decodeFrame d w h g src).1 = compact src g.r8) ∧
    (decodeFrame d w h g src).2 = unpack d w h g (decodeFrame d w h g src).1 ∧
    (decodeFrame d w h g src).1.length = g.r8 ∧ (decodeFrame d w h g src).2.y.length = g.y ∧
    (decodeFrame d w h g src).2.cb.length = g.cout ∧ (decodeFrame d w h g src).2.cr.length = g.cout

/-- 44_decode.md R201, R202: planar and semi-planar frames, each unpacked by its own unpacker (R191): luma is the first run; the
chroma runs, or the even and odd bytes of the interleaved run, go to Cb and Cr by the chroma order. -/
def Obligations.PlanarAndSemiPlanarRuns : Prop :=
  ∀ (d : Descriptor) (w h : Nat) (g : Geometry) (r8 : List Byte), r8.length = w * h + 2 * g.csrc →
    let pl := unpackPlanar d w h g r8
    let se := unpackSemi d w h g r8
    (d.fam = .planar → unpack d w h g r8 = pl) ∧ (d.fam = .semi → unpack d w h g r8 = se) ∧
    (pl.y.length = w * h ∧ pl.cb.length = g.csrc ∧ pl.cr.length = g.csrc) ∧
    (se.y.length = w * h ∧ se.cb.length = g.csrc ∧ se.cr.length = g.csrc) ∧
    (∀ i, i < w * h → pl.y[i]? = r8[i]? ∧ se.y[i]? = r8[i]?) ∧
    ∀ j, j < g.csrc →
      (d.co = .cbFirst → pl.cb[j]? = r8[w * h + j]? ∧ pl.cr[j]? = r8[w * h + g.csrc + j]? ∧
        se.cb[j]? = r8[w * h + 2 * j]? ∧ se.cr[j]? = r8[w * h + 2 * j + 1]?) ∧
      (d.co = .crFirst → pl.cr[j]? = r8[w * h + j]? ∧ pl.cb[j]? = r8[w * h + g.csrc + j]? ∧
        se.cr[j]? = r8[w * h + 2 * j]? ∧ se.cb[j]? = r8[w * h + 2 * j + 1]?)

/-- 44_decode.md R203: packed 4:2:2: luma at its offset with stride 2, chroma at their offsets with stride 4, and with the
well-formed offsets every byte of the frame is read by exactly one component. -/
def Obligations.PackedSamplesCoverTheFrame : Prop :=
  ∀ (cap w h : Nat) (d : Descriptor) (g : Geometry) (r8 : List Byte), d.wf = true → d.fam = .packed422 →
    geom cap w h d = .ok g → r8.length = g.r8 →
    let p := unpack d w h g r8
    (∀ i, i < w * h → d.yoff.toNat + 2 * i < r8.length ∧ p.y[i]? = r8[d.yoff.toNat + 2 * i]?) ∧
    (∀ j, j < g.csrc → d.cboff.toNat + 4 * j < r8.length ∧ p.cb[j]? = r8[d.cboff.toNat + 4 * j]? ∧
      d.croff.toNat + 4 * j < r8.length ∧ p.cr[j]? = r8[d.croff.toNat + 4 * j]?) ∧
    ∀ k, k < r8.length →
      let ofY : Prop := ∃ i, i < w * h ∧ k = d.yoff.toNat + 2 * i
      let ofCb : Prop := ∃ j, j < g.csrc ∧ k = d.cboff.toNat + 4 * j
      let ofCr : Prop := ∃ j, j < g.csrc ∧ k = d.croff.toNat + 4 * j
      (ofY ∧ ¬ ofCb ∧ ¬ ofCr) ∨ (¬ ofY ∧ ofCb ∧ ¬ ofCr) ∨ (¬ ofY ∧ ¬ ofCb ∧ ofCr)

/-- 44_decode.md R204, 43_tile.md R183, R184: tiled frames: luma pixel (x, y) comes from its tile address; chroma pair j of row
r from the tile addresses of columns 2j and 2j + 1 of the chroma region, which starts at w·h. -/
def Obligations.TiledPixelsComeFromTheirTileAddress : Prop :=
  ∀ (cap w h : Nat) (d : Descriptor) (g : Geometry) (r8 : List Byte), d.wf = true → d.fam = .tiled →
    geom cap w h d = .ok g → r8.length = g.r8 →
    let p := unpack d w h g r8
    let addr := fun x y => taddr x y w d.tw.toNat d.th.toNat
    (∀ x y, x < w → y < h → p.y[y * w + x]? = r8[addr x y]?) ∧
    ∀ j r, j < w / 2 → r < h / 2 →
      (d.co = .cbFirst → p.cb[r * (w / 2) + j]? = r8[w * h + addr (2 * j) r]? ∧
        p.cr[r * (w / 2) + j]? = r8[w * h + addr (2 * j + 1) r]?) ∧
      (d.co = .crFirst → p.cr[r * (w / 2) + j]? = r8[w * h + addr (2 * j) r]? ∧
        p.cb[r * (w / 2) + j]? = r8[w * h + addr (2 * j + 1) r]?)

/-- 44_decode.md R205, R206: mixed frames keep the even rows of each source chroma plane, and for 4:4:4 the even columns; mono
frames fill both chroma planes with 128. -/
def Obligations.MixedAndMonoChroma : Prop :=
  ∀ (cap w h : Nat) (d : Descriptor) (g : Geometry) (r8 : List Byte), d.wf = true → geom cap w h d = .ok g →
    r8.length = g.r8 →
    let p := unpack d w h g r8
    (p.y.length = w * h ∧ p.cb.length = g.cout ∧ p.cr.length = g.cout) ∧
    let first := fun q : Planes => if d.co = .cbFirst then q.cb else q.cr
    let second := fun q : Planes => if d.co = .cbFirst then q.cr else q.cb
    (d.fam = .mixed ∨ d.fam = .mono → ∀ i, i < w * h → p.y[i]? = r8[i]?) ∧
    (d.fam = .mixed → d.subs = .s422 → ∀ x r, x < w / 2 → r < h / 2 →
      (first p)[r * (w / 2) + x]? = r8[w * h + (2 * r) * (w / 2) + x]? ∧
      (second p)[r * (w / 2) + x]? = r8[w * h + g.csrc + (2 * r) * (w / 2) + x]?) ∧
    (d.fam = .mixed → d.subs = .s444 → ∀ x r, x < w / 2 → r < h / 2 →
      (first p)[r * (w / 2) + x]? = r8[w * h + (2 * r) * w + 2 * x]? ∧
      (second p)[r * (w / 2) + x]? = r8[w * h + g.csrc + (2 * r) * w + 2 * x]?) ∧
    (d.fam = .mono → p.cb = List.replicate g.cout 128#8 ∧ p.cr = List.replicate g.cout 128#8)

/-! ### DECODE -/

/-- 44_decode.md R213, R215: a DECODE whose latched context has its raw bytes in the FIFO, EOF or not, takes exactly those,
writes RAW, Y, CB and CR with the decoded frame, sets VALID and completes with success; no other byte of a plane changes
(so CB and CR beyond the view keep what they were, which is undef when that DECODE was accepted before), and nothing
else. -/
def Obligations.DecodeWritesTheFrame : Prop :=
  ∀ (s : State) (c : Context) (d : Descriptor) (g : Geometry), s.cfg.wf = true →
    (s.operandsFor .decode).ctx = some c → contextGeometry s.cfg c = .ok (d, g) → g.raw ≤ s.fifo.length →
    let frame := decodeFrame d c.w.toNat c.h.toNat g (s.fifo.take g.raw)
    ∃ fb, exec .decode s = .next { s with
        fb := fb, fifo := s.fifo.drop g.raw, srcPos := s.srcPos + BitVec.ofNat 64 g.raw, latch := none,
        status := { s.status with busy := false, done := true, err := false, errcode := 0#4, valid := true } } ∧
      (∀ i, i < g.r8 → fb.read .raw i = frame.1[i]?) ∧ (∀ i, i < g.y → fb.read .y i = frame.2.y[i]?) ∧
      (∀ i, i < g.cout → fb.read .cb i = frame.2.cb[i]? ∧ fb.read .cr i = frame.2.cr[i]?) ∧
      (∀ p, (fb.plane p).size = (s.fb.plane p).size ∧ ∀ i, g.viewSize p ≤ i → fb.read p i = s.fb.read p i) ∧
      (∀ l, Inv s → s.latch = some l → decode l.op = .ok .decode → ∀ p i, g.viewSize p ≤ i → fb.read p i = none)

/-- 60_exceptions.md R270: a DECODE with no context completes with NoGeometry (8); it takes no source byte and changes neither
VALID nor the frame buffer. -/
def Obligations.DecodeWithoutContextFails : Prop :=
  ∀ s : State, (s.operandsFor .decode).ctx = none → exec .decode s = .next { s with
    status := { s.status with busy := false, done := true, err := true, errcode := 8#4 }, latch := none }

/-- 44_decode.md R214, 60_exceptions.md R267: a DECODE whose source has ended with fewer than raw bytes completes with
ShortRead (5), takes the bytes that remain, and keeps the context and eof; in a state of the invariant with that DECODE in
flight, VALID is then 0 and every byte of the frame buffer undef. -/
def Obligations.ShortReadTakesWhatRemains : Prop :=
  ∀ (s : State) (c : Context) (d : Descriptor) (g : Geometry),
    (s.operandsFor .decode).ctx = some c → contextGeometry s.cfg c = .ok (d, g) → s.fifo.length < g.raw →
    s.eof = true →
    exec .decode s = .next { s with
      fifo := [], srcPos := s.srcPos + BitVec.ofNat 64 s.fifo.length, latch := none,
      status := { s.status with busy := false, done := true, err := true, errcode := 5#4 } } ∧
    (∀ l, Inv s → s.latch = some l → decode l.op = .ok .decode →
      s.status.valid = false ∧ ∀ p i, s.fb.read p i = none)

/-- 70_reset_and_hazards.md R303: a DECODE with too few bytes and no EOF waits: its engine step changes nothing, and with a host
that has nothing left to do, whoever moves, a step of the machine only takes a turn: a hang, not a fault. That the turn of
a host with nothing left to do answers the state with only the turn taken is the model's choice, log entry 21. -/
def Obligations.DecodeWaitsForTheSource : Prop :=
  ∀ (s : State) (c : Context) (d : Descriptor) (g : Geometry),
    (s.operandsFor .decode).ctx = some c → contextGeometry s.cfg c = .ok (d, g) → s.fifo.length < g.raw →
    s.eof = false → exec .decode s = .next s ∧
    (∀ l, s.cfg.wf = true → s.status.busy = true → s.latch = some l → decode l.op = .ok .decode → s.host = [] →
      step s = .next { s with turns := s.turns.tail })

/-- 44_decode.md R217: (a) after every GEOM that succeeds, a DECODE with exactly raw bytes in the FIFO succeeds, with views of
the geometry's sizes (10_state.md R44: RAW r8, Y y, CB and CR cout) and a value in every byte; (b) with eof and fewer bytes it ends with ShortRead; (c) two DECODEs with the
same context and the same raw bytes give the same views. -/
def Obligations.EveryGeometryDecodes : Prop :=
  ∀ (s : State) (c : Context) (d : Descriptor) (g : Geometry), s.cfg.wf = true → s.ctx = some c →
    contextGeometry s.cfg c = .ok (d, g) →
    (s.fifo.length = g.raw → ∃ t, (s.accept (encode .decode)).engineStep = .next t ∧ t.status.done = true ∧
      t.status.err = false ∧ t.status.valid = true ∧ t.fifo = [] ∧
      t.viewSize .raw = g.r8 ∧ t.viewSize .y = g.y ∧ t.viewSize .cb = g.cout ∧ t.viewSize .cr = g.cout ∧
      ∀ p, t.viewSize p = g.viewSize p ∧ ∀ i, i < g.viewSize p → t.viewByte p i ≠ none) ∧
    (s.fifo.length < g.raw → s.eof = true → ∃ t, (s.accept (encode .decode)).engineStep = .next t ∧
      t.status.err = true ∧ t.status.errcode = 5#4 ∧ t.status.valid = false) ∧
    ∀ s' t t' : State, s'.cfg = s.cfg → s'.ctx = some c → g.raw ≤ s.fifo.length → g.raw ≤ s'.fifo.length →
      s'.fifo.take g.raw = s.fifo.take g.raw → (s.accept (encode .decode)).engineStep = .next t →
      (s'.accept (encode .decode)).engineStep = .next t' → ∀ p i, t'.viewByte p i = t.viewByte p i

/-! ### What a command leaves alone -/

/-- 10_state.md R34 to R49: the frame of every command that is not a reset: operand registers, NAME, eof, the run's and the
model's own fields, OVR and LASTOP never change; only LOOKUP writes DESC0 and DESC1, only FINDNAME RESULT_ID, only GEOM the
context, CTXINFO, the G_ registers, CTX and the warnings, only DECODE takes source bytes, and only GEOM and DECODE touch
VALID or any byte of the frame buffer. No command at all changes the parameters, the fault mark, the host's operations, the
turns or the value the host holds (for SRESET and the last three, log entry 11). -/
def Obligations.CommandsLeaveTheRestAlone : Prop :=
  (∀ (i : Instr) (s t : State), exec i s = .next t → t.cfg = s.cfg ∧ t.faultMark = s.faultMark ∧ t.host = s.host ∧
    t.turns = s.turns ∧ t.ret = s.ret) ∧
  ∀ (i : Instr) (s t : State), i ≠ .sreset → exec i s = .next t →
    (t.fmtId = s.fmtId ∧ t.width = s.width ∧ t.height = s.height ∧ t.srcSize = s.srcSize ∧ t.nameLen = s.nameLen) ∧
    (∀ j, t.nameByte j = s.nameByte j) ∧ t.eof = s.eof ∧ t.status.ovr = s.status.ovr ∧
    t.status.lastop = s.status.lastop ∧
    (i ≠ .lookup → t.desc0 = s.desc0 ∧ t.desc1 = s.desc1) ∧ (i ≠ .findname → t.resultId = s.resultId) ∧
    (i ≠ .geom → t.ctx = s.ctx ∧ t.ctxInfo = s.ctxInfo ∧ t.gPix = s.gPix ∧ t.gY = s.gY ∧ t.gCsrc = s.gCsrc ∧
      t.gCout = s.gCout ∧ t.gR8 = s.gR8 ∧ t.gRaw = s.gRaw ∧ t.status.ctx = s.status.ctx ∧
      t.status.warnMb = s.status.warnMb ∧ t.status.warnFsize = s.status.warnFsize ∧
      ∀ p, (t.fb.plane p).size = (s.fb.plane p).size) ∧
    (i ≠ .decode → t.fifo = s.fifo ∧ t.srcPos = s.srcPos) ∧
    (i ≠ .geom → i ≠ .decode → t.status.valid = s.status.valid ∧ ∀ p j, t.fb.read p j = s.fb.read p j)

/-! ### Whole-machine rules -/

/-- The invariant holds right after reset. -/
def Obligations.InvariantAtReset : Prop := Inv State.reset

/-- Every step keeps the invariant: BUSY and the latch, CTX and the context, ERR and ERRCODE agree; NAME and the planes keep
their canonical form and bounds; the registers and store sizes are those of the context's geometry; VALID means every byte of
every view holds a value (10_state.md R26 to R30, R40, R41, R44 to R48). -/
def Obligations.EveryStepKeepsTheInvariant : Prop :=
  ∀ s t : State, Inv s → step s = .next t → Inv t

/-- From a state of the invariant the machine always steps: no command, no host transaction, no order of turns makes it fault
or refuse (60_exceptions.md R273: an error is a completion; 70_reset_and_hazards.md R303: a wait is a state). Two points are the
model's: a bad FB_RD is a next state with the fault mark set, no stop (log entry 4), and the turn of an agent with nothing
to do answers a state (log entry 21). -/
def Obligations.MachineNeverStops : Prop :=
  ∀ s t : State, Inv s → Reaches s t → ∃ u, step t = .next u ∧ Inv u

/-- 45_control.md R244: no later step clears the fault mark; an FB_RD beyond the view or of an undef byte sets it, changes nothing
of the block and gives the host no value; and nothing else sets it. -/
def Obligations.FaultMarkStaysAndOnlyBadReadsSetIt : Prop :=
  ∀ s t : State, step s = .next t →
    (s.faultMark = true → t.faultMark = true) ∧
    (∀ p i rest, s.nextAgent = .host → s.host = .tx (.fbRd p i) :: rest → s.viewByte p i = none →
      t.faultMark = true ∧ t.block = s.block ∧ t.ret = .none) ∧
    (s.faultMark = false → t.faultMark = true → ∃ p i rest, s.nextAgent = .host ∧ s.host = .tx (.fbRd p i) :: rest ∧
      s.viewByte p i = none)

/-- 20_memory.md R60: the host cannot write the frame buffer: it changes only in an engine step of GEOM or DECODE, at the accept
of a DECODE, and at SRESET. -/
def Obligations.FrameBufferHasThreeWriters : Prop :=
  ∀ s t : State, step s = .next t → t.fb ≠ s.fb →
    (s.nextAgent = .engine ∧ ∃ l, s.latch = some l ∧ (decode l.op = .ok .geom ∨ decode l.op = .ok .decode)) ∨
    (s.nextAgent = .host ∧ ∃ v rest, s.host = .tx (.csrWr cmdIndex v) :: rest ∧
      (v = encode .sreset ∨ v = encode .decode))

/-- 10_state.md R30, R40: only a GEOM changes the context to another, and once there is one, only a reset clears it. -/
def Obligations.ContextChangesOnlyByGeomOrReset : Prop :=
  ∀ s t : State, step s = .next t → t.ctx ≠ s.ctx →
    (s.nextAgent = .engine ∧ t.ctx ≠ none ∧ ∃ l, s.latch = some l ∧ decode l.op = .ok .geom) ∨
    (s.nextAgent = .host ∧ t.ctx = none ∧ ∃ rest, s.host = .tx (.csrWr cmdIndex (encode .sreset)) :: rest)

/-- 10_state.md R42, R47, 20_memory.md R62: every way the FIFO and SRC_POS change in a step: a push appends one byte; a flush
empties the FIFO and leaves SRC_POS; SRESET empties both; and a DECODE takes bytes from the front, SRC_POS growing by their
number. -/
def Obligations.OnlyDecodeTakesSourceBytes : Prop :=
  ∀ s t : State, step s = .next t → (t.fifo = s.fifo ∧ t.srcPos = s.srcPos) ∨
    (s.nextAgent = .host ∧ ∃ op rest, s.host = .tx op :: rest ∧
      ((∃ b, op = .srcPush b ∧ t.fifo = s.fifo ++ [b] ∧ t.srcPos = s.srcPos) ∨
       (op = .srcFlush ∧ t.fifo = [] ∧ t.srcPos = s.srcPos) ∨
       (op = .csrWr cmdIndex (encode .sreset) ∧ t.fifo = [] ∧ t.srcPos = 0#64))) ∨
    (s.nextAgent = .engine ∧ ∃ l n, s.latch = some l ∧ decode l.op = .ok .decode ∧ n ≤ s.fifo.length ∧
      t.fifo = s.fifo.drop n ∧ t.srcPos = s.srcPos + BitVec.ofNat 64 n)

/-- 70_reset_and_hazards.md R304, 10_state.md R26, R29: VALID becomes 1 only by a DECODE that completes with success; from then
on, until the next DECODE accept, the next GEOM that changes the context, or SRESET, VALID and every byte of the frame buffer
stay (in the states of the invariant). -/
def Obligations.ViewsLiveFromDecodeToTheNextWriter : Prop :=
  (∀ s t : State, step s = .next t → s.status.valid = false → t.status.valid = true →
    s.nextAgent = .engine ∧ (∃ l, s.latch = some l ∧ decode l.op = .ok .decode) ∧ t.status.done = true ∧
      t.status.err = false) ∧
  ∀ s t : State, Inv s → step s = .next t → s.status.valid = true →
    (t.status.valid = true ∧ t.fb = s.fb ∧ t.ctx = s.ctx) ∨
    (s.nextAgent = .engine ∧ t.ctx ≠ s.ctx ∧ ∃ l, s.latch = some l ∧ decode l.op = .ok .geom) ∨
    (s.nextAgent = .host ∧ ∃ v rest, s.host = .tx (.csrWr cmdIndex v) :: rest ∧
      (v = encode .sreset ∨ (v = encode .decode ∧ s.status.busy = false)))

/-- 30_encoding.md R87: on the host's turn a poll reads STATUS; it stays the host's next operation while BUSY = 1 and ends at a
read with BUSY = 0 (one read a step: log entry 22). 70_reset_and_hazards.md R311: with the default turns, a poll of the host ends after at most one engine
step unless a DECODE waits for the source; it ends with BUSY = 0 in the value read. That the engine moves first is the
model's choice of a fair order (log entry 2). -/
def Obligations.PollEndsUnlessDecodeWaits : Prop :=
  (∀ (s : State) (rest : List HostOp), s.cfg.wf = true → s.nextAgent = .host → s.host = .poll :: rest →
    (s.status.busy = true → step s = .next { s with turns := s.turns.tail, ret := .word s.status.word }) ∧
    (s.status.busy = false → step s = .next { s with
      turns := s.turns.tail, host := rest, ret := .word s.status.word })) ∧
  ∀ (s : State) (rest : List HostOp), Inv s → s.turns = [] → s.host = .poll :: rest → s.waiting = false →
    ∃ t, t.host = rest ∧ t.status.busy = false ∧ t.ret = .word t.status.word ∧
      (step s = .next t ∨ ∃ u, step s = .next u ∧ step u = .next t)

/-- The canonical form of a memory is worth its name: two memories in that form that read alike everywhere are the same
data. -/
def Obligations.CanonicalMemoriesThatReadAlikeAreEqual : Prop :=
  ∀ (unlisted : Option Byte) (bound : Nat) (m m' : Memory), m.wf unlisted bound → m'.wf unlisted bound →
    (∀ a, m.read unlisted a = m'.read unlisted a) → m = m'
end

