-- ==== Sys2Proof/Laws/Decode.lean ====
section
/-! SUPPORT. Laws of the command word: it is its two fields, and the opcode map is one-to-one. -/

namespace Sys2Proof

/-- A word is its RSVD field above its OPCODE field. -/
theorem word_eq_fields (v : Word) : v = rsvdField v ++ opcodeField v := by
  apply BitVec.eq_of_getLsbD_eq
  intro i hi
  simp only [rsvdField, opcodeField, BitVec.getLsbD_append, BitVec.getLsbD_extractLsb']
  by_cases h : i < 8
  · simp [h]
  · have : i - 8 < 56 := by omega
    simp [h, this, show 8 + (i - 8) = i by omega]

@[simp] theorem opcodeField_encode (i : Instr) : opcodeField (encode i) = opcodeOf i := by cases i <;> rfl

@[simp] theorem rsvdField_encode (i : Instr) : rsvdField (encode i) = 0#56 := by cases i <;> rfl

theorem decodeOpcode_opcodeOf (i : Instr) : decodeOpcode (opcodeOf i) = .ok i := by cases i <;> rfl

/-- The opcode map is one-to-one: an OPCODE field that decodes is the opcode of its command. -/
theorem opcodeOf_of_decodeOpcode {op : BitVec 8} {i : Instr} (h : decodeOpcode op = .ok i) : op = opcodeOf i := by
  unfold decodeOpcode at h
  split at h <;> cases h <;> apply BitVec.eq_of_toNat_eq <;> simpa [opcodeOf]

theorem opcodeField_toNat (v : Word) : (opcodeField v).toNat = v.toNat % 256 := by
  simp [opcodeField]

theorem rsvdField_eq_zero (v : Word) : rsvdField v = 0#56 ↔ v.toNat / 256 = 0 := by
  rw [← BitVec.toNat_inj]
  have h : (rsvdField v).toNat = v.toNat / 256 := by
    have := v.isLt
    simp [rsvdField, Nat.shiftRight_eq_div_pow]
    omega
  simp [h]

/-- Which OPCODE fields are reserved (30_encoding.md R82). -/
theorem decodeOpcode_error (op : BitVec 8) :
    (∃ e, decodeOpcode op = .error e) ↔ (0x05 ≤ op.toNat ∧ op.toNat ≤ 0x0E) ∨ 0x10 ≤ op.toNat := by
  unfold decodeOpcode
  split <;> simp_all
  omega

end Sys2Proof
end

