-- ==== Sys2Proof/Laws/Memory.lean ====
section
/-! SUPPORT. Laws of the byte memories: reading after writing, and that every operation keeps the canonical form. -/

namespace Sys2Proof.Machine

/-! ### Reading -/

@[simp] theorem Memory.find_nil (a : Nat) : Memory.find [] a = none := rfl

theorem Memory.find_cons (c : Host.Cell) (m : Memory) (a : Nat) :
    Memory.find (c :: m) a = if c.1 = a then some c.2 else Memory.find m a := rfl

@[simp] theorem Memory.read_nil (u : Option Byte) (a : Nat) : Memory.read u [] a = u := by
  simp [Memory.read]

theorem Memory.find_append (m m' : Memory) (a : Nat) :
    Memory.find (m ++ m') a = (Memory.find m a).or (Memory.find m' a) := by
  induction m with
  | nil => simp
  | cons c m ih => by_cases h : c.1 = a <;> simp [Memory.find_cons, h, ih]

theorem Memory.find_filter (keep : Nat → Bool) (m : Memory) (a : Nat) :
    Memory.find (m.filter (fun c => keep c.1)) a = if keep a then Memory.find m a else none := by
  induction m with
  | nil => simp
  | cons c m ih =>
    by_cases hc : c.1 = a
    · subst hc
      by_cases hk : keep c.1 <;> simp [hk, Memory.find_cons, ih]
    · by_cases hk : keep c.1 <;> simp [hk, Memory.find_cons, hc, ih]

theorem Memory.find_put (m : Memory) (a a' : Nat) (b : Byte) :
    Memory.find (m.put a b) a' = if a = a' then some b else Memory.find m a' := by
  induction m with
  | nil => simp [Memory.put, Memory.find_cons]
  | cons c m ih =>
    unfold Memory.put
    split
    · simp [Memory.find_cons]
    · split
      · next h => by_cases h' : a = a' <;> simp [Memory.find_cons, h']; omega
      · next h =>
        rw [Memory.find_cons, Memory.find_cons, ih]
        by_cases h' : a = a'
        · rw [if_neg (by omega), if_pos h']; simp [h']
        · rw [if_neg h', if_neg h']

theorem Memory.find_erase (m : Memory) (a a' : Nat) :
    Memory.find (m.erase a) a' = if a = a' then none else Memory.find m a' := by
  have h := Memory.find_filter (fun k => k != a) m a'
  simp only [Memory.erase] at *
  rw [h]
  by_cases h' : a = a'
  · simp [h']
  · simp [h', Ne.symm h']

/-- A read after a write gives the written byte at its address, and what was there at every other. -/
theorem Memory.read_write (u : Option Byte) (m : Memory) (a a' : Nat) (b : Byte) :
    (m.write u a b).read u a' = if a = a' then some b else m.read u a' := by
  unfold Memory.write
  split
  · next h => by_cases h' : a = a' <;> simp [Memory.read, Memory.find_erase, h', h]
  · by_cases h' : a = a' <;> simp [Memory.read, Memory.find_put, h']

theorem Memory.find_ofBytes (start : Nat) (bs : List Byte) (a : Nat) :
    Memory.find (Memory.ofBytes start bs) a = if start ≤ a then bs[a - start]? else none := by
  induction bs generalizing start with
  | nil => simp [Memory.ofBytes]
  | cons b bs ih =>
    simp only [Memory.ofBytes, Memory.find_cons, ih]
    by_cases h : start = a
    · subst h; simp
    · by_cases h' : start ≤ a
      · have : a - start = (a - (start + 1)) + 1 := by omega
        rw [if_neg h, if_pos (by omega), if_pos h', this, List.getElem?_cons_succ]
      · rw [if_neg h, if_neg (by omega), if_neg h']

/-- After a run is written from 0, its bytes read back and every later byte is what it was. -/
theorem Memory.read_writeRun (m : Memory) (bs : List Byte) (i : Nat) :
    (m.writeRun bs).read none i = if i < bs.length then bs[i]? else m.read none i := by
  have h := Memory.find_filter (fun k => decide (bs.length ≤ k)) m i
  simp only [Memory.read, Memory.writeRun, Memory.find_append, Memory.find_ofBytes, h]
  by_cases hi : i < bs.length
  · simp [hi]
  · simp [hi, Nat.not_lt.mp hi]

/-! ### Canonical form -/

theorem Memory.wf_nil (u : Option Byte) (bound : Nat) : Memory.wf u bound [] := ⟨List.Pairwise.nil, by simp⟩

theorem Memory.wf_filter {u : Option Byte} {bound : Nat} {m : Memory} (keep : Host.Cell → Bool)
    (h : m.wf u bound) : Memory.wf u bound (m.filter keep) :=
  ⟨h.1.filter _, fun c hc => h.2 c (List.mem_of_mem_filter hc)⟩

theorem Memory.wf_erase {u : Option Byte} {bound : Nat} {m : Memory} (a : Nat) (h : m.wf u bound) :
    (m.erase a).wf u bound := Memory.wf_filter _ h

theorem Memory.mem_put {m : Memory} {a : Nat} {b : Byte} {c : Host.Cell} (h : c ∈ m.put a b) : c = (a, b) ∨ c ∈ m := by
  induction m with
  | nil => simpa [Memory.put] using h
  | cons d m ih =>
    unfold Memory.put at h
    split at h
    · simpa using h
    · split at h
      · rcases List.mem_cons.mp h with h | h
        · exact .inl h
        · exact .inr (List.mem_cons_of_mem _ h)
      · rcases List.mem_cons.mp h with h | h
        · exact .inr (h ▸ List.mem_cons_self)
        · exact (ih h).imp_right (List.mem_cons_of_mem _)

theorem Memory.rising_put {m : Memory} (a : Nat) (b : Byte) (h : m.Pairwise (fun c c' => c.1 < c'.1)) :
    (m.put a b).Pairwise (fun c c' => c.1 < c'.1) := by
  induction m with
  | nil => simp [Memory.put]
  | cons d m ih =>
    obtain ⟨hd, hm⟩ := List.pairwise_cons.mp h
    unfold Memory.put
    split
    · next hlt =>
      refine List.pairwise_cons.mpr ⟨fun c hc => ?_, h⟩
      rcases List.mem_cons.mp hc with rfl | hc
      · exact hlt
      · exact Nat.lt_trans hlt (hd c hc)
    · split
      · next heq => exact List.pairwise_cons.mpr ⟨fun c hc => heq ▸ hd c hc, hm⟩
      · refine List.pairwise_cons.mpr ⟨fun c hc => ?_, ih hm⟩
        rcases Memory.mem_put hc with rfl | hc
        · simp only; omega
        · exact hd c hc

theorem Memory.wf_put {u : Option Byte} {bound : Nat} {m : Memory} {a : Nat} {b : Byte} (ha : a < bound)
    (hb : some b ≠ u) (h : m.wf u bound) : (m.put a b).wf u bound := by
  refine ⟨Memory.rising_put a b h.1, fun c hc => ?_⟩
  rcases Memory.mem_put hc with rfl | hc
  · exact ⟨ha, hb⟩
  · exact h.2 c hc

/-- A write below the bound keeps the canonical form. -/
theorem Memory.wf_write {u : Option Byte} {bound : Nat} {m : Memory} {a : Nat} {b : Byte} (ha : a < bound)
    (h : m.wf u bound) : (m.write u a b).wf u bound := by
  unfold Memory.write
  split
  · exact Memory.wf_erase a h
  · next hb => exact Memory.wf_put ha hb h

theorem Memory.ofBytes_bounds {start : Nat} {bs : List Byte} {c : Host.Cell} (h : c ∈ Memory.ofBytes start bs) :
    start ≤ c.1 ∧ c.1 < start + bs.length := by
  induction bs generalizing start with
  | nil => simp [Memory.ofBytes] at h
  | cons b bs ih =>
    rcases List.mem_cons.mp h with rfl | h
    · simp
    · have := ih h; simp; omega

theorem Memory.rising_ofBytes (start : Nat) (bs : List Byte) :
    (Memory.ofBytes start bs).Pairwise (fun c c' => c.1 < c'.1) := by
  induction bs generalizing start with
  | nil => simp [Memory.ofBytes]
  | cons b bs ih =>
    exact List.pairwise_cons.mpr ⟨fun c hc => (Memory.ofBytes_bounds hc).1, ih (start + 1)⟩

/-- Writing a run that fits the plane keeps the canonical form. -/
theorem Memory.wf_writeRun {bound : Nat} {m : Memory} {bs : List Byte} (hb : bs.length ≤ bound)
    (h : m.wf none bound) : (m.writeRun bs).wf none bound := by
  refine ⟨List.pairwise_append.mpr ⟨Memory.rising_ofBytes 0 bs, h.1.filter _, fun c hc c' hc' => ?_⟩, fun c hc => ?_⟩
  · have := Memory.ofBytes_bounds hc
    have : bs.length ≤ c'.1 := by simpa using (List.mem_filter.mp hc').2
    omega
  · rcases List.mem_append.mp hc with hc | hc
    · have := Memory.ofBytes_bounds hc
      exact ⟨by omega, by simp⟩
    · exact h.2 c (List.mem_of_mem_filter hc)

/-! ### Byte sequences -/

theorem byteAt_of_lt {s : List Byte} {i : Nat} (h : i < s.length) : some (byteAt s i) = s[i]? := by
  simp [byteAt, h]

@[simp] theorem slice_length (s : List Byte) (a b : Nat) : (slice s a b).length = min (b - a) (s.length - a) := by
  simp [slice]

theorem slice_getElem? (s : List Byte) (a b i : Nat) (h : i < b - a) : (slice s a b)[i]? = s[a + i]? := by
  simp [slice, h]

end Sys2Proof.Machine
end

