-- ==== Sys2Proof/Laws/State.lean ====
section
/-! SUPPORT. What each update of the state leaves in every field, one simp rule per field (a conjunction is one rule for
each of its parts), so that no later proof unfolds a record update. -/

namespace Sys2Proof.Machine

/-- Success completion (60_exceptions.md R265). -/
@[simp] theorem State.completeSuccess_fields (s : State) :
    s.completeSuccess.status = s.status.succeeded ∧ s.completeSuccess.fmtId = s.fmtId ∧
    s.completeSuccess.width = s.width ∧ s.completeSuccess.height = s.height ∧ s.completeSuccess.srcSize = s.srcSize ∧
    s.completeSuccess.nameLen = s.nameLen ∧ s.completeSuccess.resultId = s.resultId ∧
    s.completeSuccess.desc0 = s.desc0 ∧ s.completeSuccess.desc1 = s.desc1 ∧ s.completeSuccess.ctxInfo = s.ctxInfo ∧
    s.completeSuccess.gPix = s.gPix ∧ s.completeSuccess.gY = s.gY ∧ s.completeSuccess.gCsrc = s.gCsrc ∧
    s.completeSuccess.gCout = s.gCout ∧ s.completeSuccess.gR8 = s.gR8 ∧ s.completeSuccess.gRaw = s.gRaw ∧
    s.completeSuccess.srcPos = s.srcPos ∧ s.completeSuccess.ctx = s.ctx ∧ s.completeSuccess.fb = s.fb ∧
    s.completeSuccess.name = s.name ∧ s.completeSuccess.fifo = s.fifo ∧ s.completeSuccess.eof = s.eof ∧
    s.completeSuccess.latch = none ∧ s.completeSuccess.faultMark = s.faultMark ∧ s.completeSuccess.cfg = s.cfg ∧
    s.completeSuccess.host = s.host ∧ s.completeSuccess.turns = s.turns ∧ s.completeSuccess.ret = s.ret :=
  ⟨rfl, rfl, rfl, rfl, rfl, rfl, rfl, rfl, rfl, rfl, rfl, rfl, rfl, rfl, rfl, rfl, rfl, rfl, rfl, rfl, rfl, rfl, rfl, rfl, rfl, rfl, rfl, rfl⟩

/-- Error completion (60_exceptions.md R266). -/
@[simp] theorem State.completeError_fields (e : ErrKind) (s : State) :
    (s.completeError e).status = s.status.failed e ∧ (s.completeError e).fmtId = s.fmtId ∧
    (s.completeError e).width = s.width ∧ (s.completeError e).height = s.height ∧
    (s.completeError e).srcSize = s.srcSize ∧ (s.completeError e).nameLen = s.nameLen ∧
    (s.completeError e).resultId = s.resultId ∧ (s.completeError e).desc0 = s.desc0 ∧
    (s.completeError e).desc1 = s.desc1 ∧ (s.completeError e).ctxInfo = s.ctxInfo ∧
    (s.completeError e).gPix = s.gPix ∧ (s.completeError e).gY = s.gY ∧ (s.completeError e).gCsrc = s.gCsrc ∧
    (s.completeError e).gCout = s.gCout ∧ (s.completeError e).gR8 = s.gR8 ∧ (s.completeError e).gRaw = s.gRaw ∧
    (s.completeError e).srcPos = s.srcPos ∧ (s.completeError e).ctx = s.ctx ∧ (s.completeError e).fb = s.fb ∧
    (s.completeError e).name = s.name ∧ (s.completeError e).fifo = s.fifo ∧ (s.completeError e).eof = s.eof ∧
    (s.completeError e).latch = none ∧ (s.completeError e).faultMark = s.faultMark ∧ (s.completeError e).cfg = s.cfg ∧
    (s.completeError e).host = s.host ∧ (s.completeError e).turns = s.turns ∧ (s.completeError e).ret = s.ret :=
  ⟨rfl, rfl, rfl, rfl, rfl, rfl, rfl, rfl, rfl, rfl, rfl, rfl, rfl, rfl, rfl, rfl, rfl, rfl, rfl, rfl, rfl, rfl, rfl, rfl, rfl, rfl, rfl, rfl⟩

/-- Taking a turn. -/
@[simp] theorem State.turnTaken_fields (s : State) :
    s.turnTaken.status = s.status ∧ s.turnTaken.fmtId = s.fmtId ∧ s.turnTaken.width = s.width ∧
    s.turnTaken.height = s.height ∧ s.turnTaken.srcSize = s.srcSize ∧ s.turnTaken.nameLen = s.nameLen ∧
    s.turnTaken.resultId = s.resultId ∧ s.turnTaken.desc0 = s.desc0 ∧ s.turnTaken.desc1 = s.desc1 ∧
    s.turnTaken.ctxInfo = s.ctxInfo ∧ s.turnTaken.gPix = s.gPix ∧ s.turnTaken.gY = s.gY ∧
    s.turnTaken.gCsrc = s.gCsrc ∧ s.turnTaken.gCout = s.gCout ∧ s.turnTaken.gR8 = s.gR8 ∧ s.turnTaken.gRaw = s.gRaw ∧
    s.turnTaken.srcPos = s.srcPos ∧ s.turnTaken.ctx = s.ctx ∧ s.turnTaken.fb = s.fb ∧ s.turnTaken.name = s.name ∧
    s.turnTaken.fifo = s.fifo ∧ s.turnTaken.eof = s.eof ∧ s.turnTaken.latch = s.latch ∧
    s.turnTaken.faultMark = s.faultMark ∧ s.turnTaken.cfg = s.cfg ∧ s.turnTaken.host = s.host ∧
    s.turnTaken.turns = s.turns.tail ∧ s.turnTaken.ret = s.ret :=
  ⟨rfl, rfl, rfl, rfl, rfl, rfl, rfl, rfl, rfl, rfl, rfl, rfl, rfl, rfl, rfl, rfl, rfl, rfl, rfl, rfl, rfl, rfl, rfl, rfl, rfl, rfl, rfl, rfl⟩

/-- A NAME write (45_control.md R240). -/
@[simp] theorem State.nameWrite_fields (i : Fin 256) (b : Byte) (s : State) :
    (s.nameWrite i b).status = s.status ∧ (s.nameWrite i b).fmtId = s.fmtId ∧ (s.nameWrite i b).width = s.width ∧
    (s.nameWrite i b).height = s.height ∧ (s.nameWrite i b).srcSize = s.srcSize ∧
    (s.nameWrite i b).nameLen = s.nameLen ∧ (s.nameWrite i b).resultId = s.resultId ∧
    (s.nameWrite i b).desc0 = s.desc0 ∧ (s.nameWrite i b).desc1 = s.desc1 ∧ (s.nameWrite i b).ctxInfo = s.ctxInfo ∧
    (s.nameWrite i b).gPix = s.gPix ∧ (s.nameWrite i b).gY = s.gY ∧ (s.nameWrite i b).gCsrc = s.gCsrc ∧
    (s.nameWrite i b).gCout = s.gCout ∧ (s.nameWrite i b).gR8 = s.gR8 ∧ (s.nameWrite i b).gRaw = s.gRaw ∧
    (s.nameWrite i b).srcPos = s.srcPos ∧ (s.nameWrite i b).ctx = s.ctx ∧ (s.nameWrite i b).fb = s.fb ∧
    (s.nameWrite i b).name = s.name.write (some 0#8) i.val b ∧ (s.nameWrite i b).fifo = s.fifo ∧
    (s.nameWrite i b).eof = s.eof ∧ (s.nameWrite i b).latch = s.latch ∧ (s.nameWrite i b).faultMark = s.faultMark ∧
    (s.nameWrite i b).cfg = s.cfg ∧ (s.nameWrite i b).host = s.host ∧ (s.nameWrite i b).turns = s.turns ∧
    (s.nameWrite i b).ret = s.ret :=
  ⟨rfl, rfl, rfl, rfl, rfl, rfl, rfl, rfl, rfl, rfl, rfl, rfl, rfl, rfl, rfl, rfl, rfl, rfl, rfl, rfl, rfl, rfl, rfl, rfl, rfl, rfl, rfl, rfl⟩

/-- `SrcTake(n)` (20_memory.md R64). -/
@[simp] theorem State.srcTake_fields (n : Nat) (s : State) :
    ((s.srcTake n).2).status = s.status ∧ ((s.srcTake n).2).fmtId = s.fmtId ∧ ((s.srcTake n).2).width = s.width ∧
    ((s.srcTake n).2).height = s.height ∧ ((s.srcTake n).2).srcSize = s.srcSize ∧
    ((s.srcTake n).2).nameLen = s.nameLen ∧ ((s.srcTake n).2).resultId = s.resultId ∧
    ((s.srcTake n).2).desc0 = s.desc0 ∧ ((s.srcTake n).2).desc1 = s.desc1 ∧ ((s.srcTake n).2).ctxInfo = s.ctxInfo ∧
    ((s.srcTake n).2).gPix = s.gPix ∧ ((s.srcTake n).2).gY = s.gY ∧ ((s.srcTake n).2).gCsrc = s.gCsrc ∧
    ((s.srcTake n).2).gCout = s.gCout ∧ ((s.srcTake n).2).gR8 = s.gR8 ∧ ((s.srcTake n).2).gRaw = s.gRaw ∧
    ((s.srcTake n).2).srcPos = s.srcPos + BitVec.ofNat 64 n ∧ ((s.srcTake n).2).ctx = s.ctx ∧
    ((s.srcTake n).2).fb = s.fb ∧ ((s.srcTake n).2).name = s.name ∧ ((s.srcTake n).2).fifo = s.fifo.drop n ∧
    ((s.srcTake n).2).eof = s.eof ∧ ((s.srcTake n).2).latch = s.latch ∧ ((s.srcTake n).2).faultMark = s.faultMark ∧
    ((s.srcTake n).2).cfg = s.cfg ∧ ((s.srcTake n).2).host = s.host ∧ ((s.srcTake n).2).turns = s.turns ∧
    ((s.srcTake n).2).ret = s.ret :=
  ⟨rfl, rfl, rfl, rfl, rfl, rfl, rfl, rfl, rfl, rfl, rfl, rfl, rfl, rfl, rfl, rfl, rfl, rfl, rfl, rfl, rfl, rfl, rfl, rfl, rfl, rfl, rfl, rfl⟩

/-- Accept writes STATUS, the latch and, for a DECODE, the frame buffer, and nothing else (45_control.md R238). -/
theorem State.accept_form (v : Word) (s : State) : s.accept v = { s with
    status := (s.accept v).status, fb := (s.accept v).fb, latch := some { op := v, operands := s.capture v } } := by
  unfold State.accept; split <;> rfl

/-- Accept (45_control.md R238). -/
@[simp] theorem State.accept_fields (v : Word) (s : State) :
    (s.accept v).fmtId = s.fmtId ∧ (s.accept v).width = s.width ∧ (s.accept v).height = s.height ∧
    (s.accept v).srcSize = s.srcSize ∧ (s.accept v).nameLen = s.nameLen ∧ (s.accept v).resultId = s.resultId ∧
    (s.accept v).desc0 = s.desc0 ∧ (s.accept v).desc1 = s.desc1 ∧ (s.accept v).ctxInfo = s.ctxInfo ∧
    (s.accept v).gPix = s.gPix ∧ (s.accept v).gY = s.gY ∧ (s.accept v).gCsrc = s.gCsrc ∧
    (s.accept v).gCout = s.gCout ∧ (s.accept v).gR8 = s.gR8 ∧ (s.accept v).gRaw = s.gRaw ∧
    (s.accept v).srcPos = s.srcPos ∧ (s.accept v).ctx = s.ctx ∧ (s.accept v).name = s.name ∧
    (s.accept v).fifo = s.fifo ∧ (s.accept v).eof = s.eof ∧
    (s.accept v).latch = some { op := v, operands := s.capture v } ∧ (s.accept v).faultMark = s.faultMark ∧
    (s.accept v).cfg = s.cfg ∧ (s.accept v).host = s.host ∧ (s.accept v).turns = s.turns ∧ (s.accept v).ret = s.ret := by
  rw [State.accept_form]
  exact ⟨rfl, rfl, rfl, rfl, rfl, rfl, rfl, rfl, rfl, rfl, rfl, rfl, rfl, rfl, rfl, rfl, rfl, rfl, rfl, rfl, rfl, rfl, rfl, rfl, rfl, rfl⟩

/-- Accept of a DECODE while a context exists: the buffer is poisoned and VALID cleared (44_decode.md R216). -/
theorem State.accept_poisons {v : Word} {s : State} {c : Context} (hd : Sys2Proof.decode v = .ok .decode)
    (hc : s.ctx = some c) : s.accept v = { s with
      status := (s.status.accepted (opcodeField v)).invalidated, fb := s.fb.poisoned,
      latch := some { op := v, operands := s.capture v } } := by
  simp [State.accept, hd, hc]

/-- Accept of any other word, or without a context: the buffer and VALID stay (45_control.md R238). -/
theorem State.accept_keeps {v : Word} {s : State} (h : ¬ (Sys2Proof.decode v = .ok .decode ∧ s.ctx ≠ none)) :
    s.accept v = { s with
      status := s.status.accepted (opcodeField v), latch := some { op := v, operands := s.capture v } } := by
  unfold State.accept
  split
  · next hd hc => exact absurd ⟨hd, by simp [hc]⟩ h
  · rfl

/-- A register write reaches the five operand registers only (45_control.md R237). -/
theorem State.csrWrite_form (i : Fin 64) (v : Word) (s : State) : s.csrWrite i v = { s with
    fmtId := (s.csrWrite i v).fmtId, width := (s.csrWrite i v).width, height := (s.csrWrite i v).height,
    srcSize := (s.csrWrite i v).srcSize, nameLen := (s.csrWrite i v).nameLen } := by
  unfold State.csrWrite; split <;> rfl

/-- A register write (45_control.md R237). -/
@[simp] theorem State.csrWrite_fields (i : Fin 64) (v : Word) (s : State) :
    (s.csrWrite i v).status = s.status ∧ (s.csrWrite i v).resultId = s.resultId ∧ (s.csrWrite i v).desc0 = s.desc0 ∧
    (s.csrWrite i v).desc1 = s.desc1 ∧ (s.csrWrite i v).ctxInfo = s.ctxInfo ∧ (s.csrWrite i v).gPix = s.gPix ∧
    (s.csrWrite i v).gY = s.gY ∧ (s.csrWrite i v).gCsrc = s.gCsrc ∧ (s.csrWrite i v).gCout = s.gCout ∧
    (s.csrWrite i v).gR8 = s.gR8 ∧ (s.csrWrite i v).gRaw = s.gRaw ∧ (s.csrWrite i v).srcPos = s.srcPos ∧
    (s.csrWrite i v).ctx = s.ctx ∧ (s.csrWrite i v).fb = s.fb ∧ (s.csrWrite i v).name = s.name ∧
    (s.csrWrite i v).fifo = s.fifo ∧ (s.csrWrite i v).eof = s.eof ∧ (s.csrWrite i v).latch = s.latch ∧
    (s.csrWrite i v).faultMark = s.faultMark ∧ (s.csrWrite i v).cfg = s.cfg ∧ (s.csrWrite i v).host = s.host ∧
    (s.csrWrite i v).turns = s.turns ∧ (s.csrWrite i v).ret = s.ret := by
  rw [State.csrWrite_form]
  exact ⟨rfl, rfl, rfl, rfl, rfl, rfl, rfl, rfl, rfl, rfl, rfl, rfl, rfl, rfl, rfl, rfl, rfl, rfl, rfl, rfl, rfl, rfl, rfl⟩

/-- Every field a new context writes; the frame buffer and VALID depend on whether it is new (41_geometry.md R140). -/
theorem State.installContext_form (c : Context) (g : Geometry) (n : BitVec 48) (s : State) :
    s.installContext c g n = { s with
      ctx := some c, ctxInfo := c.info, gPix := BitVec.ofNat 64 g.pix, gY := BitVec.ofNat 64 g.y,
      gCsrc := BitVec.ofNat 64 g.csrc, gCout := BitVec.ofNat 64 g.cout, gR8 := BitVec.ofNat 64 g.r8,
      gRaw := BitVec.ofNat 64 g.raw,
      status := if s.ctx = some c then s.status.contextSet g n else (s.status.contextSet g n).invalidated,
      fb := if s.ctx = some c then s.fb else FrameBuffer.allocated g } := by
  unfold State.installContext; split <;> rfl

/-- A context installed (41_geometry.md R139). -/
@[simp] theorem State.installContext_fields (c : Context) (g : Geometry) (n : BitVec 48) (s : State) :
    (s.installContext c g n).status =
      (if s.ctx = some c then s.status.contextSet g n else (s.status.contextSet g n).invalidated) ∧
    (s.installContext c g n).fmtId = s.fmtId ∧ (s.installContext c g n).width = s.width ∧
    (s.installContext c g n).height = s.height ∧ (s.installContext c g n).srcSize = s.srcSize ∧
    (s.installContext c g n).nameLen = s.nameLen ∧ (s.installContext c g n).resultId = s.resultId ∧
    (s.installContext c g n).desc0 = s.desc0 ∧ (s.installContext c g n).desc1 = s.desc1 ∧
    (s.installContext c g n).ctxInfo = c.info ∧ (s.installContext c g n).gPix = BitVec.ofNat 64 g.pix ∧
    (s.installContext c g n).gY = BitVec.ofNat 64 g.y ∧ (s.installContext c g n).gCsrc = BitVec.ofNat 64 g.csrc ∧
    (s.installContext c g n).gCout = BitVec.ofNat 64 g.cout ∧ (s.installContext c g n).gR8 = BitVec.ofNat 64 g.r8 ∧
    (s.installContext c g n).gRaw = BitVec.ofNat 64 g.raw ∧ (s.installContext c g n).srcPos = s.srcPos ∧
    (s.installContext c g n).ctx = some c ∧
    (s.installContext c g n).fb = (if s.ctx = some c then s.fb else FrameBuffer.allocated g) ∧
    (s.installContext c g n).name = s.name ∧ (s.installContext c g n).fifo = s.fifo ∧
    (s.installContext c g n).eof = s.eof ∧ (s.installContext c g n).latch = s.latch ∧
    (s.installContext c g n).faultMark = s.faultMark ∧ (s.installContext c g n).cfg = s.cfg ∧
    (s.installContext c g n).host = s.host ∧ (s.installContext c g n).turns = s.turns ∧
    (s.installContext c g n).ret = s.ret := by
  rw [State.installContext_form]
  exact ⟨rfl, rfl, rfl, rfl, rfl, rfl, rfl, rfl, rfl, rfl, rfl, rfl, rfl, rfl, rfl, rfl, rfl, rfl, rfl, rfl, rfl, rfl, rfl, rfl, rfl, rfl, rfl, rfl⟩

/-- The reset event (70_reset_and_hazards.md R290). -/
@[simp] theorem State.resetEvent_fields (s : State) :
    s.resetEvent.status = Status.reset ∧ s.resetEvent.fmtId = 0#16 ∧ s.resetEvent.width = 0#16 ∧
    s.resetEvent.height = 0#16 ∧ s.resetEvent.srcSize = 0#48 ∧ s.resetEvent.nameLen = 0#9 ∧
    s.resetEvent.resultId = 0#16 ∧ s.resetEvent.desc0 = 0#64 ∧ s.resetEvent.desc1 = 0#64 ∧
    s.resetEvent.ctxInfo = 0#64 ∧ s.resetEvent.gPix = 0#64 ∧ s.resetEvent.gY = 0#64 ∧ s.resetEvent.gCsrc = 0#64 ∧
    s.resetEvent.gCout = 0#64 ∧ s.resetEvent.gR8 = 0#64 ∧ s.resetEvent.gRaw = 0#64 ∧ s.resetEvent.srcPos = 0#64 ∧
    s.resetEvent.ctx = none ∧ s.resetEvent.fb = FrameBuffer.empty ∧ s.resetEvent.name = [] ∧
    s.resetEvent.fifo = [] ∧ s.resetEvent.eof = false ∧ s.resetEvent.latch = none ∧
    s.resetEvent.faultMark = s.faultMark ∧ s.resetEvent.cfg = s.cfg ∧ s.resetEvent.host = s.host ∧
    s.resetEvent.turns = s.turns ∧ s.resetEvent.ret = s.ret :=
  ⟨rfl, rfl, rfl, rfl, rfl, rfl, rfl, rfl, rfl, rfl, rfl, rfl, rfl, rfl, rfl, rfl, rfl, rfl, rfl, rfl, rfl, rfl, rfl, rfl, rfl, rfl, rfl, rfl⟩

/-- STATUS at success. -/
@[simp] theorem Status.succeeded_fields (st : Status) :
    st.succeeded.busy = false ∧ st.succeeded.done = true ∧ st.succeeded.err = false ∧ st.succeeded.valid = st.valid ∧
    st.succeeded.ctx = st.ctx ∧ st.succeeded.ovr = st.ovr ∧ st.succeeded.warnMb = st.warnMb ∧
    st.succeeded.warnFsize = st.warnFsize ∧ st.succeeded.errcode = 0#4 ∧ st.succeeded.lastop = st.lastop :=
  ⟨rfl, rfl, rfl, rfl, rfl, rfl, rfl, rfl, rfl, rfl⟩

/-- STATUS at an error. -/
@[simp] theorem Status.failed_fields (e : ErrKind) (st : Status) :
    (st.failed e).busy = false ∧ (st.failed e).done = true ∧ (st.failed e).err = true ∧
    (st.failed e).valid = st.valid ∧ (st.failed e).ctx = st.ctx ∧ (st.failed e).ovr = st.ovr ∧
    (st.failed e).warnMb = st.warnMb ∧ (st.failed e).warnFsize = st.warnFsize ∧ (st.failed e).errcode = e.code ∧
    (st.failed e).lastop = st.lastop :=
  ⟨rfl, rfl, rfl, rfl, rfl, rfl, rfl, rfl, rfl, rfl⟩

/-- STATUS at accept. -/
@[simp] theorem Status.accepted_fields (op : BitVec 8) (st : Status) :
    (st.accepted op).busy = true ∧ (st.accepted op).done = false ∧ (st.accepted op).err = false ∧
    (st.accepted op).valid = st.valid ∧ (st.accepted op).ctx = st.ctx ∧ (st.accepted op).ovr = false ∧
    (st.accepted op).warnMb = st.warnMb ∧ (st.accepted op).warnFsize = st.warnFsize ∧ (st.accepted op).errcode = 0#4 ∧
    (st.accepted op).lastop = op :=
  ⟨rfl, rfl, rfl, rfl, rfl, rfl, rfl, rfl, rfl, rfl⟩

/-- STATUS at a dropped request. -/
@[simp] theorem Status.dropped_fields (st : Status) :
    st.dropped.busy = st.busy ∧ st.dropped.done = st.done ∧ st.dropped.err = st.err ∧ st.dropped.valid = st.valid ∧
    st.dropped.ctx = st.ctx ∧ st.dropped.ovr = true ∧ st.dropped.warnMb = st.warnMb ∧
    st.dropped.warnFsize = st.warnFsize ∧ st.dropped.errcode = st.errcode ∧ st.dropped.lastop = st.lastop :=
  ⟨rfl, rfl, rfl, rfl, rfl, rfl, rfl, rfl, rfl, rfl⟩

/-- STATUS when VALID is cleared. -/
@[simp] theorem Status.invalidated_fields (st : Status) :
    st.invalidated.busy = st.busy ∧ st.invalidated.done = st.done ∧ st.invalidated.err = st.err ∧
    st.invalidated.valid = false ∧ st.invalidated.ctx = st.ctx ∧ st.invalidated.ovr = st.ovr ∧
    st.invalidated.warnMb = st.warnMb ∧ st.invalidated.warnFsize = st.warnFsize ∧
    st.invalidated.errcode = st.errcode ∧ st.invalidated.lastop = st.lastop :=
  ⟨rfl, rfl, rfl, rfl, rfl, rfl, rfl, rfl, rfl, rfl⟩

/-- STATUS when VALID is set. -/
@[simp] theorem Status.validated_fields (st : Status) :
    st.validated.busy = st.busy ∧ st.validated.done = st.done ∧ st.validated.err = st.err ∧
    st.validated.valid = true ∧ st.validated.ctx = st.ctx ∧ st.validated.ovr = st.ovr ∧
    st.validated.warnMb = st.warnMb ∧ st.validated.warnFsize = st.warnFsize ∧ st.validated.errcode = st.errcode ∧
    st.validated.lastop = st.lastop :=
  ⟨rfl, rfl, rfl, rfl, rfl, rfl, rfl, rfl, rfl, rfl⟩

/-- STATUS at a new context. -/
@[simp] theorem Status.contextSet_fields (g : Geometry) (n : BitVec 48) (st : Status) :
    (st.contextSet g n).busy = st.busy ∧ (st.contextSet g n).done = st.done ∧ (st.contextSet g n).err = st.err ∧
    (st.contextSet g n).valid = st.valid ∧ (st.contextSet g n).ctx = true ∧ (st.contextSet g n).ovr = st.ovr ∧
    (st.contextSet g n).warnMb = g.wmb ∧
    (st.contextSet g n).warnFsize = (decide (n.toNat ≠ 0) && decide (n.toNat % g.raw ≠ 0)) ∧
    (st.contextSet g n).errcode = st.errcode ∧ (st.contextSet g n).lastop = st.lastop :=
  ⟨rfl, rfl, rfl, rfl, rfl, rfl, rfl, rfl, rfl, rfl⟩

end Sys2Proof.Machine
end

