-- ==== Sys2Proof/Laws/FrameBuffer.lean ====
section
/-! SUPPORT. Laws of the frame buffer: the sizes and the bytes that poisoning, a new allocation and a decoded frame leave,
and that each keeps every plane in its canonical form. -/

namespace Sys2Proof.Machine

/-- The run of bytes a decoded frame writes to each plane (44_decode.md R215). -/
def frameRun (r8 : List Byte) (pl : Planes) : Plane → List Byte
  | .raw => r8
  | .y => pl.y
  | .cb => pl.cb
  | .cr => pl.cr

/-- Poisoning keeps the sizes and leaves every byte `undef` (44_decode.md R216). -/
@[simp] theorem FrameBuffer.plane_poisoned (fb : FrameBuffer) (p : Plane) :
    fb.poisoned.plane p = PlaneStore.undef (fb.plane p).size := by cases p <;> rfl

/-- A new allocation has the store sizes of its geometry and no value (41_geometry.md R139). -/
@[simp] theorem FrameBuffer.plane_allocated (g : Geometry) (p : Plane) :
    (FrameBuffer.allocated g).plane p = PlaneStore.undef (g.storeSize p) := by cases p <;> rfl

@[simp] theorem FrameBuffer.plane_filled (fb : FrameBuffer) (r8 : List Byte) (pl : Planes) (p : Plane) :
    (fb.filled r8 pl).plane p = (fb.plane p).writeRun (frameRun r8 pl p) := by cases p <;> rfl

@[simp] theorem FrameBuffer.plane_empty (p : Plane) : FrameBuffer.empty.plane p = PlaneStore.empty := by cases p <;> rfl

@[simp] theorem PlaneStore.undef_fields (n : Nat) : (PlaneStore.undef n).size = n ∧ (PlaneStore.undef n).cells = [] :=
  ⟨rfl, rfl⟩

@[simp] theorem PlaneStore.empty_fields : PlaneStore.empty.size = 0 ∧ PlaneStore.empty.cells = [] := ⟨rfl, rfl⟩

@[simp] theorem PlaneStore.writeRun_fields (p : PlaneStore) (bs : List Byte) :
    (p.writeRun bs).size = p.size ∧ (p.writeRun bs).cells = p.cells.writeRun bs := ⟨rfl, rfl⟩

@[simp] theorem FrameBuffer.read_poisoned (fb : FrameBuffer) (p : Plane) (i : Nat) : fb.poisoned.read p i = none := by
  simp [FrameBuffer.read]

@[simp] theorem FrameBuffer.read_allocated (g : Geometry) (p : Plane) (i : Nat) :
    (FrameBuffer.allocated g).read p i = none := by
  simp [FrameBuffer.read]

/-- After a frame is written, its bytes read back and every later byte of a plane is what it was. -/
theorem FrameBuffer.read_filled (fb : FrameBuffer) (r8 : List Byte) (pl : Planes) (p : Plane) (i : Nat) :
    (fb.filled r8 pl).read p i =
      if i < (frameRun r8 pl p).length then (frameRun r8 pl p)[i]? else fb.read p i := by
  simp [FrameBuffer.read, Memory.read_writeRun]

/-- Writing a frame that fits keeps every plane canonical. -/
theorem FrameBuffer.wf_filled {fb : FrameBuffer} {r8 : List Byte} {pl : Planes} {p : Plane}
    (hl : (frameRun r8 pl p).length ≤ (fb.plane p).size) (h : Memory.wf none (fb.plane p).size (fb.plane p).cells) :
    Memory.wf none ((fb.filled r8 pl).plane p).size ((fb.filled r8 pl).plane p).cells := by
  simpa using Memory.wf_writeRun hl h

/-- Two frame buffers with the same planes are the same. -/
theorem FrameBuffer.ext_planes {fb fb' : FrameBuffer} (h : ∀ p, fb.plane p = fb'.plane p) : fb = fb' := by
  have h1 := h .raw
  have h2 := h .y
  have h3 := h .cb
  have h4 := h .cr
  cases fb; cases fb'
  simp only [FrameBuffer.plane] at h1 h2 h3 h4
  rw [h1, h2, h3, h4]

end Sys2Proof.Machine
end

