-- ==== Sys2Proof/Laws/Registry.lean ====
section
/-! SUPPORT. Laws of the registry: finding an entry, and what token matching computes. -/

namespace Sys2Proof.Machine

theorem registryFind_mem {r : Registry} {fid : BitVec 16} {d : Descriptor} (h : registryFind r fid = some d) :
    (fid, d) ∈ r := by
  induction r with
  | nil => cases h
  | cons e r ih =>
    unfold registryFind at h
    split at h
    · next he => cases h; subst he; exact List.mem_cons_self
    · exact List.mem_cons_of_mem _ (ih h)

/-- In a finite map, an entry of the list is the one found. -/
theorem registryFind_of_mem {r : Registry} (hr : registryWf r = true) {fid : BitVec 16} {d : Descriptor}
    (h : (fid, d) ∈ r) : registryFind r fid = some d := by
  have hn : (r.map Prod.fst).Nodup := by
    have := (Bool.and_eq_true_iff.mp hr).2
    exact of_decide_eq_true this
  clear hr
  induction r with
  | nil => cases h
  | cons e r ih =>
    obtain ⟨he, hn⟩ := List.nodup_cons.mp hn
    unfold registryFind
    rcases List.mem_cons.mp h with rfl | h
    · simp
    · have : e.1 ≠ fid := fun hc => he (hc ▸ List.mem_map_of_mem (f := Prod.fst) h)
      simp [this, ih h hn]

theorem registryFind_none {r : Registry} {fid : BitVec 16} :
    registryFind r fid = none ↔ ∀ d, (fid, d) ∉ r := by
  induction r with
  | nil => simp [registryFind]
  | cons e r ih =>
    unfold registryFind
    split
    · next he =>
      simp only [reduceCtorEq, false_iff, not_forall, not_not]
      exact ⟨e.2, he ▸ List.mem_cons_self⟩
    · next he =>
      rw [ih]
      constructor
      · intro h d hd
        rcases List.mem_cons.mp hd with hc | hd
        · exact he (by rw [← hc])
        · exact h d hd
      · intro h d hd
        exact h d (List.mem_cons_of_mem _ hd)

/-- Every descriptor of a well-formed registry is well-formed (30_encoding.md R93). -/
theorem descriptor_wf {cfg : Config} (hc : cfg.wf = true) {fid : BitVec 16} {d : Descriptor}
    (h : registryFind cfg.registry fid = some d) : d.wf = true := by
  have := (Bool.and_eq_true_iff.mp hc).1
  exact List.all_eq_true.mp this _ (registryFind_mem h)

/-! ### Well-formed descriptors -/

/-- The offset check of a packed descriptor: the four offsets are exactly 0, 1, 2, 3 (30_encoding.md R93 (3)). -/
theorem offsets_iff (y cb cr : BitVec 2) :
    ((decide (y.toNat ≤ 1) && [0, 1, 2, 3].all (fun k => [y.toNat, y.toNat + 2, cb.toNat, cr.toNat].contains k)) = true) ↔
      ((y.toNat = 0 ∨ y.toNat = 1) ∧ ∀ k : Nat, (k = y.toNat ∨ k = y.toNat + 2 ∨ k = cb.toNat ∨ k = cr.toNat) ↔ k < 4) := by
  have h1 := cb.isLt; have h2 := cr.isLt
  generalize y.toNat = a at *; generalize cb.toNat = b at *; generalize cr.toNat = c at *
  simp only [Bool.and_eq_true, decide_eq_true_eq, List.all_cons, List.all_nil, List.contains_cons, List.contains_nil,
    Bool.or_eq_true, beq_iff_eq, Bool.or_false, Bool.and_true]
  constructor
  · rintro ⟨ha, h⟩; exact ⟨by omega, fun k => by omega⟩
  · rintro ⟨ha, h⟩
    have := (h 0).mpr (by omega); have := (h 1).mpr (by omega); have := (h 2).mpr (by omega); have := (h 3).mpr (by omega)
    exact ⟨by omega, by omega⟩

/-- The check of a token (R93 (8)). -/
theorem tokenWf_iff (k : List Byte) : tokenWf k = true ↔
    1 ≤ k.length ∧ k.length ≤ 256 ∧ ∀ c ∈ k, ¬ (0x41 ≤ c.toNat ∧ c.toNat ≤ 0x5A) := by
  unfold tokenWf
  rw [Bool.and_eq_true, Bool.and_eq_true, decide_eq_true_eq, decide_eq_true_eq, List.all_eq_true, and_assoc]
  refine and_congr_right fun _ => and_congr_right fun _ => forall_congr' fun c => imp_congr_right fun _ => ?_
  rw [← Bool.decide_and, Bool.not_eq_true', decide_eq_false_iff_not]

/-- A bit vector is 0 exactly when its number is. -/
theorem bitvec_zero_iff {n : Nat} (x : BitVec n) : (x == 0#n) = true ↔ x.toNat = 0 := by
  rw [beq_iff_eq, ← BitVec.toNat_inj, BitVec.toNat_zero]

/-- The check of a descriptor is the conditions of 30_encoding.md R93. -/
theorem descriptor_wf_iff (d : Descriptor) : d.wf = true ↔ DescriptorConditions d := by
  have dep : d.wfDepth = true ↔ (d.depth = .eight ↔ d.pack = .pnone) ∧
      (d.depth = .ten ↔ (d.pack = .loose ∨ d.pack = .compact)) := by
    unfold Descriptor.wfDepth
    cases d.depth <;> cases d.pack <;> decide
  have sub : d.wfSubs = true ↔ (d.fam = .planar ∨ d.fam = .semi → d.subs = .s420 ∨ d.subs = .s422 ∨ d.subs = .s444) ∧
      (d.fam = .packed422 → d.subs = .s422) ∧ (d.fam = .tiled → d.subs = .s420) ∧
      (d.fam = .mixed → d.subs = .s422 ∨ d.subs = .s444) ∧ (d.fam = .mono → d.subs = .snone) := by
    unfold Descriptor.wfSubs
    cases d.fam <;> cases d.subs <;> decide
  have off : d.wfOffsets = true ↔ (d.fam = .packed422 → (d.yoff.toNat = 0 ∨ d.yoff.toNat = 1) ∧
      ∀ k : Nat, (k = d.yoff.toNat ∨ k = d.yoff.toNat + 2 ∨ k = d.cboff.toNat ∨ k = d.croff.toNat) ↔ k < 4) ∧
      (d.fam ≠ .packed422 → d.yoff.toNat = 0 ∧ d.cboff.toNat = 0 ∧ d.croff.toNat = 0) := by
    unfold Descriptor.wfOffsets
    cases d.fam with
    | packed422 => exact (offsets_iff _ _ _).trans ⟨fun h => ⟨fun _ => h, fun h' => absurd rfl h'⟩, fun h => h.1 rfl⟩
    | _ => simp only [Bool.and_eq_true, bitvec_zero_iff, and_assoc]; simp
  have tile : d.wfTile = true ↔ (d.fam ≠ .tiled → d.tw.toNat = 0 ∧ d.th.toNat = 0) := by
    unfold Descriptor.wfTile
    cases d.fam <;> simp only [Bool.and_eq_true, bitvec_zero_iff] <;> simp
  simp only [Descriptor.wf, Bool.and_eq_true, dep, sub, off, tile, List.all_eq_true, tokenWf_iff]
  exact ⟨fun ⟨⟨⟨⟨h1, h2, h3, h4, h5, h6⟩, h7, h8⟩, h9⟩, h10⟩ => ⟨h1, h2, fun h => ⟨h3 h, h7 h⟩, h4, h5, h6, h9, h8, h10⟩,
    fun ⟨h1, h2, h3, h4, h5, h6, h7, h8, h9⟩ => ⟨⟨⟨⟨h1, h2, fun h => (h3 h).1, h4, h5, h6⟩, fun h => (h3 h).2, h8⟩, h7⟩, h9⟩⟩

/-! ### Token matching -/

/-- `occurs` is the substring relation of 40_registry.md R116. -/
theorem occurs_iff (k t : List Byte) : occurs k t = true ↔ ∃ p, slice t p (p + k.length) = k := by
  induction t with
  | nil =>
    cases k <;> simp [occurs, slice]
  | cons c t ih =>
    rw [occurs, Bool.or_eq_true, ih, List.isPrefixOf_iff_prefix, List.prefix_iff_eq_take]
    constructor
    · rintro (h | ⟨p, h⟩)
      · exact ⟨0, by simpa [slice] using h.symm⟩
      · refine ⟨p + 1, ?_⟩
        have : p + 1 + k.length - (p + 1) = p + k.length - p := by omega
        simpa [slice, this] using h
    · rintro ⟨p, h⟩
      cases p with
      | zero => exact .inl (by simpa [slice] using h.symm)
      | succ p =>
        refine .inr ⟨p, ?_⟩
        have : p + 1 + k.length - (p + 1) = p + k.length - p := by omega
        simpa [slice, this] using h

/-- The candidates are exactly the matching tokens with their ids (40_registry.md R116). -/
theorem mem_candidates {r : Registry} {t k : List Byte} {fid : BitVec 16} :
    (k, fid) ∈ candidates r t ↔ TokenMatches r t k fid := by
  simp only [candidates, List.mem_flatMap, List.mem_map, List.mem_filter, Prod.mk.injEq, Bool.and_eq_true,
    decide_eq_true_eq, TokenMatches, occurs_iff]
  constructor
  · rintro ⟨⟨f, d⟩, hd, k', ⟨hk, hl, hp⟩, rfl, rfl⟩
    exact ⟨d, hd, hk, hl, hp⟩
  · rintro ⟨d, hd, hk, hl, hp⟩
    exact ⟨(fid, d), hd, k, ⟨hk, hl, hp⟩, rfl, rfl⟩

theorem lexLt_iff (a b : List Byte) (hl : a.length = b.length) : lexLt a b = true ↔ LexBefore a b := by
  induction a generalizing b with
  | nil =>
    cases b with
    | nil => simp [lexLt, LexBefore]
    | cons y b => simp at hl
  | cons x a ih =>
    cases b with
    | nil => simp at hl
    | cons y b =>
      simp only [List.length_cons, Nat.add_right_cancel_iff] at hl
      simp only [lexLt, Bool.or_eq_true, decide_eq_true_eq, Bool.and_eq_true, beq_iff_eq, ih b hl]
      constructor
      · rintro (h | ⟨rfl, n, u, v, h⟩)
        · exact ⟨0, x, y, by simp, by simp, by simp, h⟩
        · exact ⟨n + 1, u, v, by simpa using h⟩
      · rintro ⟨n, u, v, ht, hu, hv, h⟩
        cases n with
        | zero => simp at hu hv; subst hu hv; exact .inl h
        | succ n =>
          simp only [List.take_succ_cons, List.cons.injEq] at ht
          simp only [List.getElem?_cons_succ] at hu hv
          exact .inr ⟨ht.1, n, u, v, ht.2, hu, hv, h⟩

theorem lexLt_irrefl (a : List Byte) : lexLt a a = false := by
  induction a with
  | nil => rfl
  | cons x a ih => simp [lexLt, ih]

theorem lexLt_trans {a b c : List Byte} (h : lexLt a b = true) (h' : lexLt b c = true) : lexLt a c = true := by
  induction a generalizing b c with
  | nil => cases b <;> cases c <;> simp_all [lexLt]
  | cons x a ih =>
    cases b with
    | nil => simp [lexLt] at h
    | cons y b =>
      cases c with
      | nil => simp [lexLt] at h'
      | cons z c =>
        simp only [lexLt, Bool.or_eq_true, decide_eq_true_eq, Bool.and_eq_true, beq_iff_eq] at *
        rcases h with h | ⟨rfl, h⟩ <;> rcases h' with h' | ⟨rfl, h'⟩
        · exact .inl (by omega)
        · exact .inl h
        · exact .inl h'
        · exact .inr ⟨rfl, ih h h'⟩

theorem lexLt_total (a b : List Byte) : a = b ∨ lexLt a b = true ∨ lexLt b a = true := by
  induction a generalizing b with
  | nil => cases b <;> simp [lexLt]
  | cons x a ih =>
    cases b with
    | nil => simp [lexLt]
    | cons y b =>
      simp only [lexLt, Bool.or_eq_true, decide_eq_true_eq, Bool.and_eq_true, beq_iff_eq, List.cons.injEq]
      rcases Nat.lt_trichotomy x.toNat y.toNat with h | h | h
      · exact .inr (.inl (.inl h))
      · have := BitVec.eq_of_toNat_eq h
        subst this
        rcases ih b with h | h | h
        · exact .inl ⟨rfl, h⟩
        · exact .inr (.inl (.inr ⟨rfl, h⟩))
        · exact .inr (.inr (.inr ⟨rfl, h⟩))
      · exact .inr (.inr (.inl h))

/-- `longest` bounds every token. -/
theorem le_longest {ks : List (List Byte)} {k : List Byte} (h : k ∈ ks) : k.length ≤ longest ks := by
  have aux : ∀ (l : List (List Byte)) (n : Nat),
      n ≤ l.foldl (fun n k => max n k.length) n ∧ ∀ k ∈ l, k.length ≤ l.foldl (fun n k => max n k.length) n := by
    intro l
    induction l with
    | nil => simp
    | cons a l ih =>
      intro n
      have := ih (max n a.length)
      refine ⟨Nat.le_trans (Nat.le_max_left _ _) this.1, fun k hk => ?_⟩
      rcases List.mem_cons.mp hk with rfl | hk
      · exact Nat.le_trans (Nat.le_max_right _ _) this.1
      · exact this.2 k hk
  exact (aux ks 0).2 k h

/-- `longest` of tokens that exist is the length of one of them. -/
theorem longest_mem {ks : List (List Byte)} (h : ks ≠ []) : ∃ k ∈ ks, k.length = longest ks := by
  have aux : ∀ (l : List (List Byte)) (n : Nat),
      l.foldl (fun n k => max n k.length) n = n ∨ ∃ k ∈ l, k.length = l.foldl (fun n k => max n k.length) n := by
    intro l
    induction l with
    | nil => simp
    | cons a l ih =>
      intro n
      rcases ih (max n a.length) with h | ⟨k, hk, h⟩
      · rw [List.foldl_cons, h]
        rcases Nat.le_total n a.length with hle | hle
        · exact .inr ⟨a, List.mem_cons_self, by omega⟩
        · exact .inl (by omega)
      · exact .inr ⟨k, List.mem_cons_of_mem _ hk, h⟩
  rcases aux ks 0 with h0 | h1
  · obtain ⟨k, hk⟩ := List.exists_mem_of_ne_nil ks h
    have := le_longest hk
    exact ⟨k, hk, by unfold longest at *; omega⟩
  · exact h1

/-- `lexFirst` is one of the tokens and no token comes before it. -/
theorem lexFirst_spec (k : List Byte) (ks : List (List Byte)) :
    lexFirst k ks ∈ k :: ks ∧ ∀ k' ∈ k :: ks, k' = lexFirst k ks ∨ lexLt (lexFirst k ks) k' = true := by
  unfold lexFirst
  induction ks generalizing k with
  | nil => simp
  | cons a ks ih =>
    rw [List.foldl_cons]
    split
    · next h =>
      obtain ⟨hm, hall⟩ := ih a
      refine ⟨List.mem_cons_of_mem _ hm, fun k' hk' => ?_⟩
      rcases List.mem_cons.mp hk' with rfl | hk'
      · rcases hall a List.mem_cons_self with heq | hlt
        · exact .inr (heq ▸ h)
        · exact .inr (lexLt_trans hlt h)
      · exact hall k' hk'
    · next h =>
      obtain ⟨hm, hall⟩ := ih k
      refine ⟨?_, fun k' hk' => ?_⟩
      · rcases List.mem_cons.mp hm with hm | hm
        · rw [hm]; exact List.mem_cons_self
        · exact List.mem_cons_of_mem _ (List.mem_cons_of_mem _ hm)
      · rcases List.mem_cons.mp hk' with rfl | hk'
        · exact hall _ List.mem_cons_self
        · rcases List.mem_cons.mp hk' with rfl | hk'
          · rcases lexLt_total k' k with heq | hlt | hlt
            · exact heq ▸ hall k List.mem_cons_self
            · exact absurd hlt h
            · rcases hall k List.mem_cons_self with heq | hlt'
              · exact .inr (heq ▸ hlt)
              · exact .inr (lexLt_trans hlt' hlt)
          · exact hall k' (List.mem_cons_of_mem _ hk')

/-- `leastId` is one of the ids and no id is smaller. -/
theorem leastId_spec (i : BitVec 16) (is : List (BitVec 16)) :
    leastId i is ∈ i :: is ∧ ∀ j ∈ i :: is, (leastId i is).toNat ≤ j.toNat := by
  unfold leastId
  induction is generalizing i with
  | nil => simp
  | cons a is ih =>
    rw [List.foldl_cons]
    split
    · next h =>
      obtain ⟨hm, hall⟩ := ih a
      refine ⟨List.mem_cons_of_mem _ hm, fun j hj => ?_⟩
      rcases List.mem_cons.mp hj with rfl | hj
      · have := hall a List.mem_cons_self; omega
      · exact hall j hj
    · next h =>
      obtain ⟨hm, hall⟩ := ih i
      refine ⟨?_, fun j hj => ?_⟩
      · rcases List.mem_cons.mp hm with hm | hm
        · rw [hm]; exact List.mem_cons_self
        · exact List.mem_cons_of_mem _ (List.mem_cons_of_mem _ hm)
      · rcases List.mem_cons.mp hj with rfl | hj
        · exact hall _ List.mem_cons_self
        · rcases List.mem_cons.mp hj with rfl | hj
          · have := hall i List.mem_cons_self; omega
          · exact hall j (List.mem_cons_of_mem _ hj)

/-- The only error of findByNameToken is NoMatch. -/
theorem findByNameToken_error {r : Registry} {text : List Byte} {e : ErrKind}
    (h : findByNameToken r text = .error e) : e = .noMatch := by
  simp only [findByNameToken] at h
  split at h
  · cases h; rfl
  · split at h
    · cases h; rfl
    · cases h

end Sys2Proof.Machine
end

