-- ==== Sys2Proof/Laws/Geometry.lean ====
section
/-! SUPPORT. Laws of the geometry calculator: what a geometry that succeeds tells, and that its sizes fit the registers. -/

namespace Sys2Proof.Machine

theorem parityBad_iff (w h : Nat) (d : Descriptor) : parityBad w h d = true ↔ ParityForbidden w h d := by
  simp [parityBad, ParityForbidden, or_assoc]

theorem tileBad_iff (w h : Nat) (d : Descriptor) : tileBad w h d = true ↔ TileForbidden w h d := by
  have zero : ∀ x : BitVec 16, x.toNat = 0 ↔ x = 0#16 := fun x => by rw [← BitVec.toNat_inj]; simp
  simp [tileBad, TileForbidden, zero, Nat.dvd_iff_mod_eq_zero, or_assoc]

/-- The one inversion of `geom`: when it succeeds, no check failed, and the record is the one of R130. -/
theorem geom_ok {cap w h : Nat} {d : Descriptor} {g : Geometry} (hg : geom cap w h d = .ok g) :
    w ≠ 0 ∧ h ≠ 0 ∧ ¬ ParityForbidden w h d ∧ ¬ TileForbidden w h d ∧
      ∃ raw, rawBytes d.pack (w * h + 2 * chromaSrc d.subs (w * h)) = some raw ∧ g = geometryRecord w h d raw ∧
        g.alloc ≤ cap := by
  unfold geom at hg
  rw [← parityBad_iff, ← tileBad_iff]
  split at hg
  · cases hg
  · next h0 =>
    split at hg
    · cases hg
    · next hp =>
      split at hg
      · cases hg
      · next ht =>
        split at hg
        · cases hg
        · next raw hraw =>
          split at hg
          · cases hg
          · next hcap =>
            cases hg
            exact ⟨fun e => h0 (.inl e), fun e => h0 (.inr e), hp, ht, raw, hraw, rfl, Nat.le_of_not_gt hcap⟩

/-- A tiled descriptor's conditions at a size that passes them (43_tile.md R185). -/
theorem tile_conditions {w h : Nat} {d : Descriptor} (hf : d.fam = .tiled) (ht : ¬ TileForbidden w h d) :
    1 ≤ d.tw.toNat ∧ 1 ≤ d.th.toNat ∧ w % d.tw.toNat = 0 ∧ h % d.th.toNat = 0 ∧ (h / 2) % d.th.toNat = 0 := by
  rw [← tileBad_iff] at ht
  simp only [tileBad, hf, beq_self_eq_true, Bool.true_and, Bool.or_eq_true, beq_iff_eq, bne_iff_ne, not_or,
    not_not] at ht
  omega

theorem even_width {w h : Nat} {d : Descriptor} (hs : d.subs = .s420 ∨ d.subs = .s422)
    (hp : ¬ ParityForbidden w h d) : w % 2 = 0 := by
  unfold ParityForbidden at hp
  have : ¬ w % 2 = 1 := fun e => hp (.inl ⟨hs, e⟩)
  omega

theorem even_height {w h : Nat} {d : Descriptor} (hs : d.subs = .s420) (hp : ¬ ParityForbidden w h d) : h % 2 = 0 := by
  unfold ParityForbidden at hp
  have : ¬ h % 2 = 1 := fun e => hp (.inr (.inl ⟨hs, e⟩))
  omega

theorem even_mixed {w h : Nat} {d : Descriptor} (hf : d.fam = .mixed) (hp : ¬ ParityForbidden w h d) :
    w % 2 = 0 ∧ h % 2 = 0 := by
  unfold ParityForbidden at hp
  have : ¬ (w % 2 = 1 ∨ h % 2 = 1) := fun e => hp (.inr (.inr ⟨hf, e⟩))
  omega

/-- A quarter of an even by even area. -/
theorem quarter_area {w h : Nat} (hw : w % 2 = 0) (hh : h % 2 = 0) : w * h / 4 = (w / 2) * (h / 2) := by
  obtain ⟨a, rfl⟩ := Nat.dvd_of_mod_eq_zero hw
  obtain ⟨b, rfl⟩ := Nat.dvd_of_mod_eq_zero hh
  have : 2 * a * (2 * b) = 4 * (a * b) := by ring
  simp [this]

/-- Half of an area of even width. -/
theorem half_area {w : Nat} (h : Nat) (hw : w % 2 = 0) : w * h / 2 = (w / 2) * h := by
  obtain ⟨a, rfl⟩ := Nat.dvd_of_mod_eq_zero hw
  simp [Nat.mul_assoc]

theorem chromaSrc_le (subs : Subsampling) (pix : Nat) : chromaSrc subs pix ≤ pix := by
  cases subs <;> simp [chromaSrc] <;> omega

theorem chromaOut_le (d : Descriptor) (pix : Nat) : chromaOut d pix ≤ pix := by
  have := chromaSrc_le d.subs pix
  unfold chromaOut
  split <;> omega

/-- With 16-bit sizes every value of a geometry fits its register (10_state.md R41). -/
theorem geometry_fits {cap : Nat} {w h : BitVec 16} {d : Descriptor} {g : Geometry}
    (hg : geom cap w.toNat h.toNat d = .ok g) :
    g.pix < 2 ^ 36 ∧ g.y < 2 ^ 36 ∧ g.csrc < 2 ^ 36 ∧ g.cout < 2 ^ 36 ∧ g.r8 < 2 ^ 36 ∧ g.raw < 2 ^ 36 := by
  obtain ⟨-, -, -, -, raw, hraw, rfl, -⟩ := geom_ok hg
  have hpix : w.toNat * h.toNat < 2 ^ 32 := by
    have := Nat.mul_lt_mul'' w.isLt h.isLt
    simpa using this
  have h1 := chromaSrc_le d.subs (w.toNat * h.toNat)
  have h2 := chromaOut_le d (w.toNat * h.toNat)
  simp only [geometryRecord]
  unfold rawBytes at hraw
  split at hraw
  · cases hraw; omega
  · cases hraw; omega
  · split at hraw
    · cases hraw
    · cases hraw; omega

/-- A frame has at least one source byte (41_geometry.md R143 (g)). -/
theorem raw_pos {cap w h : Nat} {d : Descriptor} {g : Geometry} (hg : geom cap w h d = .ok g) : 1 ≤ g.raw := by
  obtain ⟨hw, hh, -, -, raw, hraw, rfl, -⟩ := geom_ok hg
  have hpix : 0 < w * h := Nat.mul_pos (Nat.pos_of_ne_zero hw) (Nat.pos_of_ne_zero hh)
  simp only [geometryRecord]
  unfold rawBytes at hraw
  split at hraw
  · cases hraw; omega
  · cases hraw; omega
  · split at hraw
    · cases hraw
    · cases hraw; omega

/-- The output chroma never exceeds its store (41_geometry.md R143 (c)). -/
theorem view_le_store {cap w h : Nat} {d : Descriptor} {g : Geometry} (hg : geom cap w h d = .ok g) (p : Plane) :
    g.viewSize p ≤ g.storeSize p := by
  obtain ⟨-, -, -, -, raw, -, rfl, -⟩ := geom_ok hg
  cases p <;> simp [Geometry.viewSize, Geometry.storeSize, geometryRecord]

/-- The one inversion of a context's geometry (10_state.md R40). -/
theorem contextGeometry_ok {cfg : Config} {c : Context} {d : Descriptor} {g : Geometry} :
    contextGeometry cfg c = .ok (d, g) ↔
      registryFind cfg.registry c.fid = some d ∧ geom cfg.fbCapacity c.w.toNat c.h.toNat d = .ok g := by
  unfold contextGeometry lookup
  cases hf : registryFind cfg.registry c.fid with
  | none => simp
  | some d' =>
    cases hg : geom cfg.fbCapacity c.w.toNat c.h.toNat d' with
    | error e =>
      simp only [hg]
      constructor
      · intro h; cases h
      · rintro ⟨h, h'⟩; cases h; rw [hg] at h'; cases h'
    | ok g' =>
      simp only [hg]
      constructor
      · intro h; cases h; exact ⟨rfl, hg⟩
      · rintro ⟨h, h'⟩; cases h; rw [hg] at h'; cases h'; rfl

end Sys2Proof.Machine
end

