-- ==== Sys2Proof/Laws/Unpack.lean ====
section
/-! SUPPORT. Laws of the converter and the unpackers: how long each sequence is, and its elements. -/

namespace Sys2Proof.Machine

@[simp] theorem loose_length (b : List Byte) (n : Nat) : (loose b n).length = n := by simp [loose]

@[simp] theorem compact_length (b : List Byte) (n : Nat) : (compact b n).length = n := by simp [compact]

@[simp] theorem strided_length (s : List Byte) (start stride n : Nat) : (strided s start stride n).length = n := by
  simp [strided]

theorem strided_getElem? (s : List Byte) {start stride n i : Nat} (h : i < n) :
    (strided s start stride n)[i]? = some (byteAt s (start + stride * i)) := by
  simp [strided, h]

@[simp] theorem detile_length (buf : List Byte) (base W H tw th : Nat) : (detile buf base W H tw th).length = W * H := by
  simp [detile]

/-- The raster byte (x, y) of a detiled region (43_tile.md R181). -/
theorem detile_getElem? (buf : List Byte) (base : Nat) {W H : Nat} (tw th : Nat) {x y : Nat} (hx : x < W) (hy : y < H) :
    (detile buf base W H tw th)[y * W + x]? = some (byteAt buf (base + taddr x y W tw th)) := by
  have hlt : y * W + x < W * H := by
    have : (y + 1) * W ≤ H * W := Nat.mul_le_mul_right W hy
    have h1 : (y + 1) * W = y * W + W := by ring
    have h2 : H * W = W * H := Nat.mul_comm H W
    omega
  have hmod : (y * W + x) % W = x := by
    rw [Nat.mul_comm, Nat.mul_add_mod, Nat.mod_eq_of_lt hx]
  have hdiv : (y * W + x) / W = y := by
    rw [Nat.mul_comm, Nat.mul_add_div (by omega), Nat.div_eq_of_lt hx, Nat.add_zero]
  simp [detile, hlt, hmod, hdiv]

@[simp] theorem downsample_length_s422 (w h : Nat) (p : List Byte) :
    (downsample .s422 w h p).length = (w / 2) * (h / 2) := by simp [downsample]

@[simp] theorem downsample_length_s444 (w h : Nat) (p : List Byte) :
    (downsample .s444 w h p).length = (w / 2) * (h / 2) := by simp [downsample]

/-- A frame's R8 has one byte per sample (44_decode.md R200). -/
theorem toR8_length {cap w h : Nat} {d : Descriptor} {g : Geometry} (hg : geom cap w h d = .ok g) {src : List Byte}
    (hs : src.length = g.raw) : (toR8 d.pack src g.r8).length = g.r8 := by
  obtain ⟨-, -, -, -, raw, hraw, rfl, -⟩ := geom_ok hg
  unfold toR8
  split
  · next hp =>
    rw [hp] at hraw
    simp only [rawBytes, Option.some.injEq] at hraw
    simp only [geometryRecord] at *
    simp; omega
  · simp
  · simp

theorem orderChroma_y (co : ChromaOrder) (y p1 p2 : List Byte) : (orderChroma co y p1 p2).y = y := by
  cases co <;> rfl

/-- Two runs of one length stay so in either order. -/
theorem orderChroma_lengths (co : ChromaOrder) (y p1 p2 : List Byte) {n : Nat} (h1 : p1.length = n) (h2 : p2.length = n) :
    (orderChroma co y p1 p2).cb.length = n ∧ (orderChroma co y p1 p2).cr.length = n := by
  cases co <;> exact ⟨by assumption, by assumption⟩

/-- The planes of a planar frame. -/
theorem unpackPlanar_lengths (d : Descriptor) (w h : Nat) (g : Geometry) {r8 : List Byte}
    (hr : r8.length = w * h + 2 * g.csrc) :
    (unpackPlanar d w h g r8).y.length = w * h ∧ (unpackPlanar d w h g r8).cb.length = g.csrc ∧
      (unpackPlanar d w h g r8).cr.length = g.csrc := by
  unfold unpackPlanar
  refine ⟨by simp [orderChroma_y]; omega, orderChroma_lengths _ _ _ _ ?_ ?_⟩ <;> simp <;> omega

/-- The planes of every family have the sizes of the geometry (44_decode.md R191). -/
theorem unpack_lengths {cap w h : Nat} {d : Descriptor} {g : Geometry} (hd : d.wf = true)
    (hg : geom cap w h d = .ok g) {r8 : List Byte} (hr : r8.length = g.r8) :
    (unpack d w h g r8).y.length = g.y ∧ (unpack d w h g r8).cb.length = g.cout ∧
      (unpack d w h g r8).cr.length = g.cout := by
  obtain ⟨-, -, hp, -, raw, -, hrec, -⟩ := geom_ok hg
  have hy : g.y = w * h := by rw [hrec]; rfl
  have hr8 : g.r8 = w * h + 2 * g.csrc := by rw [hrec]; rfl
  have hcsrc : g.csrc = chromaSrc d.subs (w * h) := by rw [hrec]; rfl
  have hcout : g.cout = chromaOut d (w * h) := by rw [hrec]; rfl
  rw [hr8] at hr
  rw [hy]
  unfold unpack
  cases hf : d.fam with
  | planar =>
    have : g.cout = g.csrc := by simp [hcout, hcsrc, chromaOut, hf]
    rw [this]
    exact unpackPlanar_lengths d w h g hr
  | semi =>
    have : g.cout = g.csrc := by simp [hcout, hcsrc, chromaOut, hf]
    rw [this]
    refine ⟨?_, orderChroma_lengths _ _ _ _ (by simp) (by simp)⟩
    simp [unpackSemi, splitChroma, orderChroma_y]; omega
  | packed422 =>
    have : g.cout = g.csrc := by simp [hcout, hcsrc, chromaOut, hf]
    rw [this]
    simp [unpackPacked]
  | tiled =>
    have : g.cout = g.csrc := by simp [hcout, hcsrc, chromaOut, hf]
    rw [this]
    refine ⟨?_, orderChroma_lengths _ _ _ _ (by simp) (by simp)⟩
    simp [unpackTiled, splitChroma, orderChroma_y]
  | mixed =>
    obtain ⟨hw, hh⟩ := even_mixed hf hp
    have hco : g.cout = (w / 2) * (h / 2) := by
      rw [hcout, ← quarter_area hw hh]; simp [chromaOut, hf]
    have hy := (unpackPlanar_lengths d w h g hr).1
    have hs : d.subs = .s422 ∨ d.subs = .s444 := by
      simp only [Descriptor.wf, Bool.and_eq_true] at hd
      have := hd.1.1.1.2
      simpa [Descriptor.wfSubs, hf] using this
    rw [hco]
    rcases hs with hs | hs <;> simp [unpackMixed, hs, hy]
  | mono =>
    simp [unpackMono]; omega

end Sys2Proof.Machine
end

