-- ==== Sys2Proof/Laws/Exec.lean ====
section
/-! SUPPORT. Everything a command, a transaction and a step can do, said once: inversion lemmas that later proofs cite
instead of unfolding the meanings. -/

namespace Sys2Proof.Machine

/-! ### DECODE's decision -/

theorem decodeAction_frame {s : State} {ctx : Option Context} {d : Descriptor} {w h : Nat} {g : Geometry} :
    s.decodeAction ctx = .frame d w h g ↔ ∃ c, ctx = some c ∧ contextGeometry s.cfg c = .ok (d, g) ∧
      w = c.w.toNat ∧ h = c.h.toNat ∧ g.raw ≤ s.fifo.length := by
  unfold State.decodeAction
  cases ctx with
  | none => simp
  | some c =>
    cases hc : contextGeometry s.cfg c with
    | error e => simp [hc]
    | ok dg =>
      obtain ⟨d', g'⟩ := dg
      simp only [Option.some.injEq, exists_eq_left', hc, Except.ok.injEq, Prod.mk.injEq]
      split
      · simp only [DecodeAction.frame.injEq]
        constructor
        · rintro ⟨rfl, rfl, rfl, rfl⟩; exact ⟨⟨rfl, rfl⟩, rfl, rfl, by assumption⟩
        · rintro ⟨⟨rfl, rfl⟩, rfl, rfl, -⟩; exact ⟨rfl, rfl, rfl, rfl⟩
      · next hlt =>
        have hr : ¬ (g' = g ∧ g.raw ≤ s.fifo.length) := fun hh => hlt (hh.1 ▸ hh.2)
        split <;> (simp only [reduceCtorEq, false_iff]; rintro ⟨⟨-, hgg⟩, -, -, hl⟩; exact hr ⟨hgg, hl⟩)

theorem decodeAction_short {s : State} {ctx : Option Context} (h : s.decodeAction ctx = .shortRead) :
    ∃ c d g, ctx = some c ∧ contextGeometry s.cfg c = .ok (d, g) ∧ s.fifo.length < g.raw ∧ s.eof = true := by
  unfold State.decodeAction at h
  cases ctx with
  | none => cases h
  | some c =>
    cases hc : contextGeometry s.cfg c with
    | error e => simp [hc] at h
    | ok dg =>
      obtain ⟨d, g⟩ := dg
      simp only [hc] at h
      split at h
      · cases h
      · split at h
        · exact ⟨c, d, g, rfl, hc, by omega, by assumption⟩
        · cases h

/-- The decision for a context whose geometry is known (44_decode.md R212). -/
theorem decodeAction_of {s : State} {c : Context} {d : Descriptor} {g : Geometry}
    (hc : contextGeometry s.cfg c = .ok (d, g)) : s.decodeAction (some c) =
      if g.raw ≤ s.fifo.length then .frame d c.w.toNat c.h.toNat g else if s.eof then .shortRead else .wait := by
  simp [State.decodeAction, hc]

theorem decodeAction_fail {s : State} {ctx : Option Context} {e : ErrKind} (h : s.decodeAction ctx = .fail e) :
    (ctx = none ∧ e = .noGeometry) ∨ ∃ c, ctx = some c ∧ contextGeometry s.cfg c = .error e := by
  unfold State.decodeAction at h
  cases ctx with
  | none => cases h; exact .inl ⟨rfl, rfl⟩
  | some c =>
    cases hc : contextGeometry s.cfg c with
    | error e' => simp only [hc] at h; cases h; exact .inr ⟨c, rfl, hc⟩
    | ok dg =>
      obtain ⟨d, g⟩ := dg
      simp only [hc] at h
      split at h
      · cases h
      · split at h <;> cases h

/-! ### Commands -/

theorem execNop_cases {s t : State} (h : exec .nop s = .next t) : t = s.completeSuccess := by
  cases h; rfl

theorem execSreset_cases {s t : State} (h : exec .sreset s = .next t) : t = s.resetEvent := by
  cases h; rfl

/-- LOOKUP: the descriptor words of an entry, or UnsupportedFormat (40_registry.md R117). -/
theorem execLookup_cases {s t : State} (h : exec .lookup s = .next t) :
    (∃ d, registryFind s.cfg.registry (s.operandsFor .lookup).fid = some d ∧
      t = ({ s with desc0 := enc0 d, desc1 := enc1 d } : State).completeSuccess) ∨
    (registryFind s.cfg.registry (s.operandsFor .lookup).fid = none ∧ t = s.completeError .unsupportedFormat) := by
  simp only [exec, execLookup, lookup] at h
  cases hf : registryFind s.cfg.registry (s.operandsFor .lookup).fid with
  | none => simp only [hf] at h; cases h; exact .inr ⟨rfl, rfl⟩
  | some d => simp only [hf] at h; cases h; exact .inl ⟨d, rfl, rfl⟩

/-- FINDNAME: the id found, or NoMatch (40_registry.md R118). -/
theorem execFindname_cases {s t : State} (h : exec .findname s = .next t) :
    (∃ fid, findByNameToken s.cfg.registry (s.operandsFor .findname).text = .ok fid ∧
      t = ({ s with resultId := fid } : State).completeSuccess) ∨
    (findByNameToken s.cfg.registry (s.operandsFor .findname).text = .error .noMatch ∧
      t = s.completeError .noMatch) := by
  simp only [exec, execFindname] at h
  cases hf : findByNameToken s.cfg.registry (s.operandsFor .findname).text with
  | error e =>
    have := findByNameToken_error hf
    subst this
    simp only [hf] at h; cases h; exact .inr ⟨rfl, rfl⟩
  | ok fid => simp only [hf] at h; cases h; exact .inl ⟨fid, rfl, rfl⟩

/-- GEOM: a context installed, or an error that writes STATUS only (41_geometry.md R139, R142). -/
theorem execGeom_cases {s t : State} (h : exec .geom s = .next t) :
    (∃ c d g n, contextGeometry s.cfg c = .ok (d, g) ∧ t = (s.installContext c g n).completeSuccess) ∨
    ∃ e, t = s.completeError e := by
  simp only [exec, execGeom] at h
  split at h
  · next e he => cases h; exact .inr ⟨e, rfl⟩
  · next d g hg => cases h; exact .inl ⟨_, d, g, _, hg, rfl⟩

/-- DECODE: an error, one frame, a short read, or a wait (44_decode.md R212). -/
theorem execDecode_cases {s t : State} (h : exec .decode s = .next t) :
    (∃ e, s.decodeAction (s.operandsFor .decode).ctx = .fail e ∧ t = s.completeError e) ∨
    (∃ c d g, (s.operandsFor .decode).ctx = some c ∧ contextGeometry s.cfg c = .ok (d, g) ∧ g.raw ≤ s.fifo.length ∧
      t = ({ (s.srcTake g.raw).2 with
        fb := s.fb.filled (decodeFrame d c.w.toNat c.h.toNat g (s.fifo.take g.raw)).1
          (decodeFrame d c.w.toNat c.h.toNat g (s.fifo.take g.raw)).2,
        status := s.status.validated } : State).completeSuccess) ∨
    (s.decodeAction (s.operandsFor .decode).ctx = .shortRead ∧
      t = (s.srcTake s.fifo.length).2.completeError .shortRead) ∨
    (s.decodeAction (s.operandsFor .decode).ctx = .wait ∧ t = s) := by
  simp only [exec, execDecode] at h
  split at h
  · next e he => cases h; exact .inl ⟨e, he, rfl⟩
  · next d w h' g hf =>
    obtain ⟨c, hc, hg, rfl, rfl, hl⟩ := decodeAction_frame.mp hf
    cases h
    exact .inr (.inl ⟨c, d, g, hc, hg, hl, rfl⟩)
  · next hf => cases h; exact .inr (.inr (.inl ⟨hf, rfl⟩))
  · next hf => cases h; exact .inr (.inr (.inr ⟨hf, rfl⟩))

/-- The runs of a decoded frame have the view sizes (44_decode.md R191, R215). -/
theorem frameRun_length {cfg : Config} {c : Context} {d : Descriptor} {g : Geometry} (hcfg : cfg.wf = true)
    (hg : contextGeometry cfg c = .ok (d, g)) {src : List Byte} (hs : src.length = g.raw) (p : Plane) :
    (frameRun (decodeFrame d c.w.toNat c.h.toNat g src).1 (decodeFrame d c.w.toNat c.h.toNat g src).2 p).length =
      g.viewSize p := by
  obtain ⟨hf, hgeom⟩ := contextGeometry_ok.mp hg
  have h1 := toR8_length hgeom hs
  have h2 := unpack_lengths (descriptor_wf hcfg hf) hgeom h1
  cases p
  · exact h1
  · exact h2.1
  · exact h2.2.1
  · exact h2.2.2

/-- A DECODE whose frame is in the FIFO (44_decode.md R213, R215). -/
theorem execDecode_frame {s : State} {c : Context} {d : Descriptor} {g : Geometry}
    (ho : (s.operandsFor .decode).ctx = some c) (hg : contextGeometry s.cfg c = .ok (d, g))
    (hl : g.raw ≤ s.fifo.length) : exec .decode s = .next { s with
      fb := s.fb.filled (decodeFrame d c.w.toNat c.h.toNat g (s.fifo.take g.raw)).1
        (decodeFrame d c.w.toNat c.h.toNat g (s.fifo.take g.raw)).2,
      fifo := s.fifo.drop g.raw, srcPos := s.srcPos + BitVec.ofNat 64 g.raw, latch := none,
      status := s.status.validated.succeeded } := by
  simp [exec, execDecode, ho, decodeAction_of hg, hl, State.srcTake, State.completeSuccess]

/-- Every command answers a next state, in every state. -/
theorem exec_total (i : Instr) (s : State) : ∃ t, exec i s = .next t := by
  cases i with
  | nop => exact ⟨_, rfl⟩
  | sreset => exact ⟨_, rfl⟩
  | lookup => simp only [exec, execLookup]; split <;> exact ⟨_, rfl⟩
  | findname => simp only [exec, execFindname]; split <;> exact ⟨_, rfl⟩
  | geom => simp only [exec, execGeom]; split <;> exact ⟨_, rfl⟩
  | decode => simp only [exec, execDecode]; split <;> exact ⟨_, rfl⟩

/-! ### Transactions -/

/-- Every host transaction answers a next state, in every state. -/
theorem transact_total (t : Transaction) (s : State) : ∃ u, State.transact t s = .next u := by
  cases t with
  | csrWr i v =>
    simp only [State.transact, State.cmdRequest, execSreset]
    split
    · split
      · exact ⟨_, rfl⟩
      · split <;> exact ⟨_, rfl⟩
    · exact ⟨_, rfl⟩
  | csrRd i => exact ⟨_, rfl⟩
  | nameWr i b => exact ⟨_, rfl⟩
  | nameRd i => exact ⟨_, rfl⟩
  | fbRd p i => exact ⟨_, rfl⟩
  | srcPush b => exact ⟨_, rfl⟩
  | srcEof => exact ⟨_, rfl⟩
  | srcFlush => exact ⟨_, rfl⟩

/-- A CMD write resets, is dropped, or is accepted (45_control.md R238). -/
theorem cmdWrite_cases {v : Word} {s t : State} (h : State.transact (.csrWr cmdIndex v) s = .next t) :
    (v = encode .sreset ∧ t = ({ s with ret := .none } : State).resetEvent) ∨
    (v ≠ encode .sreset ∧ s.status.busy = true ∧ t = { s with ret := .none, status := s.status.dropped }) ∨
    (v ≠ encode .sreset ∧ s.status.busy = false ∧ t = ({ s with ret := .none } : State).accept v) := by
  simp only [State.transact, State.cmdRequest, execSreset, if_true] at h
  split at h
  · next hv => cases h; exact .inl ⟨hv, rfl⟩
  · next hv =>
    split at h
    · next hb => cases h; exact .inr (.inl ⟨hv, hb, rfl⟩)
    · next hb => cases h; exact .inr (.inr ⟨hv, by simpa using hb, rfl⟩)

/-- FB_RD gives the byte of the view, or marks the run (45_control.md R243, R244). -/
theorem fbRead_cases (p : Plane) (i : Nat) (s : State) :
    (∃ b, s.viewByte p i = some b ∧ s.fbRead p i = { s with ret := .byte b }) ∨
    (s.viewByte p i = none ∧ s.fbRead p i = { s with ret := .none, faultMark := true }) := by
  unfold State.fbRead State.viewByte
  split
  · cases hb : s.fb.read p i with
    | none => exact .inr ⟨rfl, rfl⟩
    | some b => exact .inl ⟨b, rfl, rfl⟩
  · exact .inr ⟨rfl, rfl⟩

/-- Everything a host transaction can do: a CMD write, a read of the frame buffer, a byte or a flush of the source, or
nothing to the fields that statements about runs speak of (45_control.md R235). -/
theorem transact_cases {s t : State} {op : Transaction} (h : State.transact op s = .next t) :
    (∃ v, op = .csrWr cmdIndex v ∧
      ((v = encode .sreset ∧ t = ({ s with ret := .none } : State).resetEvent) ∨
       (v ≠ encode .sreset ∧ s.status.busy = true ∧ t = { s with ret := .none, status := s.status.dropped }) ∨
       (v ≠ encode .sreset ∧ s.status.busy = false ∧ t = ({ s with ret := .none } : State).accept v))) ∨
    (∃ p i, op = .fbRd p i ∧ ((∃ b, s.viewByte p i = some b ∧ t = { s with ret := .byte b }) ∨
      (s.viewByte p i = none ∧ t = { s with ret := .none, faultMark := true }))) ∨
    (∃ b, op = .srcPush b ∧ t = { s with ret := .none, fifo := s.fifo ++ [b] }) ∨
    (op = .srcFlush ∧ t = { s with ret := .none, fifo := [], eof := false }) ∨
    (t.status = s.status ∧ t.fb = s.fb ∧ t.ctx = s.ctx ∧ t.fifo = s.fifo ∧ t.srcPos = s.srcPos ∧
      t.faultMark = s.faultMark ∧ t.latch = s.latch ∧ t.cfg = s.cfg) := by
  cases op with
  | csrWr i v =>
    by_cases hi : i = cmdIndex
    · subst hi; exact .inl ⟨v, rfl, cmdWrite_cases h⟩
    · simp only [State.transact, hi, if_false, Host.Outcome.next.injEq] at h
      subst h; exact .inr (.inr (.inr (.inr (by simp))))
  | fbRd p i =>
    simp only [State.transact, Host.Outcome.next.injEq] at h
    rcases fbRead_cases p i s with ⟨b, hb, h'⟩ | ⟨hb, h'⟩
    · exact .inr (.inl ⟨p, i, rfl, .inl ⟨b, hb, by rw [← h, h']⟩⟩)
    · exact .inr (.inl ⟨p, i, rfl, .inr ⟨hb, by rw [← h, h']⟩⟩)
  | srcPush b => cases h; exact .inr (.inr (.inl ⟨b, rfl, rfl⟩))
  | srcFlush =>
    simp only [State.transact, State.srcFlush, Host.Outcome.next.injEq] at h
    split at h
    · subst h; exact .inr (.inr (.inr (.inr ⟨rfl, rfl, rfl, rfl, rfl, rfl, rfl, rfl⟩)))
    · subst h; exact .inr (.inr (.inr (.inl ⟨rfl, rfl⟩)))
  | csrRd i => cases h; exact .inr (.inr (.inr (.inr ⟨rfl, rfl, rfl, rfl, rfl, rfl, rfl, rfl⟩)))
  | nameWr i b => cases h; exact .inr (.inr (.inr (.inr ⟨rfl, rfl, rfl, rfl, rfl, rfl, rfl, rfl⟩)))
  | nameRd i => cases h; exact .inr (.inr (.inr (.inr ⟨rfl, rfl, rfl, rfl, rfl, rfl, rfl, rfl⟩)))
  | srcEof => cases h; exact .inr (.inr (.inr (.inr ⟨rfl, rfl, rfl, rfl, rfl, rfl, rfl, rfl⟩)))

/-! ### Steps -/

/-- The engine's turn: idle, an illegal word, a command, or no command to run (45_control.md R239). -/
theorem engineStep_cases {s t : State} (h : s.engineStep = .next t) :
    (s.status.busy = false ∧ t = s) ∨
    (s.status.busy = true ∧ ∃ l, s.latch = some l ∧
      (((∃ e, decode l.op = .error e) ∨ decode l.op = .ok .sreset) ∧ t = s.completeError .illegalCommand ∨
       ∃ i, i ≠ .sreset ∧ decode l.op = .ok i ∧ exec i s = .next t)) := by
  unfold State.engineStep at h
  split at h
  · next hb =>
    split at h
    · cases h
    · next l hl =>
      refine .inr ⟨hb, l, hl, ?_⟩
      split at h
      · next e he => cases h; exact .inl ⟨.inl ⟨e, he⟩, rfl⟩
      · next i hi =>
        split at h
        · next hs => cases h; exact .inl ⟨.inr (hs ▸ hi), rfl⟩
        · next hs => exact .inr ⟨i, hs, hi, h⟩
  · next hb => cases h; exact .inl ⟨by simpa using hb, rfl⟩

/-- The host's turn: nothing left, a transaction, or a read of STATUS by a poll. -/
theorem hostStep_cases {s t : State} (h : s.hostStep = .next t) :
    (s.host = [] ∧ t = s) ∨
    (∃ op rest, s.host = .tx op :: rest ∧ State.transact op { s with host := rest } = .next t) ∨
    (∃ rest, s.host = .poll :: rest ∧ s.status.busy = true ∧ t = { s with ret := .word (s.csrRead statusIndex) }) ∨
    (∃ rest, s.host = .poll :: rest ∧ s.status.busy = false ∧
      t = { s with host := rest, ret := .word (s.csrRead statusIndex) }) := by
  unfold State.hostStep at h
  split at h
  · next hh => cases h; exact .inl ⟨hh, rfl⟩
  · next op rest hh => exact .inr (.inl ⟨op, rest, hh, h⟩)
  · next rest hh =>
    split at h
    · next hb => cases h; exact .inr (.inr (.inl ⟨rest, hh, hb, rfl⟩))
    · next hb => cases h; exact .inr (.inr (.inr ⟨rest, hh, by simpa using hb, rfl⟩))

/-- A step is one agent's step, in a state whose configuration is well-formed. -/
theorem step_cases {s t : State} (h : step s = .next t) : s.cfg.wf = true ∧
    ((s.nextAgent = .engine ∧ s.turnTaken.engineStep = .next t) ∨
     (s.nextAgent = .host ∧ s.turnTaken.hostStep = .next t)) := by
  unfold step State.agentStep at h
  split at h
  · next hw =>
    refine ⟨hw, ?_⟩
    split at h
    · next ha => exact .inl ⟨ha, h⟩
    · next ha => exact .inr ⟨ha, h⟩
  · cases h

/-- Every form a step takes, by agent: the engine idles, rejects an illegal word or runs a command; the host does nothing,
reads STATUS in a poll, or takes its next transaction (45_control.md R235, R239). -/
theorem step_forms {s t : State} (h : step s = .next t) :
    (s.nextAgent = .engine ∧ (t = s.turnTaken ∨ ∃ l, s.latch = some l ∧
      (t = s.turnTaken.completeError .illegalCommand ∨
       ∃ i, i ≠ .sreset ∧ decode l.op = .ok i ∧ exec i s.turnTaken = .next t))) ∨
    (s.nextAgent = .host ∧ ((∃ ops r, t = { s.turnTaken with host := ops, ret := r }) ∨
      ∃ op rest, s.host = .tx op :: rest ∧ State.transact op { s.turnTaken with host := rest } = .next t)) := by
  obtain ⟨-, ⟨ha, hx⟩ | ⟨ha, hx⟩⟩ := step_cases h
  · refine .inl ⟨ha, ?_⟩
    rcases engineStep_cases hx with ⟨-, rfl⟩ | ⟨-, l, hl, ⟨-, rfl⟩ | ⟨i, hi, hd, hx⟩⟩
    · exact .inl rfl
    · exact .inr ⟨l, hl, .inl rfl⟩
    · exact .inr ⟨l, hl, .inr ⟨i, hi, hd, hx⟩⟩
  · refine .inr ⟨ha, ?_⟩
    rcases hostStep_cases hx with ⟨-, rfl⟩ | ⟨op, rest, hh, hx⟩ | ⟨rest, -, -, rfl⟩ | ⟨rest, -, -, rfl⟩
    · exact .inl ⟨_, _, rfl⟩
    · exact .inr ⟨op, rest, hh, hx⟩
    · exact .inl ⟨_, _, rfl⟩
    · exact .inl ⟨_, _, rfl⟩

end Sys2Proof.Machine
end

