-- ==== Sys2Proof/Laws/Invariant.lean ====
section
/-! SUPPORT. A check of the invariant that evaluates on a concrete state, and what the invariant says of a DECODE in
flight. -/

namespace Sys2Proof.Machine

/-- A fact about every plane, checked plane by plane. -/
def allPlanes (ok : Plane → Bool) : Bool := ok .raw && ok .y && ok .cb && ok .cr

theorem allPlanes_iff (ok : Plane → Bool) : allPlanes ok = true ↔ ∀ p, ok p = true := by
  constructor
  · intro h p
    simp only [allPlanes, Bool.and_eq_true] at h
    cases p
    · exact h.1.1.1
    · exact h.1.1.2
    · exact h.1.2
    · exact h.2
  · intro h; simp [allPlanes, h]

/-- `State.ContextOk`, evaluated. -/
def State.contextCheck (s : State) : Bool :=
  match s.ctx with
  | none =>
    decide (s.ctxInfo = 0#64 ∧ s.gPix = 0#64 ∧ s.gY = 0#64 ∧ s.gCsrc = 0#64 ∧ s.gCout = 0#64 ∧ s.gR8 = 0#64 ∧
      s.gRaw = 0#64) && allPlanes (fun p => decide ((s.fb.plane p).size = 0)) && !s.status.warnMb && !s.status.warnFsize
  | some c =>
    match contextGeometry s.cfg c with
    | .error _ => false
    | .ok (_, g) =>
      decide (s.ctxInfo = c.info ∧ s.gPix = BitVec.ofNat 64 g.pix ∧ s.gY = BitVec.ofNat 64 g.y ∧
        s.gCsrc = BitVec.ofNat 64 g.csrc ∧ s.gCout = BitVec.ofNat 64 g.cout ∧ s.gR8 = BitVec.ofNat 64 g.r8 ∧
        s.gRaw = BitVec.ofNat 64 g.raw ∧ s.status.warnMb = g.wmb) &&
        allPlanes (fun p => decide ((s.fb.plane p).size = g.storeSize p))

theorem State.contextOk_of_check {s : State} (h : s.contextCheck = true) : s.ContextOk := by
  unfold State.contextCheck at h
  unfold State.ContextOk
  cases hc : s.ctx with
  | none =>
    simp only [hc, Bool.and_eq_true, decide_eq_true_eq, allPlanes_iff, Bool.not_eq_true'] at h
    obtain ⟨⟨⟨⟨h1, h2, h3, h4, h5, h6, h7⟩, h8⟩, h9⟩, h10⟩ := h
    exact ⟨h1, h2, h3, h4, h5, h6, h7, h8, h9, h10⟩
  | some c =>
    simp only [hc] at h
    cases hg : contextGeometry s.cfg c with
    | error e => simp [hg] at h
    | ok dg =>
      simp only [hg, Bool.and_eq_true, decide_eq_true_eq, allPlanes_iff] at h
      obtain ⟨⟨h1, h2, h3, h4, h5, h6, h7, h8⟩, h9⟩ := h
      exact ⟨dg.1, dg.2, hg, h1, h2, h3, h4, h5, h6, h7, h9, h8⟩

/-- `State.LatchOk`, evaluated. -/
def State.latchCheck (s : State) (l : Latch) : Bool :=
  decide (l.op ≠ encode .sreset ∧ s.status.lastop = opcodeField l.op ∧
    l.operands.text.length = l.operands.nameLen.toNat ∧ l.operands.nameLen.toNat ≤ nameMax) &&
  match decode l.op with
  | .ok .decode => decide (l.operands.ctx = s.ctx) && (s.ctx.isNone ||
      (!s.status.valid && allPlanes (fun p => decide ((s.fb.plane p).cells = []))))
  | _ => true

theorem State.latchOk_of_check {s : State} {l : Latch} (h : s.latchCheck l = true) : s.LatchOk l := by
  simp only [State.latchCheck, Bool.and_eq_true, decide_eq_true_eq] at h
  obtain ⟨⟨h1, h2, h3, h4⟩, h5⟩ := h
  refine ⟨h1, h2, h3, h4, fun hd => ?_⟩
  simp only [hd, Bool.and_eq_true, decide_eq_true_eq, Bool.or_eq_true, Bool.not_eq_true', allPlanes_iff] at h5
  refine ⟨h5.1, fun hc => ?_⟩
  rcases h5.2 with h | h
  · exact absurd (Option.isNone_iff_eq_none.mp h) hc
  · exact h

/-- The invariant, evaluated. -/
def State.invCheck (s : State) : Bool :=
  s.cfg.wf && s.status.busy == s.latch.isSome && s.status.ctx == s.ctx.isSome &&
    decide (s.status.err = decide (s.status.errcode ≠ 0#4)) && decide (s.status.errcode.toNat ≤ 8) &&
    (!s.status.busy || (!s.status.done && s.status.errcode == 0#4)) && decide (s.nameLen.toNat ≤ nameMax) &&
    decide (Memory.wf (some 0#8) nameMax s.name) &&
    allPlanes (fun p => decide (Memory.wf none (s.fb.plane p).size (s.fb.plane p).cells)) && s.contextCheck &&
    (!s.status.valid || (s.ctx.isSome &&
      allPlanes (fun p => (List.range (s.viewSize p)).all (fun i => (s.fb.read p i).isSome)))) &&
    (match s.latch with
     | none => true
     | some l => s.latchCheck l)

theorem inv_of_check {s : State} (h : s.invCheck = true) : Inv s := by
  simp only [State.invCheck, Bool.and_eq_true, beq_iff_eq, decide_eq_true_eq, Bool.or_eq_true, Bool.not_eq_true',
    allPlanes_iff] at h
  obtain ⟨⟨⟨⟨⟨⟨⟨⟨⟨⟨⟨h1, h2⟩, h3⟩, h4⟩, h5⟩, h6⟩, h7⟩, h8⟩, h9⟩, h10⟩, h11⟩, h12⟩ := h
  refine ⟨h1, h2, h3, h4, h5, fun hb => ?_, h7, h8, h9, State.contextOk_of_check h10, fun hv => ?_, fun l hl => ?_⟩
  · rcases h6 with h | h
    · rw [hb] at h; cases h
    · exact h
  · rcases h11 with h | ⟨hc, hp⟩
    · rw [hv] at h; cases h
    · refine ⟨Option.isSome_iff_ne_none.mp hc, fun p i hi => ?_⟩
      exact Option.isSome_iff_ne_none.mp (List.all_eq_true.mp (hp p) i (List.mem_range.mpr hi))
  · rw [hl] at h12; exact State.latchOk_of_check h12

end Sys2Proof.Machine
end

