-- ==== Sys2Proof/Laws/PerInstr.lean ====
section
/-! SUPPORT. The statements made per command: its one word decodes back to it, and it is well-formed. -/

namespace Sys2Proof.Laws.RoundTrip

/-- The word of a well-formed command decodes to it, and has no reserved bit set (30_encoding.md R80, R81). -/
def Statement (i : Instr) : Prop := i.wf = true ∧ decode (encode i) = .ok i ∧ rsvdField (encode i) = 0#56

theorem nop : Statement .nop := by refine ⟨rfl, ?_, rfl⟩; rfl
theorem lookup : Statement .lookup := by refine ⟨rfl, ?_, rfl⟩; rfl
theorem findname : Statement .findname := by refine ⟨rfl, ?_, rfl⟩; rfl
theorem geom : Statement .geom := by refine ⟨rfl, ?_, rfl⟩; rfl
theorem decode : Statement .decode := by refine ⟨rfl, ?_, rfl⟩; rfl
theorem sreset : Statement .sreset := by refine ⟨rfl, ?_, rfl⟩; rfl

end Sys2Proof.Laws.RoundTrip
end

