-- ==== Sys2Proof/Tests/Slice0.lean ====
section
/-! SUPPORT. Tests of the model, with expected values from spec/95_test_vectors.md and the rules named, and, for every
statement that has hypotheses, a concrete input that meets them all (witness theorems, named wit_ and the statement). -/

namespace Sys2Proof.Tests

open Sys2Proof.Machine

/-! ### Helpers -/

/-- The bytes 0, 1, …, n − 1. -/
def ramp (n : Nat) : List Byte := (List.range n).map (fun i => BitVec.ofNat 8 i)

/-- The next state of an outcome, and the reset state where there is none. -/
def nextOr (o : Host.Outcome State Fault Refusal) : State :=
  match o with
  | .next t => t
  | _ => State.reset

/-- The outcome is a next state. -/
def isNext (o : Host.Outcome State Fault Refusal) : Bool :=
  match o with
  | .next _ => true
  | _ => false

theorem eq_next {o : Host.Outcome State Fault Refusal} (h : isNext o = true) : o = .next (nextOr o) := by
  cases o with
  | next t => rfl
  | fault f => cases h
  | refused r => cases h

/-- The outcome is the refusal of an ill-formed registry. -/
def isRefusedRegistry (o : Host.Outcome State Fault Refusal) : Bool :=
  match o with
  | .refused .illFormedRegistry => true
  | _ => false

/-- STATUS after the engine has run word `w` from `s`. -/
def statusAfter (s : State) (w : Nat) : Word := (nextOr (step (s.withFetchWord 64 w))).status.word

/-- NAME holding a text, with NAME_LEN. -/
def withText (t : List Char) : State :=
  { State.reset with name := ((ascii t).zipIdx.map (fun p => (p.2, p.1))), nameLen := BitVec.ofNat 9 t.length }

/-- The context NV12 4 × 2. -/
def nv12 : Context := { fid := 4#16, w := 4#16, h := 2#16 }

/-- Idle with the context NV12 4 × 2, nothing decoded. -/
def idle : State :=
  { State.reset with
    status := { Status.reset with done := true, ctx := true, warnMb := true, lastop := 3#8 },
    fmtId := 4#16, width := 4#16, height := 2#16, ctx := some nv12, ctxInfo := nv12.info, gPix := 8#64, gY := 8#64,
    gCsrc := 2#64, gCout := 2#64, gR8 := 12#64, gRaw := 12#64,
    fb := { raw := PlaneStore.undef 12, y := PlaneStore.undef 8, cb := PlaneStore.undef 2, cr := PlaneStore.undef 2 } }

/-- A DECODE in flight with `n` bytes in the FIFO. -/
def inFlight (n : Nat) (eof : Bool) : State := ({ idle with fifo := ramp n, eof := eof } : State).accept (encode .decode)

/-- After a DECODE of the bytes 0 to 11. -/
def decoded : State := nextOr (inFlight 12 false).engineStep

/-- GEOM operands. -/
def sized (fid w h : Nat) (n : Nat) : State :=
  { State.reset with
    fmtId := BitVec.ofNat 16 fid, width := BitVec.ofNat 16 w, height := BitVec.ofNat 16 h, srcSize := BitVec.ofNat 48 n }

/-- The planes an entry of the default registry decodes from the ramp of exactly one frame. -/
def unpacked (fid w h : Nat) : Option Planes :=
  match contextGeometry defaultConfig { fid := BitVec.ofNat 16 fid, w := BitVec.ofNat 16 w, h := BitVec.ofNat 16 h } with
  | .ok (d, g) => some (decodeFrame d w h g (ramp g.raw)).2
  | .error _ => none

/-! ### Well-formedness: one ill-formed term for each condition of 30_encoding.md R93 -/

/-- A well-formed descriptor of each family. -/
def good (fam : Family) : Descriptor :=
  match fam with
  | .packed422 => { plainEntry .packed422 .s422 .cbFirst [] with cboff := 1#2, croff := 3#2 }
  | .planar | .semi | .tiled => plainEntry fam .s420 .cbFirst []
  | .mixed => plainEntry .mixed .s422 .cbFirst []
  | .mono => plainEntry .mono .snone .cbFirst []

theorem test_good_descriptors : [Family.planar, .semi, .packed422, .tiled, .mixed, .mono].all (fun f => (good f).wf) := by
  decide

theorem test_refused_depth_and_packing :
    ({ good .planar with pack := .loose } : Descriptor).wf = false ∧
    ({ good .planar with depth := .ten } : Descriptor).wf = false := by decide

theorem test_refused_subsampling :
    ({ good .planar with subs := .snone } : Descriptor).wf = false ∧
    ({ good .semi with subs := .snone } : Descriptor).wf = false ∧
    ({ good .packed422 with subs := .s420 } : Descriptor).wf = false ∧
    ({ good .tiled with subs := .s422 } : Descriptor).wf = false ∧
    ({ good .mixed with subs := .s420 } : Descriptor).wf = false ∧
    ({ good .mono with subs := .s444 } : Descriptor).wf = false := by decide

theorem test_refused_offsets_and_tiles :
    ({ good .packed422 with yoff := 2#2 } : Descriptor).wf = false ∧
    ({ good .packed422 with croff := 1#2 } : Descriptor).wf = false ∧
    ({ good .planar with yoff := 1#2 } : Descriptor).wf = false ∧
    ({ good .mono with cboff := 1#2 } : Descriptor).wf = false ∧
    ({ good .mixed with croff := 1#2 } : Descriptor).wf = false ∧
    ({ good .semi with tw := 4#16 } : Descriptor).wf = false ∧
    ({ good .packed422 with th := 4#16 } : Descriptor).wf = false := by decide

theorem test_refused_tokens :
    ({ good .mono with toks := [[]] } : Descriptor).wf = false ∧
    ({ good .mono with toks := [ascii ['y', 'V']] } : Descriptor).wf = false ∧
    tokenWf (List.replicate 256 0x61#8) = true ∧ tokenWf (List.replicate 257 0x61#8) = false := by decide +kernel

theorem test_refused_registry :
    registryWf [(0#16, good .mono), (0#16, good .planar)] = false ∧
    registryWf [(0#16, { good .mono with depth := .ten })] = false ∧ registryWf [] = true ∧
    isRefusedRegistry (step { State.reset with cfg := { defaultConfig with registry := [(0#16, { good .mono with
      depth := .ten })] } }) = true := by decide

/-! ### Encoding (30_encoding.md R81, R82) -/

theorem test_decode_words :
    [0x0, 0x1, 0x2, 0x3, 0x4, 0xF].map (fun w => decodeTableWord 64 w) =
      [some .nop, some .lookup, some .findname, some .geom, some .decode, some .sreset] := by decide

theorem test_decode_refuses :
    [0x5, 0xE, 0x10, 0xFF, 0x100, 0x104, 0x10F, 0x8000000000000000].all (fun w => decodeTableWord 64 w = none) := by decide

/-! ### Commands (95_test_vectors.md L2.5 to L2.8, L3) -/

theorem test_nop_status : statusAfter State.reset 0x0 = 0x2#64 := by decide

theorem test_illegal_status : statusAfter State.reset 0x105 = 0x5706#64 ∧ statusAfter State.reset 0xFF = 0xFF706#64 := by
  decide

theorem test_lookup_yuyv :
    let t := nextOr (step (({ State.reset with fmtId := 6#16 } : State).withFetchWord 64 1))
    t.desc0 = 0x2680A#64 ∧ t.desc1 = 0x200000000#64 ∧ t.status.word = 0x1002#64 := by decide

theorem test_lookup_unknown :
    let t := nextOr (step (({ State.reset with fmtId := 13#16, desc0 := 5#64 } : State).withFetchWord 64 1))
    t.desc0 = 5#64 ∧ t.status.errcode = 1#4 := by decide

theorem test_findname_longest :
    (nextOr (step ((withText ['Y', 'V', '1', '2', '1', '0', '_', '4']).withFetchWord 64 2))).resultId = 2#16 ∧
    (nextOr (step ((withText ['y', 'u', 'y', 'v', '_', 'u', 'y', 'v', 'y']).withFetchWord 64 2))).resultId = 7#16 := by
  decide

theorem test_findname_none : statusAfter (withText ['Y', 'V', '1']) 0x2 = 0x2206#64 ∧
    statusAfter State.reset 0x2 = 0x2206#64 := by decide

theorem test_geom_nv12 :
    let t := nextOr (step ((sized 4 4 2 28).withFetchWord 64 3))
    t.status.word = 0x30D2#64 ∧ t.ctxInfo = 0x200040004#64 ∧
      [t.gPix, t.gY, t.gCsrc, t.gCout, t.gR8, t.gRaw] = [8#64, 8#64, 2#64, 2#64, 12#64, 12#64] := by decide

theorem test_geom_error_order :
    [(13, 0, 0), (8, 0, 8), (8, 3, 8), (9, 12, 8), (9, 8, 4), (2, 2, 2), (11, 4096, 4096), (6, 4096, 4096)].map
      (fun q => (nextOr (step ((sized q.1 q.2.1 q.2.2 0).withFetchWord 64 3))).status.errcode.toNat) =
      [1, 3, 3, 4, 4, 3, 6, 0] := by decide

theorem test_decode_nv12 :
    decoded.status.word = 0x405A#64 ∧ decoded.srcPos = 12#64 ∧
      [Plane.raw, .y, .cb, .cr].map (fun p => (List.range (decoded.viewSize p)).map (fun i => decoded.viewByte p i)) =
        [(ramp 12).map some, (ramp 8).map some, [some 0x08#8, some 0x0A#8], [some 0x09#8, some 0x0B#8]] := by decide

theorem test_decode_ends :
    statusAfter State.reset 0x4 = 0x4806#64 ∧ (nextOr (inFlight 11 true).engineStep).status.word = 0x4556#64 ∧
      (nextOr (inFlight 11 true).engineStep).srcPos = 11#64 ∧ (inFlight 11 false).status.word = 0x4051#64 ∧
      nextOr (inFlight 11 false).engineStep = inFlight 11 false := by decide

theorem test_sreset_aborts :
    (nextOr (step ((inFlight 5 false).withFetchWord 64 0xF))).block = State.reset.block := by decide

/-! ### Registers and transactions (L2.7, L2.8) -/

theorem test_register_writes :
    (State.reset.csrWrite 0x03 0x12345#64).csrRead 0x03 = 0x2345#64 ∧
    (State.reset.csrWrite 0x06 0xFFFFFFFFFFFFFFFF#64).csrRead 0x06 = 0x0000FFFFFFFFFFFF#64 ∧
    [300, 0x200, 257, 256, 255].map (fun v => ((State.reset.csrWrite 0x07 (BitVec.ofNat 64 v)).csrRead 0x07).toNat) =
      [256, 0, 256, 256, 255] := by decide

theorem test_source_status :
    (nextOr (State.transact (.srcPush 1#8) { State.reset with fifo := [0#8], eof := true })).csrRead 0x13 =
      0x0001000000000002#64 := by decide

theorem test_frame_buffer_reads :
    (nextOr (State.transact (.fbRd .cb 1) decoded)).ret = .byte 0x0A#8 ∧
    (nextOr (State.transact (.fbRd .cr 2) decoded)).faultMark = true ∧
    (nextOr (State.transact (.fbRd .y 0) (inFlight 11 false))).faultMark = true := by decide

theorem test_program_lines :
    expandProgram [.name (ascii ['a', 'b']), .run .geom] =
      some [.tx (.nameWr 0 0x61#8), .tx (.nameWr 1 0x62#8), .tx (.csrWr 0x07 2#64), .tx (.csrWr 0x01 3#64), .poll] := by
  decide

/-- The first lines of L3.1, and a text. -/
theorem test_assemble :
    assemble "cfg 4, 4, 2            ; FMT_ID = 4\n; STATUS\n\nrun GEOM\npush 0x00 10\nname \"a;B\"\nfbrd CB, 1".toList =
      some [.tx (.csrWr 0x03 4#64), .tx (.csrWr 0x04 4#64), .tx (.csrWr 0x05 2#64), .tx (.csrWr 0x01 3#64), .poll,
        .tx (.srcPush 0#8), .tx (.srcPush 10#8), .tx (.nameWr 0 0x61#8), .tx (.nameWr 1 0x3B#8), .tx (.nameWr 2 0x42#8),
        .tx (.csrWr 0x07 3#64), .tx (.fbRd .cb 1)] ∧
    assemble "push\nwr SRC_SIZE, 0xFFFF_FFFF_FFFF_FFFF".toList = some [.tx (.csrWr 0x06 0xFFFFFFFFFFFFFFFF#64)] ∧
    ["nwr 256, 0", "wr STATUS 1", "run EXIT", "push 256", "wr WIDTH, _1", "wr WIDTH, 0x_1", "wr WIDTH, 1_", "name \"a"].all (fun l => assemble l.toList == none) = true := by
  decide

/-! ### Converter, tiles, unpackers (L1.2, L1.4, L2.2 to L2.4) -/

theorem test_compact_worked_example :
    (List.range 4).map (unpack10 [0xF8#8, 0xE1#8, 0x87#8, 0x1F#8, 0x7E#8]) = [0x1F8, 0x1F8, 0x1F8, 0x1F8] ∧
    compact [0xFF#8, 0x03#8, 0x50#8, 0x95#8, 0xAA#8] 4 = [0xFF#8, 0x00#8, 0x55#8, 0xAB#8] := by decide

theorem test_loose :
    loose [0xFF#8, 0x03#8, 0x00#8, 0x02#8, 0xFD#8, 0x03#8, 0x00#8, 0x04#8, 0xFF#8, 0x01#8] 5 =
      [0xFF#8, 0x80#8, 0xFF#8, 0xFF#8, 0x80#8] := by decide

theorem test_tile_points : [taddr 5 2 8 4 4, taddr 7 7 8 4 4, taddr 3 5 8 8 4] = [25, 63, 43] := by decide

theorem test_tile_forward :
    (tile (ramp 64) 8 8 4 4).take 20 = [0, 1, 2, 3, 8, 9, 10, 11, 16, 17, 18, 19, 24, 25, 26, 27, 4, 5, 6, 7] := by decide

theorem test_unpack_planar_and_semi :
    unpacked 1 4 2 = some ⟨ramp 8, [0x0A, 0x0B], [0x08, 0x09]⟩ ∧
    unpacked 5 4 2 = some ⟨ramp 8, [0x09, 0x0B], [0x08, 0x0A]⟩ := by decide

theorem test_unpack_packed :
    unpacked 7 4 2 = some ⟨[1, 3, 5, 7, 9, 11, 13, 15], [0, 4, 8, 12], [2, 6, 10, 14]⟩ := by decide

theorem test_unpack_mixed_and_mono :
    unpacked 10 4 4 = some ⟨ramp 16, [0x18, 0x19, 0x1C, 0x1D], [0x10, 0x11, 0x14, 0x15]⟩ ∧
    unpacked 11 4 4 = some ⟨ramp 16, [0x20, 0x22, 0x28, 0x2A], [0x10, 0x12, 0x18, 0x1A]⟩ ∧
    unpacked 12 3 3 = some ⟨ramp 9, [0x80, 0x80], [0x80, 0x80]⟩ := by decide

theorem test_unpack_tiled :
    (unpacked 8 8 8).map (fun p => (p.y.take 16, p.cb.take 8, p.cr.take 8)) =
      some ([0, 1, 2, 3, 16, 17, 18, 19, 4, 5, 6, 7, 20, 21, 22, 23],
        [0x40, 0x42, 0x50, 0x52, 0x44, 0x46, 0x54, 0x56], [0x41, 0x43, 0x51, 0x53, 0x45, 0x47, 0x55, 0x57]) := by decide

/-! ### Witnesses: inputs that meet all the hypotheses of a statement -/

/-- A host about to do one transaction. -/
def about (t : Transaction) (s : State) : State := { s with host := [.tx t] }

/-- An entry of the default registry. -/
def entry (fid : Nat) : Descriptor := (registryFind defaultRegistry (BitVec.ofNat 16 fid)).getD (good .planar)

/-- The geometry of an entry of the default registry. -/
def geometryOf (fid w h : Nat) : Geometry :=
  match geom 67108864 w h (entry fid) with
  | .ok g => g
  | .error _ => geometryRecord 0 0 (entry fid) 0

theorem inv_inFlight : Inv (inFlight 12 false) ∧ Inv (inFlight 11 true) := ⟨inv_of_check (by decide), inv_of_check (by decide)⟩

theorem inv_decoded : Inv decoded := inv_of_check (by decide)

theorem inv_idle : Inv idle := inv_of_check (by decide)

theorem wit_IllegalWordCompletesWithIllegalCommand : State.reset.status.busy = false ∧
    decode 0x05#64 = .error (.reservedOpcode 0x05#8) ∧ decode 0x0E#64 = .error (.reservedOpcode 0x0E#8) ∧
    decode 0x10#64 = .error (.reservedOpcode 0x10#8) ∧ decode 0x10F#64 = .error .reservedBits := by decide

theorem wit_StepRunsTheDecodedCommand :
    ((inFlight 12 false).cfg.wf = true ∧ (inFlight 12 false).nextAgent = .engine ∧
      (inFlight 12 false).status.busy = true ∧ (inFlight 12 false).latch = some ⟨encode .decode, idle.operandsOf .decode⟩ ∧
      decode (encode .decode) = .ok .decode ∧ Instr.decode ≠ .sreset) ∧
    ((about (.csrWr cmdIndex (encode .sreset)) idle).cfg.wf = true ∧
      (about (.csrWr cmdIndex (encode .sreset)) idle).nextAgent = .host ∧
      (about (.csrWr cmdIndex (encode .sreset)) idle).host = [.tx (.csrWr cmdIndex (encode .sreset))]) := by decide

theorem wit_PlacedWordIsTheNextCommand : decode 0x04#64 = .ok .decode ∧ decode 0x0F#64 = .ok .sreset ∧
    State.reset.cfg.wf = true := by decide

theorem wit_HostTurnTakesTheNextTransaction : (about (.csrRd 0x02) idle).cfg.wf = true ∧
    (about (.csrRd 0x02) idle).nextAgent = .host ∧ (about (.csrRd 0x02) idle).host = [.tx (.csrRd 0x02)] := by decide

theorem wit_EngineStepCompletesOrWaits : idle.status.busy = false ∧ (inFlight 11 false).status.busy = true ∧
    (inFlight 11 false).latch = some ⟨encode .decode, idle.operandsOf .decode⟩ := by decide

theorem wit_NopOnlyCompletes : (inFlight 11 false).status.busy = true := by decide

theorem wit_CommandRequestAcceptsDropsOrResets : (0x0F#64 : Word) = 0x0F#64 ∧
    ((0x10F#64 : Word) ≠ 0x0F#64 ∧ (inFlight 11 false).status.busy = true) ∧
    ((0x04#64 : Word) ≠ 0x0F#64 ∧ idle.status.busy = false ∧ idle.ctx ≠ none) ∧
    ((0x04#64 : Word) ≠ 0x0F#64 ∧ State.reset.status.busy = false ∧
      ¬ ((0x04#64 : Word) = 0x04#64 ∧ State.reset.ctx ≠ none)) := by decide

theorem wit_LatchHoldsTheOperandsOfTheAccept : idle.status.busy = false ∧
    ((∀ v, Transaction.srcPush 1#8 ≠ .csrWr cmdIndex v) ∧
      State.transact (.srcPush 1#8) idle = .next (nextOr (State.transact (.srcPush 1#8) idle))) ∧
    (Inv idle ∧ idle.status.busy = false) :=
  ⟨rfl, ⟨by simp, rfl⟩, inv_idle, rfl⟩

theorem wit_OperandWritesCommuteWithTheInFlightCommand :
    (inFlight 12 false).latch = some ⟨encode .decode, idle.operandsOf .decode⟩ ∧ Instr.decode ≠ .sreset ∧
    exec .decode (inFlight 12 false) = .next (nextOr (exec .decode (inFlight 12 false))) :=
  ⟨by decide, by decide, eq_next (by decide)⟩

theorem wit_RegisterReadReturnsTheRegister : (Inv (inFlight 12 false) ∧ (inFlight 12 false).status.busy = true) ∧
    0x14 ≤ (0x14 : Fin 64).val ∧ 0x14 ≤ (0x3F : Fin 64).val :=
  ⟨⟨inv_inFlight.1, by decide⟩, by decide, by decide⟩

theorem wit_IdRegisterIsConstant : State.reset.cfg.registry.length < 2 ^ 16 ∧ step idle = .next (nextOr (step idle)) :=
  ⟨by decide, eq_next (by decide)⟩

theorem wit_RegisterWriteStoresItsField : [0x03, 0x04, 0x05, 0x06, 0x07, 0x00, 0x02, 0x08, 0x3F].all
    (fun i : Fin 64 => i ≠ cmdIndex) = true ∧ ((0x02 : Fin 64).val < 0x03 ∧ 0x07 < (0x08 : Fin 64).val) ∧
    (0x04 : Fin 64) ≠ 0x03 := by decide

theorem wit_NameBufferReadsWhatWasWritten : (0 : Nat) ≠ (255 : Fin 256).val := by decide

theorem wit_FrameBufferReadReturnsOrFaults :
    ((∀ v, Transaction.csrWr 0x03 5#64 ≠ .csrWr cmdIndex v) ∧
      State.transact (.csrWr 0x03 5#64) decoded = .next (nextOr (State.transact (.csrWr 0x03 5#64) decoded))) ∧
    (1 < decoded.viewSize .cb ∧ decoded.fb.read .cb 1 = some 0x0A#8) ∧ decoded.viewSize .cb ≤ 2 ∧
    (inFlight 12 false).fb.read .y 0 = none ∧ State.reset.ctx = none ∧
    (Inv (inFlight 12 false) ∧ (inFlight 12 false).latch = some ⟨encode .decode, idle.operandsOf .decode⟩) :=
  ⟨⟨fun v h => (by cases h), eq_next (by decide)⟩, by decide, by decide, by decide, by decide, inv_inFlight.1, by decide⟩

theorem wit_DutifulReadIsAnswered : Inv decoded ∧ decoded.MayRead .cb 1 ∧ decoded.MayRead .raw 11 :=
  ⟨inv_decoded, ⟨by decide, by decide⟩, by decide, by decide⟩

theorem wit_SourceTransactionsFeedTheFifo :
    let s : State := about .srcFlush { idle with eof := true }
    (step s = .next (nextOr (step s)) ∧ s.eof = true ∧ (nextOr (step s)).eof = false) ∧ idle.status.busy = false ∧
    (inFlight 11 false).status.busy = true :=
  ⟨⟨eq_next (by decide), by decide, by decide⟩, by decide, by decide⟩

theorem wit_DescriptorWordsHaveTheirFields : (entry 6).wf = true ∧ (entry 9).wf = true ∧ (good .planar).wf = true := by
  decide

theorem wit_LookupWritesTheDescriptorWords :
    (((sized 6 0 0 0).operandsFor .lookup).fid, entry 6) ∈ (sized 6 0 0 0).cfg.registry ∧
    (sized 6 0 0 0).cfg.wf = true ∧
    (∀ d, (((sized 13 0 0 0).operandsFor .lookup).fid, d) ∉ (sized 13 0 0 0).cfg.registry) :=
  ⟨registryFind_mem (by decide), by decide, registryFind_none.mp (by decide)⟩

theorem wit_FindByNameTokenIgnoresTheOrder : ∀ fid k,
    (∃ d, (fid, d) ∈ defaultRegistry ∧ k ∈ d.toks) ↔ (∃ d, (fid, d) ∈ defaultRegistry.reverse ∧ k ∈ d.toks) := by
  simp

theorem wit_FindnameWritesResultId :
    TokenMatches defaultRegistry (lower (ascii ['a', 'N', 'V', '2', '1'])) (ascii ['n', 'v', '2', '1']) 5#16 ∧
    findByNameToken State.reset.cfg.registry ((withText ['n', 'v', '2', '1']).operandsFor .findname).text = .ok 5#16 ∧
    (∀ k fid, ¬ TokenMatches State.reset.cfg.registry (lower ((withText ['Y', 'V', '1']).operandsFor .findname).text) k fid) ∧
    (State.reset.operandsFor .findname).text = [] := by
  refine ⟨⟨entry 5, registryFind_mem (by decide), by decide, by decide, 1, by decide⟩, by decide, fun k fid h => ?_, by decide⟩
  have hc : candidates State.reset.cfg.registry (lower ((withText ['Y', 'V', '1']).operandsFor .findname).text) = [] := by
    decide
  have := mem_candidates.mpr h
  rw [hc] at this
  cases this

theorem wit_GeometryChecksInOrder : geom 67108864 4 2 (entry 4) = .ok (geometryOf 4 4 2) ∧
    geom 67108864 0 2 (entry 4) = .error .invalidGeometry := by decide

theorem wit_ChromaSizesFollowSubsampling :
    [(4, 4, 2), (6, 4, 3), (11, 2, 2), (12, 1, 1)].all
      (fun q => geom 67108864 q.2.1 q.2.2 (entry q.1) = .ok (geometryOf q.1 q.2.1 q.2.2)) = true ∧
    ((entry 4).subs = .s420 ∧ (entry 6).subs = .s422 ∧ (entry 11).subs = .s444 ∧ (entry 12).subs = .snone) ∧
    (entry 11).fam = .mixed ∧ (entry 12).fam = .mono ∧ ((entry 4).fam ≠ .mixed ∧ (entry 4).fam ≠ .mono) := by decide

theorem wit_GeometryInvariants :
    [(2, 4, 2), (3, 2, 2), (6, 4, 3), (8, 8, 8)].all (fun q => (entry q.1).wf = true ∧
      geom 67108864 q.2.1 q.2.2 (entry q.1) = .ok (geometryOf q.1 q.2.1 q.2.2)) = true ∧
    (entry 2).pack = .compact ∧ (entry 3).pack = .loose ∧ (entry 6).fam = .packed422 ∧ (entry 8).fam = .tiled := by decide

theorem wit_GeomInstallsTheContext :
    (registryFind (sized 4 4 2 28).cfg.registry ((sized 4 4 2 28).operandsFor .geom).fid = some (entry 4) ∧
      geom (sized 4 4 2 28).cfg.fbCapacity 4 2 (entry 4) = .ok (geometryOf 4 4 2) ∧ (sized 4 4 2 28).ctx ≠ some nv12) ∧
    (registryFind idle.cfg.registry (idle.operandsFor .geom).fid = some (entry 4) ∧
      geom idle.cfg.fbCapacity 4 2 (entry 4) = .ok (geometryOf 4 4 2) ∧ idle.ctx = some nv12) := by decide

theorem wit_FailedGeomWritesOnlyStatus :
    registryFind (sized 13 0 0 0).cfg.registry ((sized 13 0 0 0).operandsFor .geom).fid = none ∧
    registryFind (sized 4 0 2 0).cfg.registry ((sized 4 0 2 0).operandsFor .geom).fid = some (entry 4) ∧
    geom (sized 4 0 2 0).cfg.fbCapacity 0 2 (entry 4) = .error .invalidGeometry ∧
    registryFind (sized 9 8 4 0).cfg.registry ((sized 9 8 4 0).operandsFor .geom).fid = some (entry 9) ∧
    geom (sized 9 8 4 0).cfg.fbCapacity 8 4 (entry 9) = .error .invalidTileDims ∧
    geom (sized 4 65534 65534 0).cfg.fbCapacity 65534 65534 (entry 4) = .error .allocationFailure := by decide

theorem wit_ConversionRangeAndMonotone : 1021 ≤ 1022 := by decide

theorem wit_ConvertersReproduceEverySample : 3 < 4 ∧ 2 * 4 ≤ 8 ∧ (4 % 4 = 0 ∧ 5 * 4 / 4 ≤ 5) ∧ 0 < 1024 ∧ 1023 < 1024 := by
  decide

theorem wit_TileAddressIsOneToOne : (1 ≤ 4 ∧ 1 ≤ 4 ∧ 8 % 4 = 0 ∧ 8 % 4 = 0) ∧
    (0 + 8 * 8 ≤ (ramp 64).length ∧ 7 < 8 ∧ 7 < 8) ∧ taddr 7 7 8 4 4 = taddr 7 7 8 4 4 ∧ 63 < 8 * 8 := by decide

theorem wit_DetileInvertsTile : (1 ≤ 4 ∧ 1 ≤ 4 ∧ 8 % 4 = 0 ∧ 8 % 4 = 0) ∧ (ramp 64).length = 8 * 8 := by decide

theorem wit_FullWidthTilesAreRaster : 1 ≤ 8 ∧ 1 ≤ 4 ∧ 8 % 4 = 0 ∧ 3 + 8 * 8 ≤ (ramp 67).length := by decide

theorem wit_DecodedPlanesHaveTheGeometrySizes : (entry 2).wf = true ∧
    geom 67108864 4 2 (entry 2) = .ok (geometryOf 2 4 2) ∧ (ramp 15).length = (geometryOf 2 4 2).raw ∧
    (entry 2).pack = .compact ∧
    ((entry 3).wf = true ∧ geom 67108864 4 2 (entry 3) = .ok (geometryOf 3 4 2) ∧
      (ramp 24).length = (geometryOf 3 4 2).raw ∧ (entry 3).pack = .loose) ∧
    ((entry 4).wf = true ∧ geom 67108864 4 2 (entry 4) = .ok (geometryOf 4 4 2) ∧
      (ramp 12).length = (geometryOf 4 4 2).raw ∧ (entry 4).pack = .pnone) := by decide

theorem wit_PlanarAndSemiPlanarRuns : (ramp 12).length = 4 * 2 + 2 * (geometryOf 0 4 2).csrc ∧
    1 < (geometryOf 0 4 2).csrc ∧ (entry 0).co = .cbFirst ∧ (entry 1).co = .crFirst ∧ (entry 0).fam = .planar ∧
    (entry 4).fam = .semi ∧ (ramp 12).length = 4 * 2 + 2 * (geometryOf 4 4 2).csrc := by decide

theorem wit_PackedSamplesCoverTheFrame : (entry 6).wf = true ∧ (entry 6).fam = .packed422 ∧
    geom 67108864 4 2 (entry 6) = .ok (geometryOf 6 4 2) ∧ (ramp 16).length = (geometryOf 6 4 2).r8 := by decide

theorem wit_TiledPixelsComeFromTheirTileAddress : (entry 8).wf = true ∧ (entry 8).fam = .tiled ∧
    geom 67108864 4 8 (entry 8) = .ok (geometryOf 8 4 8) ∧ (ramp 48).length = (geometryOf 8 4 8).r8 ∧
    (3 < 4 ∧ 7 < 8) ∧ (1 < 4 / 2 ∧ 3 < 8 / 2) := by decide

theorem wit_MixedAndMonoChroma :
    [(10, 4, 2), (11, 4, 2), (12, 3, 3)].all (fun q => (entry q.1).wf = true ∧
      geom 67108864 q.2.1 q.2.2 (entry q.1) = .ok (geometryOf q.1 q.2.1 q.2.2) ∧
      (ramp (geometryOf q.1 q.2.1 q.2.2).r8).length = (geometryOf q.1 q.2.1 q.2.2).r8) = true ∧
    ((entry 10).fam = .mixed ∧ (entry 10).subs = .s422) ∧ ((entry 11).fam = .mixed ∧ (entry 11).subs = .s444) ∧
    (entry 12).fam = .mono ∧ (1 < 4 / 2 ∧ 0 < 2 / 2) := by decide

theorem wit_DecodeWritesTheFrame : (inFlight 12 false).cfg.wf = true ∧
    ((inFlight 12 false).operandsFor .decode).ctx = some nv12 ∧
    contextGeometry (inFlight 12 false).cfg nv12 = .ok (entry 4, geometryOf 4 4 2) ∧
    (geometryOf 4 4 2).raw ≤ (inFlight 12 false).fifo.length ∧ Inv (inFlight 12 false) ∧
    (inFlight 12 false).latch = some ⟨encode .decode, idle.operandsOf .decode⟩ :=
  ⟨by decide, by decide, by decide, by decide, inv_inFlight.1, by decide⟩

theorem wit_DecodeWithoutContextFails : ((State.reset.accept (encode .decode)).operandsFor .decode).ctx = none := by decide

theorem wit_ShortReadTakesWhatRemains : ((inFlight 11 true).operandsFor .decode).ctx = some nv12 ∧
    contextGeometry (inFlight 11 true).cfg nv12 = .ok (entry 4, geometryOf 4 4 2) ∧
    (inFlight 11 true).fifo.length < (geometryOf 4 4 2).raw ∧ (inFlight 11 true).eof = true ∧ Inv (inFlight 11 true) ∧
    (inFlight 11 true).latch = some ⟨encode .decode, idle.operandsOf .decode⟩ :=
  ⟨by decide, by decide, by decide, by decide, inv_inFlight.2, by decide⟩

theorem wit_DecodeWaitsForTheSource : ((inFlight 11 false).operandsFor .decode).ctx = some nv12 ∧
    contextGeometry (inFlight 11 false).cfg nv12 = .ok (entry 4, geometryOf 4 4 2) ∧
    (inFlight 11 false).fifo.length < (geometryOf 4 4 2).raw ∧ (inFlight 11 false).eof = false ∧
    (inFlight 11 false).cfg.wf = true ∧ (inFlight 11 false).status.busy = true ∧
    (inFlight 11 false).latch = some ⟨encode .decode, idle.operandsOf .decode⟩ ∧ (inFlight 11 false).host = [] := by decide

theorem wit_EveryGeometryDecodes :
    let s : State := { idle with fifo := ramp 12 }
    let short : State := { idle with fifo := ramp 11, eof := true }
    (s.cfg.wf = true ∧ s.ctx = some nv12 ∧ contextGeometry s.cfg nv12 = .ok (entry 4, geometryOf 4 4 2) ∧
      s.fifo.length = (geometryOf 4 4 2).raw) ∧
    (short.ctx = some nv12 ∧ short.fifo.length < (geometryOf 4 4 2).raw ∧ short.eof = true) ∧
    (s.accept (encode .decode)).engineStep = .next (nextOr (s.accept (encode .decode)).engineStep) :=
  ⟨by decide, by decide, eq_next (by decide)⟩

theorem wit_CommandsLeaveTheRestAlone : [Instr.nop, .lookup, .findname, .geom, .decode].all
    (fun i => isNext (exec i (sized 4 4 2 28)) && i != .sreset) = true := by decide

theorem wit_EveryStepKeepsTheInvariant : Inv (inFlight 12 false) ∧
    step (inFlight 12 false) = .next (nextOr (step (inFlight 12 false))) := ⟨inv_inFlight.1, eq_next (by decide)⟩

theorem wit_MachineNeverStops : Inv (inFlight 12 false) ∧
    Reaches (inFlight 12 false) (nextOr (step (inFlight 12 false))) :=
  ⟨inv_inFlight.1, .step _ _ .refl (eq_next (by decide))⟩

theorem wit_FaultMarkStaysAndOnlyBadReadsSetIt :
    let s : State := about (.fbRd .cr 2) decoded
    step s = .next (nextOr (step s)) ∧ s.faultMark = false ∧ (nextOr (step s)).faultMark = true ∧
      (s.nextAgent = .host ∧ s.host = [.tx (.fbRd .cr 2)] ∧ s.viewByte .cr 2 = none) :=
  ⟨eq_next (by decide), by decide, by decide, by decide⟩

theorem wit_FrameBufferHasThreeWriters :
    step (inFlight 12 false) = .next (nextOr (step (inFlight 12 false))) ∧
    (nextOr (step (inFlight 12 false))).fb ≠ (inFlight 12 false).fb := ⟨eq_next (by decide), by decide⟩

theorem wit_ContextChangesOnlyByGeomOrReset :
    let s : State := (sized 4 4 2 0).accept (encode .geom)
    step s = .next (nextOr (step s)) ∧ (nextOr (step s)).ctx ≠ s.ctx := ⟨eq_next (by decide), by decide⟩

theorem wit_OnlyDecodeTakesSourceBytes :
    step (inFlight 12 false) = .next (nextOr (step (inFlight 12 false))) ∧
    (nextOr (step (inFlight 12 false))).fifo ≠ (inFlight 12 false).fifo := ⟨eq_next (by decide), by decide⟩

theorem wit_ViewsLiveFromDecodeToTheNextWriter :
    (step (inFlight 12 false) = .next (nextOr (step (inFlight 12 false))) ∧ (inFlight 12 false).status.valid = false ∧
      (nextOr (step (inFlight 12 false))).status.valid = true) ∧
    (Inv decoded ∧ step decoded = .next (nextOr (step decoded)) ∧ decoded.status.valid = true) :=
  ⟨⟨eq_next (by decide), by decide, by decide⟩, inv_decoded, eq_next (by decide), by decide⟩

theorem wit_PollEndsUnlessDecodeWaits :
    let s : State := { inFlight 12 false with host := [.poll] }
    let busy : State := { inFlight 11 false with host := [.poll] }
    let done : State := { idle with host := [.poll] }
    (Inv s ∧ s.turns = [] ∧ s.host = [.poll] ∧ s.waiting = false) ∧
    (busy.cfg.wf = true ∧ busy.nextAgent = .host ∧ busy.host = [.poll] ∧ busy.status.busy = true) ∧
    (done.cfg.wf = true ∧ done.nextAgent = .host ∧ done.host = [.poll] ∧ done.status.busy = false) :=
  ⟨⟨inv_of_check (by decide), by decide, by decide, by decide⟩, by decide, by decide⟩

theorem wit_CanonicalMemoriesThatReadAlikeAreEqual :
    Memory.wf (some 0#8) 256 [(0, 1#8), (255, 2#8)] ∧ ∀ a, Memory.read (some 0#8) [(0, 1#8), (255, 2#8)] a =
      Memory.read (some 0#8) (Memory.write (some 0#8) [(0, 1#8), (3, 9#8), (255, 2#8)] 3 0#8) a :=
  ⟨by decide, fun a => rfl⟩

end Sys2Proof.Tests
end

section
/-! The state family (10_state.md): what every step keeps. The invariant is the join of what it says of the block's data
(`DataOk`) and of what it says of the command in flight; each operation of the model is shown to keep the part it touches,
and the step is assembled from these. -/

namespace Sys2Proof.Machine

/-! ### The invariant, by the fields it reads -/

/-- A state with every field set aside that the invariant does not read, and with the NAME buffer and NAME_LEN, of which
it says only that they are in bounds. -/
def State.guarded (s : State) : State :=
  { s with fmtId := 0#16, width := 0#16, height := 0#16, srcSize := 0#48, nameLen := 0#9, resultId := 0#16,
           desc0 := 0#64, desc1 := 0#64, srcPos := 0#64, name := [], fifo := [], eof := false, faultMark := false,
           host := [], turns := [], ret := .none }

/-- The invariant of a state is that of its guarded part and the bounds of NAME_LEN and NAME. -/
theorem inv_iff_guarded (s : State) :
    Inv s ↔ Inv s.guarded ∧ s.nameLen.toNat ≤ nameMax ∧ Memory.wf (some 0#8) nameMax s.name := by
  constructor
  · intro h
    exact ⟨⟨h.cfgWf, h.busyLatch, h.ctxBit, h.errBit, h.errRange, h.busyStatus, Nat.zero_le _, Memory.wf_nil _ _,
      h.planesWf, h.context, h.validViews, h.latchOk⟩, h.nameLen, h.nameWf⟩
  · rintro ⟨h, hlen, hname⟩
    exact ⟨h.cfgWf, h.busyLatch, h.ctxBit, h.errBit, h.errRange, h.busyStatus, hlen, hname, h.planesWf, h.context,
      h.validViews, h.latchOk⟩

/-- A state that agrees with one of the invariant on the guarded fields keeps it, if its NAME and NAME_LEN are in
bounds. -/
theorem Inv.of_guarded {s t : State} (h : Inv s) (ht : t.guarded = s.guarded) (hlen : t.nameLen.toNat ≤ nameMax)
    (hname : Memory.wf (some 0#8) nameMax t.name) : Inv t :=
  (inv_iff_guarded t).mpr ⟨ht ▸ ((inv_iff_guarded s).mp h).1, hlen, hname⟩

/-- A state that also agrees on NAME and NAME_LEN keeps the invariant. -/
theorem Inv.of_same {s t : State} (h : Inv s) (ht : t.guarded = s.guarded) (hlen : t.nameLen = s.nameLen)
    (hname : t.name = s.name) : Inv t :=
  h.of_guarded ht (hlen ▸ h.nameLen) (hname ▸ h.nameWf)

/-- What the invariant says of the block's data, with or without a command in flight. -/
structure DataOk (s : State) : Prop where
  cfgWf : s.cfg.wf = true
  ctxBit : s.status.ctx = s.ctx.isSome
  nameLen : s.nameLen.toNat ≤ nameMax
  nameWf : Memory.wf (some 0#8) nameMax s.name
  planesWf : ∀ p, Memory.wf none (s.fb.plane p).size (s.fb.plane p).cells
  context : s.ContextOk
  validViews : s.status.valid = true → s.ctx ≠ none ∧ ∀ p i, i < s.viewSize p → s.fb.read p i ≠ none

theorem Inv.dataOk {s : State} (h : Inv s) : DataOk s :=
  ⟨h.cfgWf, h.ctxBit, h.nameLen, h.nameWf, h.planesWf, h.context, h.validViews⟩

/-! ### Completion -/

theorem ErrKind.code_range (e : ErrKind) : e.code ≠ 0#4 ∧ e.code.toNat ≤ 8 := by cases e <;> decide

/-- A successful completion of a command in a state with sound data leaves the invariant (60_exceptions.md R265). -/
theorem DataOk.inv_completeSuccess {s : State} (h : DataOk s) : Inv s.completeSuccess where
  cfgWf := h.cfgWf
  busyLatch := rfl
  ctxBit := h.ctxBit
  errBit := rfl
  errRange := Nat.zero_le _
  busyStatus := nofun
  nameLen := h.nameLen
  nameWf := h.nameWf
  planesWf := h.planesWf
  context := h.context
  validViews := h.validViews
  latchOk := nofun

/-- So does an error completion (60_exceptions.md R266). -/
theorem DataOk.inv_completeError {s : State} (h : DataOk s) (e : ErrKind) : Inv (s.completeError e) where
  cfgWf := h.cfgWf
  busyLatch := rfl
  ctxBit := h.ctxBit
  errBit := by simp [e.code_range.1]
  errRange := e.code_range.2
  busyStatus := nofun
  nameLen := h.nameLen
  nameWf := h.nameWf
  planesWf := h.planesWf
  context := h.context
  validViews := h.validViews
  latchOk := nofun

/-! ### A new context and a decoded frame -/

/-- The view sizes of a context with a geometry (10_state.md R44). -/
theorem viewSize_of_geometry {s : State} {c : Context} {d : Descriptor} {g : Geometry} (hc : s.ctx = some c)
    (hg : contextGeometry s.cfg c = .ok (d, g)) (p : Plane) : s.viewSize p = g.viewSize p := by
  simp [State.viewSize, hc, hg]

/-- The store sizes of a context with a geometry (10_state.md R44). -/
theorem DataOk.storeSize_of_geometry {s : State} (h : DataOk s) {c : Context} {d : Descriptor} {g : Geometry}
    (hc : s.ctx = some c) (hg : contextGeometry s.cfg c = .ok (d, g)) (p : Plane) :
    (s.fb.plane p).size = g.storeSize p := by
  have hctx := h.context
  simp only [State.ContextOk, hc] at hctx
  obtain ⟨d', g', hg', -, -, -, -, -, -, -, hsize, -⟩ := hctx
  cases hg.symm.trans hg'
  exact hsize p

/-- GEOM's writes keep the data sound: a new context starts with an allocation without a value and VALID = 0, the same
context keeps its stores (41_geometry.md R139, R140). -/
theorem DataOk.installContext {s : State} (h : DataOk s) {c : Context} {d : Descriptor} {g : Geometry}
    (hg : contextGeometry s.cfg c = .ok (d, g)) (n : BitVec 48) : DataOk (s.installContext c g n) := by
  by_cases hc : s.ctx = some c
  · refine ⟨by simpa using h.cfgWf, by simp [hc], by simpa using h.nameLen, by simpa using h.nameWf,
      by simpa [hc] using h.planesWf, ?_, fun hv => ⟨by simp, fun p i hi => ?_⟩⟩
    · simpa [State.ContextOk, hc, hg] using h.storeSize_of_geometry hc hg
    · have hview : (s.installContext c g n).viewSize p = s.viewSize p := by simp [State.viewSize, hc]
      simpa [hc] using (h.validViews (by simpa [hc] using hv)).2 p i (hview ▸ hi)
  · refine ⟨by simpa using h.cfgWf, by simp [hc], by simpa using h.nameLen, by simpa using h.nameWf,
      fun p => by simpa [hc] using Memory.wf_nil none _, ?_, fun hv => by simp [hc] at hv⟩
    simp [State.ContextOk, hc, hg]

/-- DECODE's writes keep the data sound and give every byte of every view a value, which is what VALID = 1 promises
(10_state.md R29, 44_decode.md R215). -/
theorem DataOk.filled {s : State} (h : DataOk s) {c : Context} {d : Descriptor} {g : Geometry} (hc : s.ctx = some c)
    (hg : contextGeometry s.cfg c = .ok (d, g)) {r8 : List Byte} {pl : Planes}
    (hlen : ∀ p, (frameRun r8 pl p).length = g.viewSize p) :
    DataOk { s with fb := s.fb.filled r8 pl, status := s.status.validated } := by
  have hstore := h.storeSize_of_geometry hc hg
  have hview := viewSize_of_geometry hc hg
  refine ⟨h.cfgWf, h.ctxBit, h.nameLen, h.nameWf, fun p => FrameBuffer.wf_filled ?_ (h.planesWf p), ?_,
    fun _ => ⟨by simp [hc], fun p i hi => ?_⟩⟩
  · rw [hlen, hstore]
    exact view_le_store (contextGeometry_ok.mp hg).2 p
  · simpa [State.ContextOk, hc] using h.context
  · have hi : i < (frameRun r8 pl p).length := by
      rw [hlen, ← hview]
      exact hi
    simp [FrameBuffer.read_filled, hi]

/-! ### The engine -/

/-- A command in flight keeps the invariant (45_control.md R239). -/
theorem Inv.of_exec {s t : State} (h : Inv s) {l : Latch} {i : Instr} (hl : s.latch = some l) (hi : i ≠ .sreset)
    (hd : decode l.op = .ok i) (hx : exec i s = .next t) : Inv t := by
  cases i with
  | nop => exact execNop_cases hx ▸ h.dataOk.inv_completeSuccess
  | lookup =>
    rcases execLookup_cases hx with ⟨d, -, rfl⟩ | ⟨-, rfl⟩
    · have written : Inv { s with desc0 := enc0 d, desc1 := enc1 d } := h.of_same rfl rfl rfl
      exact written.dataOk.inv_completeSuccess
    · exact h.dataOk.inv_completeError _
  | findname =>
    rcases execFindname_cases hx with ⟨fid, -, rfl⟩ | ⟨-, rfl⟩
    · have written : Inv { s with resultId := fid } := h.of_same rfl rfl rfl
      exact written.dataOk.inv_completeSuccess
    · exact h.dataOk.inv_completeError _
  | geom =>
    rcases execGeom_cases hx with ⟨c, d, g, n, hg, rfl⟩ | ⟨e, rfl⟩
    · exact (h.dataOk.installContext hg n).inv_completeSuccess
    · exact h.dataOk.inv_completeError e
  | decode =>
    have taken (n : Nat) : Inv (s.srcTake n).2 := h.of_same rfl rfl rfl
    obtain ⟨-, -, -, -, hdec⟩ := h.latchOk l hl
    have hctx : (s.operandsFor .decode).ctx = s.ctx := by simpa [State.operandsFor, hl] using (hdec hd).1
    rcases execDecode_cases hx with ⟨e, -, rfl⟩ | ⟨c, d, g, hc, hg, hraw, rfl⟩ | ⟨-, rfl⟩ | ⟨-, rfl⟩
    · exact h.dataOk.inv_completeError e
    · have hrun := frameRun_length h.cfgWf hg (List.length_take_of_le hraw)
      exact ((taken g.raw).dataOk.filled (hctx ▸ hc) hg hrun).inv_completeSuccess
    · exact (taken _).dataOk.inv_completeError _
    · exact h
  | sreset => exact absurd rfl hi

/-! ### The host -/

/-- The latched text has the latched length, and that length is in bounds (10_state.md R37, R48). -/
theorem capture_text {s : State} (h : s.nameLen.toNat ≤ nameMax) (v : Word) :
    (s.capture v).text.length = (s.capture v).nameLen.toNat ∧ (s.capture v).nameLen.toNat ≤ nameMax := by
  unfold State.capture
  cases Sys2Proof.decode v with
  | error e => exact ⟨rfl, Nat.zero_le _⟩
  | ok i =>
    cases i with
    | findname => exact ⟨by simp [State.operandsOf, State.nameText], h⟩
    | nop => exact ⟨rfl, Nat.zero_le _⟩
    | lookup => exact ⟨rfl, Nat.zero_le _⟩
    | geom => exact ⟨rfl, Nat.zero_le _⟩
    | decode => exact ⟨rfl, Nat.zero_le _⟩
    | sreset => exact ⟨rfl, Nat.zero_le _⟩

/-- A DECODE latches the context (10_state.md R48). -/
theorem capture_ctx {v : Word} (hd : decode v = .ok .decode) (s : State) : (s.capture v).ctx = s.ctx := by
  simp [State.capture, hd, State.operandsOf]

/-- The accept of a word other than SRESET keeps the invariant; that of a DECODE with a context clears the stores together
with VALID (45_control.md R238, 44_decode.md R216). -/
theorem Inv.accept {s : State} (h : Inv s) {v : Word} (hv : v ≠ encode .sreset) : Inv (s.accept v) := by
  obtain ⟨htext, hlen⟩ := capture_text h.nameLen v
  by_cases hp : decode v = .ok .decode ∧ s.ctx ≠ none
  · obtain ⟨hd, hc⟩ := hp
    obtain ⟨c, hc⟩ := Option.ne_none_iff_exists'.mp hc
    rw [State.accept_poisons hd hc]
    refine ⟨h.cfgWf, rfl, h.ctxBit, rfl, Nat.zero_le _, fun _ => ⟨rfl, rfl⟩, h.nameLen, h.nameWf,
      fun p => by simpa using Memory.wf_nil none _, ?_, nofun, ?_⟩
    · simpa [State.ContextOk, hc] using h.context
    · rintro l ⟨⟩
      exact ⟨hv, rfl, htext, hlen, fun _ => ⟨capture_ctx hd s, fun _ => ⟨rfl, fun p => by simp⟩⟩⟩
  · rw [State.accept_keeps hp]
    refine ⟨h.cfgWf, rfl, h.ctxBit, rfl, Nat.zero_le _, fun _ => ⟨rfl, rfl⟩, h.nameLen, h.nameWf, h.planesWf, h.context,
      h.validViews, ?_⟩
    rintro l ⟨⟩
    exact ⟨hv, rfl, htext, hlen, fun hd => ⟨capture_ctx hd s, fun hc => absurd ⟨hd, hc⟩ hp⟩⟩

/-- The reset event, with a well-formed registry, leaves the invariant (70_reset_and_hazards.md R290). -/
theorem inv_resetEvent {s : State} (hcfg : s.cfg.wf = true) : Inv s.resetEvent where
  cfgWf := hcfg
  busyLatch := rfl
  ctxBit := rfl
  errBit := rfl
  errRange := Nat.zero_le _
  busyStatus := nofun
  nameLen := Nat.zero_le _
  nameWf := Memory.wf_nil _ _
  planesWf p := by simpa using Memory.wf_nil none _
  context := ⟨rfl, rfl, rfl, rfl, rfl, rfl, rfl, fun p => by simp, rfl, rfl⟩
  validViews := nofun
  latchOk := nofun

/-- A dropped request sets OVR only, which the invariant does not read (10_state.md R31). -/
theorem Inv.dropped {s : State} (h : Inv s) : Inv { s with status := s.status.dropped } :=
  ⟨h.cfgWf, h.busyLatch, h.ctxBit, h.errBit, h.errRange, h.busyStatus, h.nameLen, h.nameWf, h.planesWf, h.context,
    h.validViews, h.latchOk⟩

/-- NAME_LEN stays 0 to 256 whatever is written (10_state.md R37). -/
theorem nameLenOf_le (v : Word) : (nameLenOf v).toNat ≤ nameMax := by
  unfold nameLenOf
  split
  · assumption
  · exact Nat.le_refl _

theorem csrWrite_nameLen_le {s : State} (h : s.nameLen.toNat ≤ nameMax) (i : Fin 64) (v : Word) :
    (s.csrWrite i v).nameLen.toNat ≤ nameMax := by
  unfold State.csrWrite
  split
  · exact h
  · exact h
  · exact h
  · exact h
  · exact nameLenOf_le v
  · exact h

theorem csrWrite_guarded (s : State) (i : Fin 64) (v : Word) : (s.csrWrite i v).guarded = s.guarded := by
  rw [State.csrWrite_form]; rfl

/-- A host transaction keeps the invariant (45_control.md R235). -/
theorem Inv.of_transact {s t : State} (h : Inv s) {op : Transaction} (hx : State.transact op s = .next t) : Inv t := by
  have silent : Inv { s with ret := .none } := h.of_same rfl rfl rfl
  cases op with
  | csrRd i => cases hx; exact h.of_same rfl rfl rfl
  | csrWr i v =>
    by_cases hi : i = cmdIndex
    · subst hi
      rcases cmdWrite_cases hx with ⟨-, rfl⟩ | ⟨-, -, rfl⟩ | ⟨hv, -, rfl⟩
      · exact inv_resetEvent h.cfgWf
      · exact silent.dropped
      · exact silent.accept hv
    · simp only [State.transact, hi, if_false, Host.Outcome.next.injEq] at hx
      subst hx
      exact silent.of_guarded (csrWrite_guarded _ i v) (csrWrite_nameLen_le silent.nameLen i v)
        (by simpa using h.nameWf)
  | nameWr i b => cases hx; exact h.of_guarded rfl h.nameLen (Memory.wf_write i.isLt h.nameWf)
  | nameRd i => cases hx; exact h.of_same rfl rfl rfl
  | fbRd p i =>
    cases hx
    rcases fbRead_cases p i s with ⟨b, -, hr⟩ | ⟨-, hr⟩
    · rw [hr]; exact h.of_same rfl rfl rfl
    · rw [hr]; exact h.of_same rfl rfl rfl
  | srcPush b => cases hx; exact h.of_same rfl rfl rfl
  | srcEof => cases hx; exact h.of_same rfl rfl rfl
  | srcFlush =>
    cases hx
    unfold State.srcFlush
    split
    · exact silent
    · exact h.of_same rfl rfl rfl

/-! ### The step -/

/-- Settles O52: the engine's turn by the command it runs, the host's turn by its transaction. -/
theorem everyStepKeepsTheInvariant : Obligations.EveryStepKeepsTheInvariant := by
  intro s t h hx
  have turn : Inv s.turnTaken := h.of_same rfl rfl rfl
  rcases step_forms hx with ⟨-, rfl | ⟨l, hl, rfl | ⟨i, hi, hd, hx⟩⟩⟩ | ⟨-, ⟨ops, r, rfl⟩ | ⟨op, rest, -, hx⟩⟩
  · exact turn
  · exact turn.dataOk.inv_completeError _
  · exact turn.of_exec hl hi hd hx
  · exact h.of_same rfl rfl rfl
  · have popped : Inv { s.turnTaken with host := rest } := h.of_same rfl rfl rfl
    exact popped.of_transact hx

end Sys2Proof.Machine
end

section
/-! The state family (10_state.md): what a command and a step leave unchanged, and the registers and buffers taken one by
one. -/

namespace Sys2Proof.Machine

/-! ### What a command can do -/

/-- Every form of a command that is not a reset: an error, a success with that command's own writes, or a wait. -/
theorem exec_forms {i : Instr} {s t : State} (hi : i ≠ .sreset) (h : exec i s = .next t) :
    (∃ e, t = s.completeError e) ∨ (i = .nop ∧ t = s.completeSuccess) ∨
    (i = .lookup ∧ ∃ d, t = ({ s with desc0 := enc0 d, desc1 := enc1 d } : State).completeSuccess) ∨
    (i = .findname ∧ ∃ fid, t = ({ s with resultId := fid } : State).completeSuccess) ∨
    (i = .geom ∧ ∃ c g n, t = (s.installContext c g n).completeSuccess) ∨
    (i = .decode ∧ ((∃ n r8 pl, n ≤ s.fifo.length ∧ t = ({ (s.srcTake n).2 with
        fb := s.fb.filled r8 pl, status := s.status.validated } : State).completeSuccess) ∨
      (∃ e, t = (s.srcTake s.fifo.length).2.completeError e) ∨ t = s)) := by
  cases i with
  | nop => exact .inr (.inl ⟨rfl, execNop_cases h⟩)
  | lookup =>
    rcases execLookup_cases h with ⟨d, -, ht⟩ | ⟨-, ht⟩
    · exact .inr (.inr (.inl ⟨rfl, d, ht⟩))
    · exact .inl ⟨_, ht⟩
  | findname =>
    rcases execFindname_cases h with ⟨fid, -, ht⟩ | ⟨-, ht⟩
    · exact .inr (.inr (.inr (.inl ⟨rfl, fid, ht⟩)))
    · exact .inl ⟨_, ht⟩
  | geom =>
    rcases execGeom_cases h with ⟨c, d, g, n, -, ht⟩ | ⟨e, ht⟩
    · exact .inr (.inr (.inr (.inr (.inl ⟨rfl, c, g, n, ht⟩))))
    · exact .inl ⟨e, ht⟩
  | decode =>
    rcases execDecode_cases h with ⟨e, -, ht⟩ | ⟨c, d, g, -, -, hraw, ht⟩ | ⟨-, ht⟩ | ⟨-, ht⟩
    · exact .inl ⟨e, ht⟩
    · exact .inr (.inr (.inr (.inr (.inr ⟨rfl, .inl ⟨_, _, _, hraw, ht⟩⟩))))
    · exact .inr (.inr (.inr (.inr (.inr ⟨rfl, .inr (.inl ⟨_, ht⟩)⟩))))
    · exact .inr (.inr (.inr (.inr (.inr ⟨rfl, .inr (.inr ht)⟩))))
  | sreset => exact absurd rfl hi

/-- No command changes the parameters, the run's mark, or what belongs to the agents. -/
theorem exec_keeps_run {i : Instr} {s t : State} (h : exec i s = .next t) : t.cfg = s.cfg ∧
    t.faultMark = s.faultMark ∧ t.host = s.host ∧ t.turns = s.turns ∧ t.ret = s.ret := by
  by_cases hi : i = .sreset
  · subst hi
    simp [execSreset_cases h]
  · rcases exec_forms hi h with ⟨e, rfl⟩ | ⟨-, rfl⟩ | ⟨-, d, rfl⟩ | ⟨-, fid, rfl⟩ | ⟨-, c, g, n, rfl⟩ |
      ⟨-, ⟨n, r8, pl, -, rfl⟩ | ⟨e, rfl⟩ | rfl⟩ <;> simp

/-- Settles O50: each form a command can take, checked against the frame. -/
theorem commandsLeaveTheRestAlone : Obligations.CommandsLeaveTheRestAlone := by
  refine ⟨fun i s t h => exec_keeps_run h, fun i s t hi h => ?_⟩
  rcases exec_forms hi h with ⟨e, rfl⟩ | ⟨rfl, rfl⟩ | ⟨rfl, d, rfl⟩ | ⟨rfl, fid, rfl⟩ | ⟨rfl, c, g, n, rfl⟩ |
    ⟨rfl, ⟨n, r8, pl, -, rfl⟩ | ⟨e, rfl⟩ | rfl⟩
  · simp [State.nameByte]
  · simp [State.nameByte]
  · simp [State.nameByte]
  · simp [State.nameByte]
  · by_cases hc : s.ctx = some c
    · simp [State.nameByte, hc]
    · simp [State.nameByte, hc]
  · simp [State.nameByte]
  · simp [State.nameByte]
  · simp

/-! ### What a step can do to the context, the source and the parameters -/

/-- Only GEOM changes the context, and never to none (10_state.md R40). -/
theorem exec_ctx {i : Instr} {s t : State} (hi : i ≠ .sreset) (h : exec i s = .next t) :
    t.ctx = s.ctx ∨ i = .geom ∧ t.ctx ≠ none := by
  by_cases hg : i = .geom
  · subst hg
    rcases execGeom_cases h with ⟨c, d, g, n, -, rfl⟩ | ⟨e, rfl⟩
    · exact .inr ⟨rfl, by simp⟩
    · exact .inl (by simp)
  · obtain ⟨-, -, -, -, -, -, -, hctx, -⟩ := commandsLeaveTheRestAlone.2 i s t hi h
    exact .inl (hctx hg).1

/-- Only DECODE takes source bytes, from the front of the FIFO (20_memory.md R64). -/
theorem exec_source {i : Instr} {s t : State} (hi : i ≠ .sreset) (h : exec i s = .next t) :
    (t.fifo = s.fifo ∧ t.srcPos = s.srcPos) ∨ i = .decode ∧ ∃ n, n ≤ s.fifo.length ∧ t.fifo = s.fifo.drop n ∧
      t.srcPos = s.srcPos + BitVec.ofNat 64 n := by
  by_cases hd : i = .decode
  · subst hd
    rcases execDecode_cases h with ⟨e, -, rfl⟩ | ⟨c, d, g, -, -, hraw, rfl⟩ | ⟨-, rfl⟩ | ⟨-, rfl⟩
    · exact .inl (by simp)
    · exact .inr ⟨rfl, g.raw, hraw, by simp⟩
    · exact .inr ⟨rfl, s.fifo.length, Nat.le_refl _, by simp⟩
    · exact .inl ⟨rfl, rfl⟩
  · obtain ⟨-, -, -, -, -, -, -, -, hsource, -⟩ := commandsLeaveTheRestAlone.2 i s t hi h
    exact .inl (hsource hd)

/-- Of the host's transactions only an SRESET changes the context, and it clears it (10_state.md R30). -/
theorem transact_ctx {op : Transaction} {s t : State} (h : State.transact op s = .next t) :
    t.ctx = s.ctx ∨ op = .csrWr cmdIndex (encode .sreset) ∧ t.ctx = none := by
  rcases transact_cases h with ⟨v, rfl, ⟨rfl, rfl⟩ | ⟨-, -, rfl⟩ | ⟨-, -, rfl⟩⟩ |
    ⟨p, i, rfl, ⟨b, -, rfl⟩ | ⟨-, rfl⟩⟩ | ⟨b, rfl, rfl⟩ | ⟨rfl, rfl⟩ | ⟨-, -, hctx, -⟩
  · exact .inr ⟨rfl, rfl⟩
  · exact .inl rfl
  · exact .inl (by simp)
  · exact .inl rfl
  · exact .inl rfl
  · exact .inl rfl
  · exact .inl rfl
  · exact .inl hctx

/-- The host changes the source by a push, a flush, or an SRESET (10_state.md R42, 20_memory.md R62). -/
theorem transact_source {op : Transaction} {s t : State} (h : State.transact op s = .next t) :
    (t.fifo = s.fifo ∧ t.srcPos = s.srcPos) ∨
    (∃ b, op = .srcPush b ∧ t.fifo = s.fifo ++ [b] ∧ t.srcPos = s.srcPos) ∨
    (op = .srcFlush ∧ t.fifo = [] ∧ t.srcPos = s.srcPos) ∨
    (op = .csrWr cmdIndex (encode .sreset) ∧ t.fifo = [] ∧ t.srcPos = 0#64) := by
  rcases transact_cases h with ⟨v, rfl, ⟨rfl, rfl⟩ | ⟨-, -, rfl⟩ | ⟨-, -, rfl⟩⟩ |
    ⟨p, i, rfl, ⟨b, -, rfl⟩ | ⟨-, rfl⟩⟩ | ⟨b, rfl, rfl⟩ | ⟨rfl, rfl⟩ | ⟨-, -, -, hfifo, hpos, -⟩
  · exact .inr (.inr (.inr ⟨rfl, rfl, rfl⟩))
  · exact .inl ⟨rfl, rfl⟩
  · exact .inl (by simp)
  · exact .inl ⟨rfl, rfl⟩
  · exact .inl ⟨rfl, rfl⟩
  · exact .inr (.inl ⟨b, rfl, rfl, rfl⟩)
  · exact .inr (.inr (.inl ⟨rfl, rfl, rfl⟩))
  · exact .inl ⟨hfifo, hpos⟩

/-- No transaction changes the parameters (00_scope.md R7). -/
theorem transact_cfg {op : Transaction} {s t : State} (h : State.transact op s = .next t) : t.cfg = s.cfg := by
  rcases transact_cases h with ⟨v, rfl, ⟨rfl, rfl⟩ | ⟨-, -, rfl⟩ | ⟨-, -, rfl⟩⟩ |
    ⟨p, i, rfl, ⟨b, -, rfl⟩ | ⟨-, rfl⟩⟩ | ⟨b, rfl, rfl⟩ | ⟨rfl, rfl⟩ | ⟨-, -, -, -, -, -, -, hcfg⟩
  · rfl
  · rfl
  · simp
  · rfl
  · rfl
  · rfl
  · rfl
  · exact hcfg

/-- No step changes the parameters (00_scope.md R7). -/
theorem step_cfg {s t : State} (h : step s = .next t) : t.cfg = s.cfg := by
  rcases step_forms h with ⟨-, rfl | ⟨l, -, rfl | ⟨i, -, -, hx⟩⟩⟩ | ⟨-, ⟨ops, r, rfl⟩ | ⟨op, rest, -, hx⟩⟩
  · rfl
  · rfl
  · exact (exec_keeps_run hx).1
  · rfl
  · exact transact_cfg (s := { s.turnTaken with host := rest }) hx

/-- Settles O56: the engine changes the context only in GEOM, the host only by SRESET. -/
theorem contextChangesOnlyByGeomOrReset : Obligations.ContextChangesOnlyByGeomOrReset := by
  intro s t h hne
  rcases step_forms h with ⟨ha, rfl | ⟨l, hl, rfl | ⟨i, hi, hd, hx⟩⟩⟩ |
    ⟨ha, ⟨ops, r, rfl⟩ | ⟨op, rest, hh, hx⟩⟩
  · exact absurd rfl hne
  · exact absurd rfl hne
  · rcases exec_ctx hi hx with hctx | ⟨rfl, hsome⟩
    · exact absurd hctx hne
    · exact .inl ⟨ha, hsome, l, hl, hd⟩
  · exact absurd rfl hne
  · rcases transact_ctx hx with hctx | ⟨rfl, hnone⟩
    · exact absurd hctx hne
    · exact .inr ⟨ha, hnone, rest, hh⟩

/-- Settles O57: the engine changes the source only in DECODE, the host by a push, a flush or SRESET. -/
theorem onlyDecodeTakesSourceBytes : Obligations.OnlyDecodeTakesSourceBytes := by
  intro s t h
  rcases step_forms h with ⟨ha, rfl | ⟨l, hl, rfl | ⟨i, hi, hd, hx⟩⟩⟩ |
    ⟨ha, ⟨ops, r, rfl⟩ | ⟨op, rest, hh, hx⟩⟩
  · exact .inl ⟨rfl, rfl⟩
  · exact .inl ⟨rfl, rfl⟩
  · rcases exec_source hi hx with hsame | ⟨rfl, n, hn, htaken⟩
    · exact .inl hsame
    · exact .inr (.inr ⟨ha, l, n, hl, hd, hn, htaken⟩)
  · exact .inl ⟨rfl, rfl⟩
  · rcases transact_source hx with hsame | hop
    · exact .inl hsame
    · exact .inr (.inl ⟨ha, op, rest, hh, hop⟩)

/-! ### The latch -/

/-- The CMD write of a word other than SRESET to an idle block is its accept (45_control.md R238). -/
theorem cmdWrite_accepted {s : State} {v : Word} (hb : s.status.busy = false) (hv : v ≠ encode .sreset) :
    State.transact (.csrWr cmdIndex v) s = .next (({ s with ret := .none } : State).accept v) := by
  simp [State.transact, State.cmdRequest, hv, hb]

@[simp] theorem decode_encode (i : Instr) : decode (encode i) = .ok i := by
  simp [decode, decodeOpcode_opcodeOf]

theorem encode_injective : Function.Injective encode := fun i j h =>
  Except.ok.inj (by rw [← decode_encode i, h, decode_encode])

/-- Accepting the word of a command latches the operands that command reads (10_state.md R48). -/
theorem cmdWrite_latches {s : State} {i : Instr} (hb : s.status.busy = false) (hi : i ≠ .sreset) :
    ∃ t, State.transact (.csrWr cmdIndex (encode i)) s = .next t ∧ t.latch = some ⟨encode i, s.operandsOf i⟩ := by
  refine ⟨_, cmdWrite_accepted hb (encode_injective.ne hi), ?_⟩
  simp only [State.accept_fields, State.capture, decode_encode]
  rfl

/-- A transaction other than a CMD write leaves the latch (10_state.md R48). -/
theorem transact_latch {op : Transaction} {s t : State} (hop : ∀ v, op ≠ .csrWr cmdIndex v)
    (h : State.transact op s = .next t) : t.latch = s.latch := by
  rcases transact_cases h with ⟨v, rfl, -⟩ | ⟨p, i, rfl, ⟨b, -, rfl⟩ | ⟨-, rfl⟩⟩ | ⟨b, rfl, rfl⟩ | ⟨rfl, rfl⟩ |
    ⟨-, -, -, -, -, -, hlatch, -⟩
  · exact absurd rfl (hop v)
  · rfl
  · rfl
  · rfl
  · rfl
  · exact hlatch

/-- Settles O13: the accept latches `operandsOf` the command. -/
theorem latchHoldsTheOperandsOfTheAccept : Obligations.LatchHoldsTheOperandsOfTheAccept := by
  refine ⟨fun s hb => ⟨?_, ?_, ?_, ?_⟩, fun s s' t hop h => transact_latch hop h, fun s hs hb => ?_⟩
  · obtain ⟨t, ht, hl⟩ := cmdWrite_latches (i := .lookup) hb (by decide)
    exact ⟨t, _, ht, hl, rfl⟩
  · obtain ⟨t, ht, hl⟩ := cmdWrite_latches (i := .findname) hb (by decide)
    exact ⟨t, _, ht, hl, rfl, rfl⟩
  · obtain ⟨t, ht, hl⟩ := cmdWrite_latches (i := .geom) hb (by decide)
    exact ⟨t, _, ht, hl, rfl, rfl, rfl, rfl⟩
  · obtain ⟨t, ht, hl⟩ := cmdWrite_latches (i := .decode) hb (by decide)
    exact ⟨t, _, ht, hl, rfl⟩
  · simpa [hb] using hs.busyLatch

/-! ### Registers -/

/-- The number of a field above another. -/
theorem toNat_append_add {m n : Nat} (x : BitVec m) (y : BitVec n) :
    (x ++ y).toNat = x.toNat * 2 ^ n + y.toNat := by
  rw [BitVec.toNat_append, ← Nat.shiftLeft_add_eq_or_of_lt y.isLt, Nat.shiftLeft_eq]

/-- Settles O15: each append shifts the fields above by the width of the one below. -/
theorem statusWordHasItsFields : Obligations.StatusWordHasItsFields := by
  intro st
  simp only [Status.word, toNat_append_add, bit, BitVec.toNat_ofBool, BitVec.toNat_ofNat]
  omega

@[simp] theorem csrRead_id (s : State) : s.csrRead 0x00 = idWord s.cfg.registry := rfl

/-- Settles O17: the word of ID is its fields, and no step changes the registry. -/
theorem idRegisterIsConstant : Obligations.IdRegisterIsConstant := by
  refine ⟨fun s hn => ?_, rfl, fun s t h => ?_⟩
  · simp only [csrRead_id, idWord, toNat_append_add, BitVec.toNat_ofNat, Nat.mod_eq_of_lt hn, idMagic]
    omega
  · rw [csrRead_id, csrRead_id, step_cfg h]

/-! ### Canonical memories -/

/-- In a memory with rising addresses, the byte found at an address is the one listed there. -/
theorem Memory.find_eq_some_iff {m : Memory} (hm : m.Pairwise (fun c c' => c.1 < c'.1)) (c : Host.Cell) :
    m.find c.1 = some c.2 ↔ c ∈ m := by
  induction m with
  | nil => simp
  | cons d m ih =>
    obtain ⟨hd, hm⟩ := List.pairwise_cons.mp hm
    rw [Memory.find_cons, List.mem_cons]
    by_cases ha : d.1 = c.1
    · have hnot : c ∉ m := fun hc => absurd (hd c hc) (by omega)
      simp [ha, hnot, Prod.ext_iff, eq_comm]
    · have hne : c ≠ d := fun hc => ha (hc ▸ rfl)
      simp [ha, hne, ih hm]

/-- In the canonical form a cell is listed exactly where its byte is read and is not what an unlisted address reads as. -/
theorem Memory.mem_iff_read {u : Option Byte} {bound : Nat} {m : Memory} (hm : m.wf u bound) (c : Host.Cell) :
    c ∈ m ↔ m.read u c.1 = some c.2 ∧ some c.2 ≠ u := by
  rw [← Memory.find_eq_some_iff hm.1, Memory.read]
  cases hf : m.find c.1 with
  | none => simp [eq_comm]
  | some b =>
    have hmem : (c.1, b) ∈ m := (Memory.find_eq_some_iff hm.1 (c.1, b)).mp hf
    have hb : some b ≠ u := (hm.2 _ hmem).2
    simp only [Option.some_or, Option.some.injEq, iff_self_and]
    rintro rfl
    exact hb

/-- Settles O60: the reads fix the cells, and a list with rising addresses is fixed by its cells. -/
theorem canonicalMemoriesThatReadAlikeAreEqual : Obligations.CanonicalMemoriesThatReadAlikeAreEqual := by
  intro u bound m m' hm hm' hread
  have : Std.Antisymm (fun c c' : Host.Cell => c.1 < c'.1) := ⟨fun c c' h h' => absurd h (Nat.lt_asymm h')⟩
  have : Std.Irrefl (fun c c' : Host.Cell => c.1 < c'.1) := ⟨fun c => Nat.lt_irrefl c.1⟩
  refine hm.1.eq_of_mem_iff hm'.1 fun c => ?_
  rw [Memory.mem_iff_read hm, Memory.mem_iff_read hm', hread]

/-! ### Reset -/

/-- At reset every register but ID reads 0. -/
theorem csrRead_reset {i : Fin 64} (hi : i ≠ 0x00) : State.reset.csrRead i = 0#64 := by
  unfold State.csrRead
  split
  · next h => exact absurd (Fin.ext h) hi
  all_goals rfl

/-- Settles O9: the registers by `csrRead_reset`, every plane empty. -/
theorem resetLeavesEveryResetValue : Obligations.ResetLeavesEveryResetValue :=
  ⟨rfl, fun _ hi => csrRead_reset hi, rfl, rfl, fun p => ⟨by cases p <;> rfl, rfl, fun i => by cases p <;> rfl⟩,
    fun _ => rfl, rfl, rfl, rfl⟩

/-- Settles O51: the reset state is its own reset event, and the default registry is well-formed. -/
theorem invariantAtReset : Obligations.InvariantAtReset :=
  inv_resetEvent (s := State.reset) (by decide)

end Sys2Proof.Machine
end

section
/-! The memory family (20_memory.md): who writes the frame buffer. -/

namespace Sys2Proof.Machine

/-- Only the word of a command decodes to it (30_encoding.md R81, R82). -/
theorem eq_encode_of_decode {v : Word} {i : Instr} (h : decode v = .ok i) : v = encode i := by
  unfold decode at h
  split at h
  · next hrsvd =>
    have hr : rsvdField v = 0#56 := hrsvd
    calc v = rsvdField v ++ opcodeField v := word_eq_fields v
      _ = rsvdField (encode i) ++ opcodeField (encode i) := by
        rw [hr, opcodeOf_of_decodeOpcode h, rsvdField_encode, opcodeField_encode]
      _ = encode i := (word_eq_fields _).symm
  · cases h

/-- Only GEOM and DECODE change the frame buffer (20_memory.md R60). -/
theorem exec_fb {i : Instr} {s t : State} (hi : i ≠ .sreset) (h : exec i s = .next t) :
    t.fb = s.fb ∨ i = .geom ∨ i = .decode := by
  rcases exec_forms hi h with ⟨e, rfl⟩ | ⟨-, rfl⟩ | ⟨-, d, rfl⟩ | ⟨-, fid, rfl⟩ | ⟨hg, -⟩ | ⟨hd, -⟩
  · exact .inl rfl
  · exact .inl rfl
  · exact .inl rfl
  · exact .inl rfl
  · exact .inr (.inl hg)
  · exact .inr (.inr hd)

/-- Of the accepts only that of a DECODE changes the frame buffer (44_decode.md R216). -/
theorem accept_fb {v : Word} (hv : v ≠ encode .decode) (s : State) : (s.accept v).fb = s.fb := by
  rw [State.accept_keeps fun h => hv (eq_encode_of_decode h.1)]

/-- Of the host's transactions only an SRESET and the CMD write of a DECODE change the frame buffer (20_memory.md R60). -/
theorem transact_fb {op : Transaction} {s t : State} (h : State.transact op s = .next t) :
    t.fb = s.fb ∨ ∃ v, op = .csrWr cmdIndex v ∧ (v = encode .sreset ∨ v = encode .decode) := by
  rcases transact_cases h with ⟨v, rfl, ⟨hv, -⟩ | ⟨-, -, rfl⟩ | ⟨-, -, rfl⟩⟩ |
    ⟨p, i, rfl, ⟨b, -, rfl⟩ | ⟨-, rfl⟩⟩ | ⟨b, rfl, rfl⟩ | ⟨rfl, rfl⟩ | ⟨-, hfb, -⟩
  · exact .inr ⟨v, rfl, .inl hv⟩
  · exact .inl rfl
  · by_cases hv : v = encode .decode
    · exact .inr ⟨v, rfl, .inr hv⟩
    · exact .inl (accept_fb hv _)
  · exact .inl rfl
  · exact .inl rfl
  · exact .inl rfl
  · exact .inl rfl
  · exact .inl hfb

/-- Settles O55: the engine writes the frame buffer only in GEOM and DECODE, the host's CMD write only at an SRESET or the
accept of a DECODE. -/
theorem frameBufferHasThreeWriters : Obligations.FrameBufferHasThreeWriters := by
  intro s t h hne
  rcases step_forms h with ⟨ha, rfl | ⟨l, hl, rfl | ⟨i, hi, hd, hx⟩⟩⟩ |
    ⟨ha, ⟨ops, r, rfl⟩ | ⟨op, rest, hh, hx⟩⟩
  · exact absurd rfl hne
  · exact absurd rfl hne
  · rcases exec_fb hi hx with hfb | rfl | rfl
    · exact absurd hfb hne
    · exact .inl ⟨ha, l, hl, .inl hd⟩
    · exact .inl ⟨ha, l, hl, .inr hd⟩
  · exact absurd rfl hne
  · rcases transact_fb hx with hfb | ⟨v, rfl, hv⟩
    · exact absurd hfb hne
    · exact .inr ⟨ha, v, rest, hh, hv⟩

end Sys2Proof.Machine
end

section
/-! The encoding family (30_encoding.md): the command word, illegal words, the check of the registry and the descriptor
words. -/

namespace Sys2Proof.Machine

/-! ### The command word -/

/-- A word selects a command exactly when it is that command's word (30_encoding.md R81). -/
theorem decode_eq_ok_iff (v : Word) (i : Instr) : decode v = .ok i ↔ v = encode i :=
  ⟨eq_encode_of_decode, fun h => h ▸ decode_encode i⟩

/-- Settles O1: decoding inverts encoding, and the words are those of the table. -/
theorem wordsDecodeExactlyToTheirCommand : Obligations.WordsDecodeExactlyToTheirCommand :=
  ⟨decode_eq_ok_iff, rfl⟩

/-- Settles O2: each of the six words is an encoding, the three others break R82. -/
theorem opcodeMapWords : Obligations.OpcodeMapWords := by
  simp only [Obligations.OpcodeMapWords, decode_eq_ok_iff]
  exact ⟨rfl, rfl, rfl, rfl, rfl, rfl, rfl, rfl, rfl⟩

/-! ### Illegal words -/

/-- The illegal words: reserved bits set, or an OPCODE outside the table (30_encoding.md R82). -/
theorem decode_error_iff (v : Word) : (∃ e, decode v = .error e) ↔
    (v.toNat / 256 ≠ 0 ∨ (0x05 ≤ v.toNat % 256 ∧ v.toNat % 256 ≤ 0x0E) ∨ 0x10 ≤ v.toNat % 256) := by
  have hrsvd : rsvdField v = 0 ↔ v.toNat / 256 = 0 := rsvdField_eq_zero v
  unfold decode
  split
  · next h => simp [decodeOpcode_error, opcodeField_toNat, hrsvd.mp h]
  · next h => simp [mt hrsvd.mpr h]

/-- The accept of an illegal word writes STATUS and the latch alone (45_control.md R238, 60_exceptions.md R269). -/
theorem accept_illegal {v : Word} {e : DecodeError} (he : decode v = .error e) (s : State) :
    s.accept v = { s with
      status := s.status.accepted (opcodeField v), latch := some { op := v, operands := s.capture v } } :=
  State.accept_keeps (by simp [he])

/-- The engine step of a latched illegal word (60_exceptions.md R269). -/
theorem engineStep_illegal {s : State} {l : Latch} {e : DecodeError} (hb : s.status.busy = true)
    (hl : s.latch = some l) (he : decode l.op = .error e) :
    s.engineStep = .next (s.completeError .illegalCommand) := by
  simp [State.engineStep, execIllegal, hb, hl, he]

/-- Settles O3: the word is not SRESET, so it is accepted, and the engine step after that rejects it. -/
theorem illegalWordCompletesWithIllegalCommand : Obligations.IllegalWordCompletesWithIllegalCommand := by
  refine ⟨decode_error_iff, ?_⟩
  rintro s v hb ⟨e, he⟩
  have hv : v ≠ encode .sreset := by rintro rfl; simp at he
  refine ⟨cmdWrite_accepted hb hv, ?_⟩
  rw [accept_illegal he, engineStep_illegal (l := ⟨v, _⟩) rfl rfl he]
  simp only [State.completeError, Status.failed, Status.accepted, ErrKind.code, opcodeField]

/-! ### The check of the registry -/

/-- The check of a registry is the conditions of 30_encoding.md R93 on its descriptors, and that its ids are distinct. -/
theorem registryWf_iff (r : Registry) :
    registryWf r = true ↔ (∀ e ∈ r, DescriptorConditions e.2) ∧ (r.map Prod.fst).Nodup := by
  simp only [registryWf, Bool.and_eq_true, List.all_eq_true, descriptor_wf_iff, decide_eq_true_eq]

/-- The engine's turn refuses nothing. -/
theorem engineStep_ne_refused (s : State) (r : Refusal) : s.engineStep ≠ .refused r := by
  unfold State.engineStep
  split
  · split
    · simp
    · split
      · simp [execIllegal]
      · next i _ =>
        split
        · simp [execIllegal]
        · obtain ⟨t, ht⟩ := exec_total i s
          simp [ht]
  · simp

/-- The host's turn answers a next state, in every state. -/
theorem hostStep_total (s : State) : ∃ t, s.hostStep = .next t := by
  unfold State.hostStep
  split
  · exact ⟨_, rfl⟩
  · exact transact_total _ _
  · split <;> exact ⟨_, rfl⟩

/-- Neither agent's step refuses anything: only the check of the registry does (30_encoding.md R93). -/
theorem agentStep_ne_refused (s : State) (r : Refusal) : s.agentStep ≠ .refused r := by
  unfold State.agentStep
  split
  · exact engineStep_ne_refused _ r
  · obtain ⟨t, ht⟩ := hostStep_total s.turnTaken
    simp [ht]

/-- A step is refused exactly when the configuration is not well-formed, and then for that reason. -/
theorem step_refused_iff (s : State) (r : Refusal) :
    step s = .refused r ↔ s.cfg.wf ≠ true ∧ r = .illFormedRegistry := by
  unfold step
  split
  · next hw => simp [hw, agentStep_ne_refused]
  · next hw => simp [hw, eq_comm]

/-- Settles O7: the refusal is the failed check, written out by `registryWf_iff`. -/
theorem illFormedRegistryIsRefused : Obligations.IllFormedRegistryIsRefused := by
  refine fun s => ⟨?_, fun r h => ((step_refused_iff s r).mp h).2⟩
  calc step s = .refused .illFormedRegistry
    _ ↔ ¬ registryWf s.cfg.registry = true := by simp [step_refused_iff, Config.wf]
    _ ↔ _ := by simp only [registryWf_iff, not_and_or, not_forall, exists_prop]

/-! ### The descriptor words -/

/-- CORDER in numbers (30_encoding.md R91). -/
theorem corderField_toNat (d : Descriptor) : (corderField d).toNat =
    if d.fam = .packed422 then (decide (d.croff.toNat < d.cboff.toNat)).toNat else (orderCode d.co).toNat := by
  unfold corderField
  split
  · next hf =>
    rw [if_pos hf]
    by_cases h : d.croff.toNat < d.cboff.toNat <;> simp [h]
  all_goals next hf => simp [hf]

/-- An offset that is 0 outside the packed family stands in its field (30_encoding.md R91, R93 (7)). -/
theorem offsetField_eq {d : Descriptor} {off : BitVec 2} (h : d.fam ≠ .packed422 → off.toNat = 0) :
    offsetField d off = off := by
  unfold offsetField
  split
  · rfl
  all_goals next hf => exact BitVec.eq_of_toNat_eq (h (by simp [hf])).symm

/-- A dimension that is 0 outside the tiled family stands in its field (30_encoding.md R92, R93 (7)). -/
theorem tileField_eq {d : Descriptor} {dim : BitVec 16} (h : d.fam ≠ .tiled → dim.toNat = 0) :
    tileField d dim = dim := by
  unfold tileField
  split
  · rfl
  all_goals next hf => exact BitVec.eq_of_toNat_eq (h (by simp [hf])).symm

/-- DESC0 as the sum of its fields (30_encoding.md R91). -/
theorem enc0_toNat (d : Descriptor) : (enc0 d).toNat =
    (familyCode d.fam).toNat + 8 * (subsCode d.subs).toNat + 32 * (corderField d).toNat +
      64 * (depthCode d.depth).toNat + 128 * (packCode d.pack).toNat + 512 * (offsetField d d.yoff).toNat +
      2048 * (offsetField d d.cboff).toNat + 8192 * (offsetField d d.croff).toNat +
      65536 * (topoCode (topologyOf d.fam)).toNat := by
  simp only [enc0, toNat_append_add, BitVec.toNat_ofNat]
  omega

/-- DESC1 as the sum of its fields (30_encoding.md R92). -/
theorem enc1_toNat (d : Descriptor) : (enc1 d).toNat =
    (tileField d d.tw).toNat + 2 ^ 16 * (tileField d d.th).toNat + 2 ^ 32 * min d.toks.length 255 := by
  simp only [enc1, toNat_append_add, BitVec.toNat_ofNat]
  omega

/-- Settles O23: a well-formed descriptor has offsets and tile dimensions only where their fields show them. -/
theorem descriptorWordsHaveTheirFields : Obligations.DescriptorWordsHaveTheirFields := by
  refine ⟨rfl, rfl, rfl, rfl, rfl, fun d hd => ?_⟩
  have hd := (descriptor_wf_iff d).mp hd
  constructor
  · rw [enc0_toNat, corderField_toNat, offsetField_eq fun h => (hd.offsetsOnly h).1,
      offsetField_eq fun h => (hd.offsetsOnly h).2.1, offsetField_eq fun h => (hd.offsetsOnly h).2.2]
  · rw [enc1_toNat, tileField_eq fun h => (hd.tileOnly h).1, tileField_eq fun h => (hd.tileOnly h).2]

/-! ### The default registry -/

/-- `lookup` fails exactly for an id that is no key (40_registry.md R110). -/
theorem lookup_unsupported_iff (r : Registry) (fid : BitVec 16) :
    lookup r fid = .error .unsupportedFormat ↔ fid ∉ r.map Prod.fst := by
  have hkey : fid ∉ r.map Prod.fst ↔ registryFind r fid = none := by simp [registryFind_none]
  rw [hkey, lookup]
  cases registryFind r fid <;> simp

/-- The keys of the default registry are 0 to 12 (30_encoding.md R96). -/
theorem mem_defaultRegistry_keys (fid : BitVec 16) : fid ∈ defaultRegistry.map Prod.fst ↔ fid.toNat < 13 := by
  have hkeys : defaultRegistry.map Prod.fst = (List.range 13).map (BitVec.ofNat 16) := rfl
  simp only [hkeys, List.mem_map, List.mem_range]
  constructor
  · rintro ⟨n, hn, rfl⟩
    rw [BitVec.toNat_ofNat]; omega
  · exact fun h => ⟨fid.toNat, h, BitVec.eq_of_toNat_eq (by simp)⟩

/-- Settles O24: the ids by `mem_defaultRegistry_keys`, the words by evaluation. -/
theorem defaultRegistryGivesTheTableWords : Obligations.DefaultRegistryGivesTheTableWords := by
  refine ⟨by decide, fun fid => ?_, rfl⟩
  rw [lookup_unsupported_iff, mem_defaultRegistry_keys, Nat.not_lt]

end Sys2Proof.Machine
end

section
/-! The registry family (40_registry.md): LOOKUP, the name match and FINDNAME. -/

namespace Sys2Proof.Machine

/-! ### The latched operands -/

/-- After the accept of a command's word, an engine step reads what that command latched (10_state.md R48). -/
theorem operandsFor_accept (i j : Instr) (s : State) : (s.accept (encode i)).operandsFor j = s.operandsOf i := by
  simp [State.operandsFor, State.accept_fields, State.capture]

/-! ### LOOKUP -/

/-- LOOKUP of a key writes the words of its descriptor (40_registry.md R117). -/
theorem exec_lookup_of_found {s : State} {d : Descriptor}
    (h : registryFind s.cfg.registry (s.operandsFor .lookup).fid = some d) :
    exec .lookup s = .next ({ s with desc0 := enc0 d, desc1 := enc1 d } : State).completeSuccess := by
  simp only [exec, execLookup, lookup, h]

/-- LOOKUP of an id that is no key completes with UnsupportedFormat (40_registry.md R117). -/
theorem exec_lookup_of_none {s : State} (h : registryFind s.cfg.registry (s.operandsFor .lookup).fid = none) :
    exec .lookup s = .next (s.completeError .unsupportedFormat) := by
  simp only [exec, execLookup, lookup, h]

/-- Settles O25: in a well-formed registry the entry of the latched id is the one found. -/
theorem lookupWritesTheDescriptorWords : Obligations.LookupWritesTheDescriptorWords := by
  refine ⟨rfl, fun s => ?_, fun fid => ?_, fun s => ⟨fun d hd hwf => ?_, fun hnone => ?_⟩⟩
  · rw [operandsFor_accept]; rfl
  · rw [← mem_defaultRegistry_keys]; simp
  · exact exec_lookup_of_found (registryFind_of_mem hwf hd)
  · exact exec_lookup_of_none (registryFind_none.mpr hnone)

/-! ### The best match -/

/-- Token `k` of entry `fid` is the match 40_registry.md R116 chooses among all that match `t`: none is longer, none as
long comes before it, and no smaller id has it. -/
def IsBestMatch (r : Registry) (t k : List Byte) (fid : BitVec 16) : Prop :=
  TokenMatches r t k fid ∧ ∀ k' fid', TokenMatches r t k' fid' →
    k'.length ≤ k.length ∧ (k'.length = k.length → k' = k ∨ LexBefore k k') ∧ (k' = k → fid.toNat ≤ fid'.toNat)

/-- Of two tokens of one length at most one comes before the other (40_registry.md R116). -/
theorem LexBefore.asymm {a b : List Byte} (hl : a.length = b.length) (h : LexBefore a b) : ¬ LexBefore b a := by
  intro h'
  have haa := lexLt_trans ((lexLt_iff a b hl).mpr h) ((lexLt_iff b a hl.symm).mpr h')
  simp [lexLt_irrefl] at haa

/-- The rule of 40_registry.md R116 chooses at most one id. -/
theorem IsBestMatch.unique {r : Registry} {t k k' : List Byte} {fid fid' : BitVec 16} (h : IsBestMatch r t k fid)
    (h' : IsBestMatch r t k' fid') : fid = fid' := by
  obtain ⟨hm, hbest⟩ := h
  obtain ⟨hm', hbest'⟩ := h'
  obtain ⟨hle, hlex, hid⟩ := hbest k' fid' hm'
  obtain ⟨hle', hlex', hid'⟩ := hbest' k fid hm
  have hl : k'.length = k.length := Nat.le_antisymm hle hle'
  have hk : k' = k := by
    rcases hlex hl with hk | hkk'
    · exact hk
    · exact (hlex' hl.symm).elim Eq.symm fun hk'k => absurd hk'k (hkk'.asymm hl.symm)
  exact BitVec.eq_of_toNat_eq (Nat.le_antisymm (hid hk) (hid' hk.symm))

/-- What the first filter of `findByNameToken` leaves: the longest of the matching tokens. -/
theorem mem_longestTokens {cands : List (List Byte × BitVec 16)} {len : Nat} {k : List Byte} :
    k ∈ (cands.map Prod.fst).filter (fun k => k.length == len) ↔ (∃ fid, (k, fid) ∈ cands) ∧ k.length = len := by
  simp

/-- What the second filter of `findByNameToken` leaves: the ids that have the token. -/
theorem mem_idsOfToken {cands : List (List Byte × BitVec 16)} {k : List Byte} {fid : BitVec 16} :
    fid ∈ (cands.filter (fun c => c.1 == k)).map Prod.snd ↔ (k, fid) ∈ cands := by
  simp

/-- All that `findByNameToken` can answer: the id of the best match, or NoMatch when nothing matches. -/
theorem findByNameToken_cases (r : Registry) (text : List Byte) :
    (∃ k fid, findByNameToken r text = .ok fid ∧ IsBestMatch r (lower text) k fid) ∨
    (findByNameToken r text = .error .noMatch ∧ ∀ k fid, ¬ TokenMatches r (lower text) k fid) := by
  simp only [findByNameToken]
  have hlen : ∀ {k fid}, (k, fid) ∈ candidates r (lower text) →
      k.length ≤ longest ((candidates r (lower text)).map Prod.fst) :=
    fun h => le_longest (List.mem_map_of_mem (f := Prod.fst) h)
  split
  · next hnil =>
    refine .inr ⟨rfl, fun k fid hm => ?_⟩
    obtain ⟨k', hk', hl⟩ := longest_mem (List.ne_nil_of_mem (List.mem_map_of_mem (f := Prod.fst) (mem_candidates.mpr hm)))
    exact List.ne_nil_of_mem (List.mem_filter.mpr ⟨hk', by simpa using hl⟩) hnil
  · next k ks htop =>
    obtain ⟨hfirst, hbefore⟩ := lexFirst_spec k ks
    rw [← htop] at hfirst hbefore
    obtain ⟨⟨f, hf⟩, hl⟩ := mem_longestTokens.mp hfirst
    split
    · next hnil => exact absurd hnil (List.ne_nil_of_mem (mem_idsOfToken.mpr hf))
    · next i is hids =>
      obtain ⟨hleast, hsmallest⟩ := leastId_spec i is
      rw [← hids] at hleast hsmallest
      refine .inl ⟨lexFirst k ks, _, rfl, mem_candidates.mp (mem_idsOfToken.mp hleast), fun k' fid' hm => ?_⟩
      have hc := mem_candidates.mpr hm
      refine ⟨hl ▸ hlen hc, fun hl' => ?_, ?_⟩
      · have hlex := hbefore k' (mem_longestTokens.mpr ⟨⟨fid', hc⟩, hl'.trans hl⟩)
        exact hlex.imp_right (lexLt_iff _ _ hl'.symm).mp
      · rintro rfl
        exact hsmallest fid' (mem_idsOfToken.mpr hc)

/-- `findByNameToken` answers exactly the id of the best match (40_registry.md R116). -/
theorem findByNameToken_ok_iff (r : Registry) (text : List Byte) (fid : BitVec 16) :
    findByNameToken r text = .ok fid ↔ ∃ k, IsBestMatch r (lower text) k fid := by
  rcases findByNameToken_cases r text with ⟨k, f, hok, hbest⟩ | ⟨herr, hnone⟩
  · rw [hok, Except.ok.injEq]
    exact ⟨fun h => ⟨k, h ▸ hbest⟩, fun ⟨_, h⟩ => hbest.unique h⟩
  · rw [herr]
    exact ⟨nofun, fun ⟨k, hm, _⟩ => absurd hm (hnone k fid)⟩

/-- `findByNameToken` answers NoMatch exactly when no token matches (40_registry.md R116). -/
theorem findByNameToken_noMatch_iff (r : Registry) (text : List Byte) :
    findByNameToken r text = .error .noMatch ↔ ∀ k fid, ¬ TokenMatches r (lower text) k fid := by
  rcases findByNameToken_cases r text with ⟨k, f, hok, hm, -⟩ | ⟨herr, hnone⟩
  · rw [hok]
    exact ⟨nofun, fun hnone => absurd hm (hnone k f)⟩
  · exact ⟨fun _ => hnone, fun _ => herr⟩

/-- Settles O26: the folding by its definition, the answer by `findByNameToken_ok_iff`. -/
theorem findByNameTokenIsTheLongestMatch : Obligations.FindByNameTokenIsTheLongestMatch :=
  ⟨fun _ _ => List.getElem?_map, fun r text => ⟨findByNameToken_ok_iff r text, findByNameToken_noMatch_iff r text⟩⟩

/-- Two registries in which the same tokens of the same ids match give the same answer (40_registry.md R120). -/
theorem findByNameToken_congr {r r' : Registry} {text : List Byte}
    (h : TokenMatches r (lower text) = TokenMatches r' (lower text)) : findByNameToken r text = findByNameToken r' text := by
  rcases findByNameToken_cases r' text with ⟨k, fid, hok, hbest⟩ | ⟨herr, hnone⟩
  · rw [hok, findByNameToken_ok_iff]
    exact ⟨k, by rwa [IsBestMatch, h]⟩
  · rw [herr, findByNameToken_noMatch_iff, h]
    exact hnone

/-- A match is a token some entry has, and a place where it stands in the text. -/
theorem tokenMatches_iff (r : Registry) (t k : List Byte) (fid : BitVec 16) :
    TokenMatches r t k fid ↔
      (∃ d, (fid, d) ∈ r ∧ k ∈ d.toks) ∧ 1 ≤ k.length ∧ ∃ p, slice t p (p + k.length) = k := by
  simp only [TokenMatches, ← and_assoc, exists_and_right]

/-- Settles O27: which tokens match depends only on which tokens which ids have. -/
theorem findByNameTokenIgnoresTheOrder : Obligations.FindByNameTokenIgnoresTheOrder := by
  intro r r' text h
  refine findByNameToken_congr ?_
  ext k fid
  rw [tokenMatches_iff, tokenMatches_iff, h]

/-! ### FINDNAME -/

/-- A token that matches is no longer than the text (40_registry.md R118). -/
theorem TokenMatches.length_le {r : Registry} {text k : List Byte} {fid : BitVec 16}
    (h : TokenMatches r (lower text) k fid) : k.length ≤ text.length := by
  obtain ⟨-, -, -, -, p, hp⟩ := h
  calc k.length = (slice (lower text) p (p + k.length)).length := by rw [hp]
    _ ≤ text.length := by simp [slice, lower]

/-- The empty text matches nothing (40_registry.md R118). -/
theorem not_tokenMatches_nil (r : Registry) (k : List Byte) (fid : BitVec 16) : ¬ TokenMatches r (lower []) k fid := by
  intro h
  have hle : k.length ≤ 0 := h.length_le
  obtain ⟨-, hpos, -⟩ := (tokenMatches_iff ..).mp h
  omega

/-- FINDNAME of a text that matches writes the id found (40_registry.md R118). -/
theorem exec_findname_of_ok {s : State} {fid : BitVec 16}
    (h : findByNameToken s.cfg.registry (s.operandsFor .findname).text = .ok fid) :
    exec .findname s = .next ({ s with resultId := fid } : State).completeSuccess := by
  simp only [exec, execFindname, h]

/-- FINDNAME of a text that matches nothing completes with NoMatch (40_registry.md R118). -/
theorem exec_findname_of_noMatch {s : State}
    (h : ∀ k fid, ¬ TokenMatches s.cfg.registry (lower (s.operandsFor .findname).text) k fid) :
    exec .findname s = .next (s.completeError .noMatch) := by
  simp only [exec, execFindname, (findByNameToken_noMatch_iff ..).mpr h]

/-- Settles O28: the engine step answers as `findByNameToken` does on the latched text. -/
theorem findnameWritesResultId : Obligations.FindnameWritesResultId := by
  refine ⟨rfl, fun s => ?_, fun r text k fid h => h.length_le, fun s => ⟨fun fid h => ?_, fun h => ?_, fun h => ?_⟩⟩
  · rw [operandsFor_accept]; rfl
  · exact exec_findname_of_ok h
  · exact exec_findname_of_noMatch h
  · exact exec_findname_of_noMatch (h ▸ not_tokenMatches_nil s.cfg.registry)

end Sys2Proof.Machine
end

section
/-! The geometry family (41_geometry.md): the calculator's checks and record, and GEOM. -/

namespace Sys2Proof.Machine

/-! ### The parts of a record -/

/-- The source chroma size by subsampling (41_geometry.md R137). -/
theorem chromaSrc_eq_ite (subs : Subsampling) (pix : Nat) : chromaSrc subs pix =
    if subs = .s420 then pix / 4 else if subs = .s422 then pix / 2 else if subs = .s444 then pix else 0 := by
  cases subs <;> rfl

/-- The output chroma size by family (41_geometry.md R138). -/
theorem chromaOut_eq_ite (d : Descriptor) (pix : Nat) : chromaOut d pix =
    if d.fam = .mixed ∨ d.fam = .mono then pix / 4 else chromaSrc d.subs pix := by
  unfold chromaOut
  cases d.fam <;> rfl

/-- Only a compact packing can have a byte count that is not whole (41_geometry.md R135). -/
theorem rawBytes_eq_none_iff (pack : Packing) (n : Nat) : rawBytes pack n = none ↔ pack = .compact ∧ n % 4 ≠ 0 := by
  cases pack <;> simp [rawBytes]

/-- The source bytes of a frame by packing (41_geometry.md R135). -/
theorem rawBytes_eq_some {pack : Packing} {n raw : Nat} (h : rawBytes pack n = some raw) :
    (pack = .pnone → raw = n) ∧ (pack = .loose → raw = 2 * n) ∧
      (pack = .compact → n % 4 = 0 ∧ raw = n * 10 / 8) := by
  cases pack <;> simpa [rawBytes, eq_comm] using h

/-- The allocation a geometry needs (41_geometry.md R136). -/
def allocationOf (w h : Nat) (d : Descriptor) : Nat :=
  2 * (w * h) + 2 * chromaSrc d.subs (w * h) + 2 * max (chromaSrc d.subs (w * h)) (chromaOut d (w * h))

theorem geometryRecord_alloc (w h : Nat) (d : Descriptor) (raw : Nat) :
    (geometryRecord w h d raw).alloc = allocationOf w h d := by
  simp only [geometryRecord, allocationOf]
  omega

/-- Record `g` holds the values of 41_geometry.md R130 for size `w` by `h` and descriptor `d`. -/
structure IsRecordOf (w h : Nat) (d : Descriptor) (g : Geometry) : Prop where
  pix : g.pix = w * h
  y : g.y = w * h
  csrc : g.csrc = chromaSrc d.subs (w * h)
  cout : g.cout = chromaOut d (w * h)
  cstore : g.cstore = max g.csrc g.cout
  r8 : g.r8 = g.y + 2 * g.csrc
  raw : rawBytes d.pack g.r8 = some g.raw
  alloc : g.alloc = allocationOf w h d
  wmb : g.wmb = true ↔ w % 16 ≠ 0 ∨ h % 16 ≠ 0

theorem geom_isRecordOf {cap w h : Nat} {d : Descriptor} {g : Geometry} (hg : geom cap w h d = .ok g) :
    IsRecordOf w h d g := by
  obtain ⟨-, -, -, -, raw, hraw, rfl, -⟩ := geom_ok hg
  exact ⟨rfl, rfl, rfl, rfl, rfl, rfl, hraw, geometryRecord_alloc .., by simp [geometryRecord]⟩

/-! ### The checks -/

/-- The compact byte count is not whole (41_geometry.md R135). -/
def RawNotWhole (w h : Nat) (d : Descriptor) : Prop :=
  d.pack = .compact ∧ (w * h + 2 * chromaSrc d.subs (w * h)) % 4 ≠ 0

/-- Every answer of `geom`, each with the checks that decide it, in the order of 41_geometry.md R130. -/
theorem geom_cases {cap w h : Nat} {d : Descriptor} {r : Except ErrKind Geometry} (hr : geom cap w h d = r) :
    (r = .error .invalidGeometry ∧
      ((w = 0 ∨ h = 0) ∨ ParityForbidden w h d ∨ (¬ TileForbidden w h d ∧ RawNotWhole w h d))) ∨
    (r = .error .invalidTileDims ∧ ¬ (w = 0 ∨ h = 0) ∧ ¬ ParityForbidden w h d ∧ TileForbidden w h d) ∨
    (¬ (w = 0 ∨ h = 0) ∧ ¬ ParityForbidden w h d ∧ ¬ TileForbidden w h d ∧ ¬ RawNotWhole w h d ∧
      ((r = .error .allocationFailure ∧ cap < allocationOf w h d) ∨
        ((∃ g, r = .ok g) ∧ ¬ cap < allocationOf w h d))) := by
  unfold geom at hr
  rw [← parityBad_iff, ← tileBad_iff]
  split at hr
  · next h0 => exact .inl ⟨hr.symm, .inl h0⟩
  · next h0 =>
    split at hr
    · next hp => exact .inl ⟨hr.symm, .inr (.inl hp)⟩
    · next hp =>
      split at hr
      · next ht => exact .inr (.inl ⟨hr.symm, h0, hp, ht⟩)
      · next ht =>
        split at hr
        · next hraw => exact .inl ⟨hr.symm, .inr (.inr ⟨ht, (rawBytes_eq_none_iff ..).mp hraw⟩)⟩
        · next raw hraw =>
          have hwhole : ¬ RawNotWhole w h d := fun hn => by
            cases ((rawBytes_eq_none_iff ..).mpr hn).symm.trans hraw
          rw [geometryRecord_alloc] at hr
          refine .inr (.inr ⟨h0, hp, ht, hwhole, ?_⟩)
          split at hr
          · next hcap => exact .inl ⟨hr.symm, hcap⟩
          · next hcap => exact .inr ⟨⟨_, hr.symm⟩, hcap⟩

theorem geom_invalidGeometry_iff (cap w h : Nat) (d : Descriptor) : geom cap w h d = .error .invalidGeometry ↔
    (w = 0 ∨ h = 0) ∨ ParityForbidden w h d ∨ (¬ TileForbidden w h d ∧ RawNotWhole w h d) := by
  rcases geom_cases (rfl : geom cap w h d = _) with
    ⟨hg, hbad⟩ | ⟨hg, h0, hp, ht⟩ | ⟨h0, hp, ht, hn, ⟨hg, -⟩ | ⟨⟨g, hg⟩, -⟩⟩
  · simp [hg, hbad]
  · simp [hg, h0, hp, ht]
  · simp [hg, h0, hp, hn]
  · simp [hg, h0, hp, hn]

theorem geom_invalidTileDims_iff (cap w h : Nat) (d : Descriptor) : geom cap w h d = .error .invalidTileDims ↔
    ¬ (w = 0 ∨ h = 0) ∧ ¬ ParityForbidden w h d ∧ TileForbidden w h d := by
  rcases geom_cases (rfl : geom cap w h d = _) with
    ⟨hg, hbad⟩ | ⟨hg, hfail⟩ | ⟨h0, hp, ht, hn, ⟨hg, -⟩ | ⟨⟨g, hg⟩, -⟩⟩
  · exact iff_of_false (by simp [hg]) (by tauto)
  · simp [hg, hfail]
  · simp [hg, ht]
  · simp [hg, ht]

theorem geom_allocationFailure_iff (cap w h : Nat) (d : Descriptor) : geom cap w h d = .error .allocationFailure ↔
    ¬ (w = 0 ∨ h = 0) ∧ ¬ ParityForbidden w h d ∧ ¬ TileForbidden w h d ∧ ¬ RawNotWhole w h d ∧
      cap < allocationOf w h d := by
  rcases geom_cases (rfl : geom cap w h d = _) with
    ⟨hg, hbad⟩ | ⟨hg, -, -, ht⟩ | ⟨h0, hp, ht, hn, ⟨hg, hcap⟩ | ⟨⟨g, hg⟩, hcap⟩⟩
  · exact iff_of_false (by simp [hg]) (by tauto)
  · simp [hg, ht]
  · simp [hg, h0, hp, ht, hn, hcap]
  · simp [hg, hcap]

/-- `geom` raises no error but the three of its checks (41_geometry.md R130). -/
theorem geom_error_kinds {cap w h : Nat} {d : Descriptor} {e : ErrKind} (he : geom cap w h d = .error e) :
    e = .invalidGeometry ∨ e = .invalidTileDims ∨ e = .allocationFailure := by
  rcases geom_cases he with ⟨h, -⟩ | ⟨h, -⟩ | ⟨-, -, -, -, ⟨h, -⟩ | ⟨⟨g, h⟩, -⟩⟩
  · cases h; exact .inl rfl
  · cases h; exact .inr (.inl rfl)
  · cases h; exact .inr (.inr rfl)
  · cases h

/-- Settles O29: each error by the one inversion of the checks, the record by `geom_isRecordOf`. -/
theorem geometryChecksInOrder : Obligations.GeometryChecksInOrder := by
  intro cap w h d
  simp only [← chromaSrc_eq_ite, ← chromaOut_eq_ite]
  refine ⟨geom_invalidGeometry_iff .., geom_invalidTileDims_iff .., geom_allocationFailure_iff ..,
    fun e he => geom_error_kinds he, fun g hg => ?_⟩
  have hrec := geom_isRecordOf hg
  obtain ⟨hnone, hloose, hcompact⟩ := rawBytes_eq_some hrec.raw
  exact ⟨hrec.pix, hrec.y, hrec.csrc, hrec.cout, hrec.cstore, hrec.r8, hnone, hloose, fun hc => (hcompact hc).2,
    hrec.alloc, hrec.wmb⟩

/-! ### Sizes -/

/-- The quarter of a 4:2:0 frame is exact (41_geometry.md R137). -/
theorem four_mul_csrc_s420 {cap w h : Nat} {d : Descriptor} {g : Geometry} (hg : geom cap w h d = .ok g)
    (hs : d.subs = .s420) : 4 * g.csrc = w * h := by
  obtain ⟨-, -, hpar, -⟩ := geom_ok hg
  have hw : 2 ∣ w := Nat.dvd_of_mod_eq_zero (even_width (.inl hs) hpar)
  have hh : 2 ∣ h := Nat.dvd_of_mod_eq_zero (even_height hs hpar)
  rw [(geom_isRecordOf hg).csrc, hs]
  exact Nat.mul_div_cancel' (Nat.mul_dvd_mul hw hh)

/-- The half of a 4:2:2 frame is exact (41_geometry.md R137). -/
theorem two_mul_csrc_s422 {cap w h : Nat} {d : Descriptor} {g : Geometry} (hg : geom cap w h d = .ok g)
    (hs : d.subs = .s422) : 2 * g.csrc = w * h := by
  obtain ⟨-, -, hpar, -⟩ := geom_ok hg
  have hw : 2 ∣ w := Nat.dvd_of_mod_eq_zero (even_width (.inr hs) hpar)
  rw [(geom_isRecordOf hg).csrc, hs]
  exact Nat.mul_div_cancel' (Dvd.dvd.mul_right hw h)

/-- Settles O30: the sizes are the record's, and the parity checks make the divisions exact. -/
theorem chromaSizesFollowSubsampling : Obligations.ChromaSizesFollowSubsampling := by
  intro cap w h d g hg
  have hrec := geom_isRecordOf hg
  have hsrc := hrec.csrc.trans (chromaSrc_eq_ite ..)
  have hout := hrec.cout.trans (chromaOut_eq_ite ..)
  refine ⟨fun hs => ⟨by simpa [hs] using hsrc, four_mul_csrc_s420 hg hs⟩,
    fun hs => ⟨by simpa [hs] using hsrc, two_mul_csrc_s422 hg hs⟩,
    fun hs => by simpa [hs] using hsrc, fun hs => by simpa [hs] using hsrc, fun hf => ?_, fun hmixed hmono => ?_⟩
  · rw [hout, if_pos hf]
  · rw [hout, if_neg (not_or.mpr ⟨hmixed, hmono⟩), hrec.csrc]

/-- Half-resolution chroma of a 4:2:0 frame (41_geometry.md R143 (d)). -/
theorem csrc_s420 {cap w h : Nat} {d : Descriptor} {g : Geometry} (hg : geom cap w h d = .ok g) (hs : d.subs = .s420) :
    g.csrc = (w / 2) * (h / 2) := by
  obtain ⟨-, -, hpar, -⟩ := geom_ok hg
  rw [(geom_isRecordOf hg).csrc, hs]
  exact quarter_area (even_width (.inl hs) hpar) (even_height hs hpar)

/-- Half-width chroma of a 4:2:2 frame (41_geometry.md R143 (d)). -/
theorem csrc_s422 {cap w h : Nat} {d : Descriptor} {g : Geometry} (hg : geom cap w h d = .ok g) (hs : d.subs = .s422) :
    g.csrc = (w / 2) * h := by
  obtain ⟨-, -, hpar, -⟩ := geom_ok hg
  rw [(geom_isRecordOf hg).csrc, hs]
  exact half_area h (even_width (.inr hs) hpar)

/-- Two bytes per pixel of a packed frame (41_geometry.md R143 (e)). -/
theorem r8_packed422 {cap w h : Nat} {d : Descriptor} {g : Geometry} (hd : d.wf = true) (hg : geom cap w h d = .ok g)
    (hf : d.fam = .packed422) : g.r8 = 2 * w * h := by
  have hrec := geom_isRecordOf hg
  have hs : d.subs = .s422 := (((descriptor_wf_iff d).mp hd).packed hf).1
  rw [hrec.r8, hrec.y, two_mul_csrc_s422 hg hs]
  ring

/-- A tiled frame is the luma rows and half as many chroma rows (41_geometry.md R143 (e)). -/
theorem r8_tiled {cap w h : Nat} {d : Descriptor} {g : Geometry} (hd : d.wf = true) (hg : geom cap w h d = .ok g)
    (hf : d.fam = .tiled) : g.r8 = w * h + w * (h / 2) := by
  obtain ⟨-, -, hpar, -⟩ := geom_ok hg
  have hrec := geom_isRecordOf hg
  have hs : d.subs = .s420 := ((descriptor_wf_iff d).mp hd).tiled hf
  have heven : 2 * (w / 2) = w := Nat.mul_div_cancel' (Nat.dvd_of_mod_eq_zero (even_width (.inl hs) hpar))
  rw [hrec.r8, hrec.y, csrc_s420 hg hs, ← Nat.mul_assoc, heven]

/-- A compact frame has ten bits for each 8-bit sample (41_geometry.md R143 (f)). -/
theorem raw_compact {cap w h : Nat} {d : Descriptor} {g : Geometry} (hg : geom cap w h d = .ok g)
    (hc : d.pack = .compact) : g.raw * 8 = g.r8 * 10 := by
  obtain ⟨-, -, hcompact⟩ := rawBytes_eq_some (geom_isRecordOf hg).raw
  obtain ⟨hwhole, hraw⟩ := hcompact hc
  omega

/-- Settles O31: the record's fields and the facts (d) to (g), each a lemma of its own. -/
theorem geometryInvariants : Obligations.GeometryInvariants := by
  intro cap w h d g hd hg
  obtain ⟨-, -, -, -, -, -, -, hcap⟩ := geom_ok hg
  have hrec := geom_isRecordOf hg
  obtain ⟨-, hloose, -⟩ := rawBytes_eq_some hrec.raw
  exact ⟨hrec.y, hrec.r8, ⟨view_le_store hg .cb, by simp [hrec.cstore]⟩, csrc_s420 hg, csrc_s422 hg,
    r8_packed422 hd hg, r8_tiled hd hg, raw_compact hg, hloose, raw_pos hg, hcap⟩

/-! ### GEOM -/

/-- The context a GEOM with operands `o` installs (41_geometry.md R139). -/
def Operands.newContext (o : Operands) : Context := { fid := o.fid, w := o.width, h := o.height }

/-- GEOM of a geometry that succeeds installs the context (41_geometry.md R139). -/
theorem exec_geom_of_ok {s : State} {d : Descriptor} {g : Geometry}
    (hg : contextGeometry s.cfg (s.operandsFor .geom).newContext = .ok (d, g)) :
    exec .geom s = .next (s.installContext (s.operandsFor .geom).newContext g
      (s.operandsFor .geom).srcSize).completeSuccess := by
  simp only [Operands.newContext] at hg
  simp only [exec, execGeom, hg, Operands.newContext]

/-- GEOM of a context without a geometry completes with its error (41_geometry.md R142). -/
theorem exec_geom_of_error {s : State} {e : ErrKind}
    (he : contextGeometry s.cfg (s.operandsFor .geom).newContext = .error e) :
    exec .geom s = .next (s.completeError e) := by
  simp only [Operands.newContext] at he
  simp only [exec, execGeom, he]

/-- The lookup comes before the geometry (60_exceptions.md R271). -/
theorem contextGeometry_of_none {cfg : Config} {c : Context} (hf : registryFind cfg.registry c.fid = none) :
    contextGeometry cfg c = .error .unsupportedFormat := by
  simp only [contextGeometry, lookup, hf]

theorem contextGeometry_of_error {cfg : Config} {c : Context} {d : Descriptor} {e : ErrKind}
    (hf : registryFind cfg.registry c.fid = some d) (he : geom cfg.fbCapacity c.w.toNat c.h.toNat d = .error e) :
    contextGeometry cfg c = .error e := by
  simp only [contextGeometry, lookup, hf, he]

/-- Settles O33: the lookup's error or the geometry's is the completion's. -/
theorem failedGeomWritesOnlyStatus : Obligations.FailedGeomWritesOnlyStatus := by
  intro s
  refine ⟨fun hf => exec_geom_of_error (contextGeometry_of_none hf), fun d e hf he => ?_⟩
  have hx := exec_geom_of_error (s := s) (contextGeometry_of_error (c := (s.operandsFor .geom).newContext) hf he)
  refine ⟨hx, ?_, ?_, ?_⟩
  all_goals
    rintro rfl
    exact hx

/-- CTXINFO as the sum of its fields (10_state.md R23). -/
theorem Context.info_toNat (c : Context) :
    c.info.toNat = c.fid.toNat + 2 ^ 16 * c.w.toNat + 2 ^ 32 * c.h.toNat := by
  simp only [Context.info, toNat_append_add, BitVec.toNat_ofNat]
  omega

/-- A size below 2^36 is what its register holds (10_state.md R41). -/
theorem toNat_register {n : Nat} (h : n < 2 ^ 36) : (BitVec.ofNat 64 n).toNat = n := by
  rw [BitVec.toNat_ofNat, Nat.mod_eq_of_lt (h.trans (by decide))]

/-- STATUS after a GEOM that succeeds, `same` saying whether the context was the current one (41_geometry.md R139, R140,
R141). -/
theorem status_contextSet_succeeded {cap w h : Nat} {d : Descriptor} {g : Geometry} (hg : geom cap w h d = .ok g)
    (same : Prop) [Decidable same] (n : BitVec 48) (st : Status) :
    (if same then st.contextSet g n else (st.contextSet g n).invalidated).succeeded = { st with
      busy := false, done := true, err := false, errcode := 0#4, ctx := true,
      warnMb := decide (w % 16 ≠ 0 ∨ h % 16 ≠ 0), warnFsize := decide (n.toNat ≠ 0 ∧ n.toNat % g.raw ≠ 0),
      valid := if same then st.valid else false } := by
  have hmb : g.wmb = decide (w % 16 ≠ 0 ∨ h % 16 ≠ 0) := by
    rw [Bool.eq_iff_iff, decide_eq_true_iff]
    exact (geom_isRecordOf hg).wmb
  by_cases hsame : same
  · simp [hsame, Status.succeeded, Status.contextSet, hmb]
  · simp [hsame, Status.succeeded, Status.contextSet, Status.invalidated, hmb]

/-- Settles O32: the fields `installContext` writes; each size fits its register. -/
theorem geomInstallsTheContext : Obligations.GeomInstallsTheContext := by
  intro s d g o c hf hg
  obtain ⟨hpix, hy, hcsrc, hcout, hr8, hraw⟩ := geometry_fits hg
  refine ⟨_, exec_geom_of_ok (contextGeometry_ok.mpr ⟨hf, hg⟩), ?_⟩
  rw [State.installContext_form]
  refine ⟨rfl, Context.info_toNat c, toNat_register hpix, toNat_register hy, toNat_register hcsrc,
    toNat_register hcout, toNat_register hr8, toNat_register hraw, status_contextSet_succeeded hg _ _ _,
    fun hc => if_pos hc, fun (hc : s.ctx ≠ some o.newContext) => ?_, rfl⟩
  simp only [State.completeSuccess_fields, o, if_neg hc]
  exact ⟨rfl, rfl, rfl, rfl, FrameBuffer.read_allocated g⟩

end Sys2Proof.Machine
end

section
/-! The bit-depth family (42_bitdepth.md): the rounding rule and the two converters. -/

namespace Sys2Proof.Machine

/-! ### The rounding rule -/

theorem conv8_monotone : Monotone conv8 :=
  fun _ _ h => min_le_min_left 255 (Nat.div_le_div_right (Nat.add_le_add_right h 2))

/-- Settles O34: the quotient by 4 is monotone and passes 255 at 1022. -/
theorem conversionRangeAndMonotone : Obligations.ConversionRangeAndMonotone :=
  ⟨fun _ => rfl, fun _ => min_le_left _ _, fun _ _ h => conv8_monotone h, fun s => by omega⟩

/-! ### Samples as numbers -/

/-- An OR above the low `k` bits is a sum. -/
theorem or_shiftLeft_of_lt {a k : Nat} (h : a < 2 ^ k) (b : Nat) : a ||| b <<< k = a + 2 ^ k * b := by
  rw [Nat.or_comm, ← Nat.shiftLeft_add_eq_or_of_lt h, Nat.shiftLeft_eq, Nat.add_comm, Nat.mul_comm]

/-- A loose sample is its two bytes as a 16-bit little-endian number (42_bitdepth.md R162). -/
theorem looseSample_eq (b : List Byte) (i : Nat) :
    looseSample b i = (byteAt b (2 * i)).toNat + 256 * (byteAt b (2 * i + 1)).toNat :=
  or_shiftLeft_of_lt (byteAt b (2 * i)).isLt _

/-- Position `k` takes `8 - 2k` bits from the lower byte and the other `2k + 2` from the upper (42_bitdepth.md R165). -/
theorem compactOffsets_eq {k : Nat} (hk : k < 4) : compactOffsets k = (8 - 2 * k, 2 * k + 2) := by
  interval_cases k <;> rfl

/-- The top `o` bits of the byte `a` below the `10 - o` low bits of `c`: the parts do not overlap, and they fit the 10-bit
mask (42_bitdepth.md R165). -/
theorem joinBits_eq {a o : Nat} (ha : a < 256) (ho : o ≤ 8) (c : Nat) :
    (a >>> (8 - o) ||| (c &&& (2 ^ (10 - o) - 1)) <<< o) &&& 0x3FF = a / 2 ^ (8 - o) + 2 ^ o * (c % 2 ^ (10 - o)) := by
  have hlow : a / 2 ^ (8 - o) < 2 ^ o := by
    rw [Nat.div_lt_iff_lt_mul (Nat.two_pow_pos _), ← Nat.pow_add, Nat.add_sub_cancel' ho]
    exact ha
  have hfits : a / 2 ^ (8 - o) + 2 ^ o * (c % 2 ^ (10 - o)) < 2 ^ 10 := by
    calc a / 2 ^ (8 - o) + 2 ^ o * (c % 2 ^ (10 - o))
        < 2 ^ o * (c % 2 ^ (10 - o) + 1) := by rw [Nat.mul_succ]; omega
      _ ≤ 2 ^ o * 2 ^ (10 - o) := Nat.mul_le_mul_left _ (Nat.mod_lt _ (Nat.two_pow_pos _))
      _ = 2 ^ 10 := by rw [← Nat.pow_add, Nat.add_sub_cancel' (by omega)]
  rw [Nat.shiftRight_eq_div_pow, Nat.and_two_pow_sub_one_eq_mod, or_shiftLeft_of_lt hlow]
  exact (Nat.and_two_pow_sub_one_eq_mod _ 10).trans (Nat.mod_eq_of_lt hfits)

/-- A compact sample as a sum of its two parts (42_bitdepth.md R165). -/
theorem unpack10_eq_add (b : List Byte) (i : Nat) :
    unpack10 b i = (byteAt b (5 * (i / 4) + i % 4)).toNat / 2 ^ (2 * (i % 4)) +
      2 ^ (8 - 2 * (i % 4)) * ((byteAt b (5 * (i / 4) + i % 4 + 1)).toNat % 2 ^ (2 * (i % 4) + 2)) := by
  have hk : i % 4 < 4 := Nat.mod_lt i (by decide)
  have hlow : 8 - (8 - 2 * (i % 4)) = 2 * (i % 4) := by omega
  have hhigh : 10 - (8 - 2 * (i % 4)) = 2 * (i % 4) + 2 := by omega
  have hjoin := joinBits_eq (byteAt b (5 * (i / 4) + i % 4)).isLt (Nat.sub_le 8 (2 * (i % 4)))
    (byteAt b (5 * (i / 4) + i % 4 + 1)).toNat
  rw [hlow, hhigh] at hjoin
  simpa only [unpack10, compactOffsets_eq hk, hlow] using hjoin

/-- The two parts of position `k` are the 10-bit digit `k` of the 40-bit little-endian number of the group's bytes
(42_bitdepth.md R165). -/
theorem groupParts_eq_digit {c : Nat → Nat} (hc : ∀ j, c j < 256) {k : Nat} (hk : k < 4) :
    c k / 2 ^ (2 * k) + 2 ^ (8 - 2 * k) * (c (k + 1) % 2 ^ (2 * k + 2)) =
      ((c 0 + 256 * c 1 + 256 ^ 2 * c 2 + 256 ^ 3 * c 3 + 256 ^ 4 * c 4) / 2 ^ (10 * k)) % 1024 := by
  have h0 := hc 0
  have h1 := hc 1
  have h2 := hc 2
  have h3 := hc 3
  have h4 := hc 4
  interval_cases k
  all_goals
    simp only [Nat.reduceAdd]
    omega

/-- Settles O35: the sum of a sample's two parts is a digit of the group's number. -/
theorem compactGroupIsLittleEndian : Obligations.CompactGroupIsLittleEndian := by
  intro b i at'
  rw [unpack10_eq_add]
  exact groupParts_eq_digit (c := at') (fun j => (byteAt b (5 * (i / 4) + j)).isLt) (Nat.mod_lt i (by decide))

/-! ### The converters -/

theorem loose_getElem? (b : List Byte) {n i : Nat} (h : i < n) :
    (loose b n)[i]? = some (BitVec.ofNat 8 (conv8 (looseSample b i))) := by
  simp [loose, h]

theorem compact_getElem? (b : List Byte) {n i : Nat} (h : i < n) :
    (compact b n)[i]? = some (BitVec.ofNat 8 (conv8 (unpack10 b i))) := by
  simp [compact, h]

@[simp] theorem byteAt_replicate_zero (m i : Nat) : byteAt (List.replicate m 0#8) i = 0#8 := by
  simp only [byteAt, List.getD_eq_getElem?_getD, List.getElem?_replicate]
  split <;> rfl

/-- Zero bytes convert to zero bytes (42_bitdepth.md R168 (d)). -/
theorem loose_replicate_zero (m n : Nat) : loose (List.replicate m 0#8) n = List.replicate n 0#8 := by
  have hzero : ∀ i, looseSample (List.replicate m 0#8) i = 0 := fun i => by simp [looseSample_eq]
  simp [loose, hzero, conv8]

/-- Zero bytes convert to zero bytes (42_bitdepth.md R168 (d)). -/
theorem compact_replicate_zero (m n : Nat) : compact (List.replicate m 0#8) n = List.replicate n 0#8 := by
  have hzero : ∀ i, unpack10 (List.replicate m 0#8) i = 0 := fun i => by simp [unpack10_eq_add]
  simp [compact, hzero, conv8]

/-- The loose pair of a sample holds it (42_bitdepth.md R168 (e)). -/
theorem looseSample_pair {v : Nat} (hv : v < 1024) :
    looseSample [BitVec.ofNat 8 (v % 256), BitVec.ofNat 8 (v / 256)] 0 = v := by
  rw [looseSample_eq]
  simp only [byteAt, List.getD_cons_zero, List.getD_cons_succ, Nat.mul_zero, Nat.zero_add, BitVec.toNat_ofNat]
  omega

/-- The five bytes of a compact group that holds the 40-bit number `n` (42_bitdepth.md R165). -/
def groupBytes (n : Nat) : List Byte := (List.range 5).map (fun j => BitVec.ofNat 8 (n / 256 ^ j))

theorem byteAt_groupBytes (n : Nat) {j : Nat} (hj : j < 5) : (byteAt (groupBytes n) j).toNat = n / 256 ^ j % 256 := by
  simp [byteAt, groupBytes, hj]

/-- Sample `k` of a group is its number's 10-bit digit `k` (42_bitdepth.md R165). -/
theorem unpack10_groupBytes (n : Nat) {k : Nat} (hk : k < 4) : unpack10 (groupBytes n) k = n / 2 ^ (10 * k) % 1024 := by
  rw [compactGroupIsLittleEndian (groupBytes n) k, Nat.div_eq_of_lt hk, Nat.mod_eq_of_lt hk]
  simp only [Nat.mul_zero, Nat.zero_add, byteAt_groupBytes n, Nat.reduceLT]
  interval_cases k <;> omega

/-- Settles O36: element `i` is `conv8` of sample `i`, and a pair or a group holds the samples it was made of. -/
theorem convertersReproduceEverySample : Obligations.ConvertersReproduceEverySample := by
  refine ⟨fun b n => ⟨loose_length b n, compact_length b n⟩, fun b n i hi => ?_, fun b n i hi => compact_getElem? b hi,
    fun n m _ => loose_replicate_zero m n, fun n m _ _ => compact_replicate_zero m n, fun v hv => ?_, ?_⟩
  · rw [loose_getElem? b hi, looseSample_eq]
  · exact congrArg (fun s => [BitVec.ofNat 8 (conv8 s)]) (looseSample_pair hv)
  · intro v0 v1 v2 v3 h0 h1 h2 h3 n
    have hsamples : (List.range 4).map (unpack10 (groupBytes n)) = [v0, v1, v2, v3] := by
      change [unpack10 (groupBytes n) 0, unpack10 (groupBytes n) 1, unpack10 (groupBytes n) 2,
        unpack10 (groupBytes n) 3] = _
      simp only [unpack10_groupBytes n, Nat.reduceLT, n, List.cons.injEq, and_true]
      refine ⟨?_, ?_, ?_, ?_⟩ <;> omega
    rw [← hsamples, List.map_map]
    rfl

end Sys2Proof.Machine
end

section
/-! The tile family (43_tile.md): the tile address as mixed-radix digits, the two deinterleaver directions, and the regions of
a tiled frame (44_decode.md R204). -/

namespace Sys2Proof.Machine

/-! ### Two digits in one number -/

theorem mul_add_div_of_lt {q b r : Nat} (h : r < b) : (q * b + r) / b = q := by
  rw [Nat.mul_comm, Nat.mul_add_div (Nat.zero_lt_of_lt h), Nat.div_eq_of_lt h, Nat.add_zero]

/-- Two digits with radices `b` (low) and `n` (high) are a number below `n * b`. -/
theorem mul_add_lt_mul {q n b r : Nat} (hq : q < n) (hr : r < b) : q * b + r < n * b := by
  rw [Nat.mul_comm q b]
  exact Nat.mul_add_lt_mul_of_lt_of_lt hq hr

/-- The raster index of (x, y) lies in the plane. -/
theorem raster_lt {W H x y : Nat} (hx : x < W) (hy : y < H) : y * W + x < W * H := by
  rw [Nat.mul_comm W H]
  exact mul_add_lt_mul hy hx

/-- Planes of one size with the same raster bytes are equal. -/
theorem plane_ext {W H : Nat} {p q : List Byte} (hp : p.length = W * H) (hq : q.length = W * H)
    (h : ∀ x y, x < W → y < H → p[y * W + x]? = q[y * W + x]?) : p = q := by
  refine List.ext_getElem? fun k => ?_
  rcases Nat.lt_or_ge k (W * H) with hk | hk
  · have hW : 0 < W := Nat.pos_of_mul_pos_right (Nat.zero_lt_of_lt hk)
    simpa only [Nat.div_add_mod'] using h (k % W) (k / W) (Nat.mod_lt k hW) (Nat.div_lt_of_lt_mul hk)
  · rw [List.getElem?_eq_none (hp.trans_le hk), List.getElem?_eq_none (hq.trans_le hk)]

/-! ### The digits of a tile address -/

/-- Tiles of `tw` by `th` bytes cover a region of `W` by `H` bytes (the conditions of 43_tile.md R181). -/
structure Tiles (W H tw th : Nat) : Prop where
  tw_pos : 1 ≤ tw
  th_pos : 1 ≤ th
  width : W % tw = 0
  height : H % th = 0

/-- The address of (x, y) counted from its tile (43_tile.md R180, the last two terms). -/
def inTile (x y tw th : Nat) : Nat := (y % th) * tw + x % tw

/-- The address of (x, y) counted from its row of tiles (43_tile.md R180, the last three terms). -/
def inTileRow (x y tw th : Nat) : Nat := (x / tw) * (tw * th) + inTile x y tw th

theorem taddr_eq_add_inTileRow (x y W tw th : Nat) :
    taddr x y W tw th = (y / th) * (th * W) + inTileRow x y tw th := by
  simp only [taddr, inTileRow, inTile, Nat.add_assoc]

/-- The column of the pixel at tile address `a` (the low part of `rasterOf`). -/
def columnOf (a W tw th : Nat) : Nat := a % (th * W) / (tw * th) * tw + a % (th * W) % (tw * th) % tw

/-- The row of the pixel at tile address `a` (the high part of `rasterOf`). -/
def rowOf (a W tw th : Nat) : Nat := a / (th * W) * th + a % (th * W) % (tw * th) / tw

theorem rasterOf_eq (a W tw th : Nat) : rasterOf a W tw th = rowOf a W tw th * W + columnOf a W tw th := rfl

namespace Tiles

variable {W H tw th : Nat} (ht : Tiles W H tw th)
include ht

theorem inTile_lt (x y : Nat) : inTile x y tw th < tw * th := by
  rw [Nat.mul_comm tw th]
  exact mul_add_lt_mul (Nat.mod_lt y ht.th_pos) (Nat.mod_lt x ht.tw_pos)

/-- A row of tiles is its tiles (43_tile.md R181: `W / tw` tiles of `tw * th` bytes). -/
theorem tileRow_size : W / tw * (tw * th) = th * W := by
  rw [← Nat.mul_assoc, Nat.div_mul_cancel (Nat.dvd_of_mod_eq_zero ht.width), Nat.mul_comm]

/-- The region is its rows of tiles (43_tile.md R181). -/
theorem region_size : H / th * (th * W) = W * H := by
  rw [← Nat.mul_assoc, Nat.div_mul_cancel (Nat.dvd_of_mod_eq_zero ht.height), Nat.mul_comm]

theorem inTileRow_lt {x : Nat} (hx : x < W) (y : Nat) : inTileRow x y tw th < th * W := by
  rw [← ht.tileRow_size]
  exact mul_add_lt_mul (Nat.div_lt_div_of_lt_of_dvd (Nat.dvd_of_mod_eq_zero ht.width) hx) (ht.inTile_lt x y)

theorem taddr_lt {x y : Nat} (hx : x < W) (hy : y < H) : taddr x y W tw th < W * H := by
  rw [taddr_eq_add_inTileRow, ← ht.region_size]
  exact mul_add_lt_mul (Nat.div_lt_div_of_lt_of_dvd (Nat.dvd_of_mod_eq_zero ht.height) hy) (ht.inTileRow_lt hx y)

/-! ### From a position to its address and back -/

/-- The address modulo a row of tiles. -/
theorem taddr_mod {x : Nat} (hx : x < W) (y : Nat) : taddr x y W tw th % (th * W) = inTileRow x y tw th := by
  rw [taddr_eq_add_inTileRow]
  exact Nat.mul_add_mod_of_lt (ht.inTileRow_lt hx y)

/-- The address modulo a tile. -/
theorem inTileRow_mod (x y : Nat) : inTileRow x y tw th % (tw * th) = inTile x y tw th :=
  Nat.mul_add_mod_of_lt (ht.inTile_lt x y)

theorem columnOf_taddr {x : Nat} (hx : x < W) (y : Nat) : columnOf (taddr x y W tw th) W tw th = x := by
  have hcol : inTileRow x y tw th / (tw * th) = x / tw := mul_add_div_of_lt (ht.inTile_lt x y)
  have hin : inTile x y tw th % tw = x % tw := Nat.mul_add_mod_of_lt (Nat.mod_lt x ht.tw_pos)
  rw [columnOf, ht.taddr_mod hx, ht.inTileRow_mod, hcol, hin, Nat.div_add_mod']

theorem rowOf_taddr {x : Nat} (hx : x < W) (y : Nat) : rowOf (taddr x y W tw th) W tw th = y := by
  have hrow : taddr x y W tw th / (th * W) = y / th := by
    rw [taddr_eq_add_inTileRow]
    exact mul_add_div_of_lt (ht.inTileRow_lt hx y)
  have hin : inTile x y tw th / tw = y % th := mul_add_div_of_lt (Nat.mod_lt x ht.tw_pos)
  rw [rowOf, ht.taddr_mod hx, ht.inTileRow_mod, hrow, hin, Nat.div_add_mod']

theorem rasterOf_taddr {x : Nat} (hx : x < W) (y : Nat) : rasterOf (taddr x y W tw th) W tw th = y * W + x := by
  rw [rasterOf_eq, ht.rowOf_taddr hx, ht.columnOf_taddr hx]

/-- A position is told by its address. -/
theorem taddr_inj {x y x' y' : Nat} (hx : x < W) (hx' : x' < W) (h : taddr x y W tw th = taddr x' y' W tw th) :
    x = x' ∧ y = y' := by
  constructor
  · rw [← ht.columnOf_taddr hx y, h, ht.columnOf_taddr hx' y']
  · rw [← ht.rowOf_taddr hx y, h, ht.rowOf_taddr hx' y']

/-! ### From an address to its position and back -/

/-- The row within its tile of an address is below the tile's height. -/
theorem inTile_row_lt (a : Nat) : a % (th * W) % (tw * th) / tw < th :=
  Nat.div_lt_of_lt_mul (Nat.mod_lt _ (Nat.mul_pos ht.tw_pos ht.th_pos))

theorem columnOf_lt {a : Nat} (ha : a < W * H) : columnOf a W tw th < W := by
  have hW : 0 < W := Nat.pos_of_mul_pos_right (Nat.zero_lt_of_lt ha)
  have hcol : a % (th * W) / (tw * th) < W / tw := by
    rw [Nat.div_lt_iff_lt_mul (Nat.mul_pos ht.tw_pos ht.th_pos), ht.tileRow_size]
    exact Nat.mod_lt a (Nat.mul_pos ht.th_pos hW)
  calc columnOf a W tw th < W / tw * tw := mul_add_lt_mul hcol (Nat.mod_lt _ ht.tw_pos)
    _ = W := Nat.div_mul_cancel (Nat.dvd_of_mod_eq_zero ht.width)

theorem rowOf_lt {a : Nat} (ha : a < W * H) : rowOf a W tw th < H := by
  have hW : 0 < W := Nat.pos_of_mul_pos_right (Nat.zero_lt_of_lt ha)
  have hrow : a / (th * W) < H / th := by
    rw [Nat.div_lt_iff_lt_mul (Nat.mul_pos ht.th_pos hW), ht.region_size]
    exact ha
  calc rowOf a W tw th < H / th * th := mul_add_lt_mul hrow (ht.inTile_row_lt a)
    _ = H := Nat.div_mul_cancel (Nat.dvd_of_mod_eq_zero ht.height)

/-- Every number is the address of its row and column: its digits, put together again. -/
theorem taddr_columnOf_rowOf (a : Nat) : taddr (columnOf a W tw th) (rowOf a W tw th) W tw th = a := by
  have hx := Nat.mod_lt (a % (th * W) % (tw * th)) ht.tw_pos
  have hy := ht.inTile_row_lt a
  have hin : inTile (columnOf a W tw th) (rowOf a W tw th) tw th = a % (th * W) % (tw * th) := by
    rw [inTile, columnOf, rowOf, Nat.mul_add_mod_of_lt hx, Nat.mul_add_mod_of_lt hy, Nat.div_add_mod']
  have hrow : rowOf a W tw th / th = a / (th * W) := mul_add_div_of_lt hy
  have hcol : columnOf a W tw th / tw = a % (th * W) / (tw * th) := mul_add_div_of_lt hx
  rw [taddr_eq_add_inTileRow, inTileRow, hin, hrow, hcol, Nat.div_add_mod', Nat.div_add_mod']

/-! ### The deinterleaver and the forward tiling -/

/-- detile reads each raster byte from its tile address (43_tile.md R181). -/
theorem detile_read {buf : List Byte} {base x y : Nat} (hb : base + W * H ≤ buf.length) (hx : x < W) (hy : y < H) :
    (detile buf base W H tw th)[y * W + x]? = buf[base + taddr x y W tw th]? := by
  rw [detile_getElem? buf base tw th hx hy]
  exact byteAt_of_lt ((Nat.add_lt_add_left (ht.taddr_lt hx hy) base).trans_le hb)

/-- tile puts each raster byte at its tile address (43_tile.md R182). -/
theorem tile_read {p : List Byte} (hp : p.length = W * H) {x y : Nat} (hx : x < W) (hy : y < H) :
    (tile p W H tw th)[taddr x y W tw th]? = p[y * W + x]? := by
  have hget : (tile p W H tw th)[taddr x y W tw th]? = some (byteAt p (rasterOf (taddr x y W tw th) W tw th)) := by
    simp [tile, ht.taddr_lt hx hy]
  rw [hget, ht.rasterOf_taddr hx]
  exact byteAt_of_lt (hp ▸ raster_lt hx hy)

end Tiles

@[simp] theorem tile_length (p : List Byte) (W H tw th : Nat) : (tile p W H tw th).length = W * H := by
  simp [tile]

/-- Settles O37: the address is bounded by its radices, and `columnOf` and `rowOf` invert it. -/
theorem tileAddressIsOneToOne : Obligations.TileAddressIsOneToOne := by
  refine ⟨fun x y W tw th => rfl, fun W H tw th htw hth hW hH => ?_⟩
  have ht : Tiles W H tw th := ⟨htw, hth, hW, hH⟩
  exact ⟨fun buf base x y hb hx hy => ht.detile_read hb hx hy, fun x y hx hy => ht.taddr_lt hx hy,
    fun x y x' y' hx _ hx' _ h => ht.taddr_inj hx hx' h,
    fun a ha => ⟨columnOf a W tw th, rowOf a W tw th, ht.columnOf_lt ha, ht.rowOf_lt ha, ht.taddr_columnOf_rowOf a⟩⟩

/-- Settles O38: detile reads a raster byte where tile put it. -/
theorem detileInvertsTile : Obligations.DetileInvertsTile := by
  intro W H tw th p htw hth hW hH hp
  have ht : Tiles W H tw th := ⟨htw, hth, hW, hH⟩
  refine ⟨fun x y hx hy => ht.tile_read hp hx hy, plane_ext (detile_length ..) hp fun x y hx hy => ?_⟩
  rw [ht.detile_read (by simp) hx hy, Nat.zero_add, ht.tile_read hp hx hy]

/-! ### Tiles as wide as the region -/

/-- There is one column of tiles, and a tile's rows are the region's (43_tile.md R186). -/
theorem taddr_full_width {x W : Nat} (hx : x < W) (y th : Nat) : taddr x y W W th = y * W + x := by
  calc taddr x y W W th = (y / th) * (th * W) + (y % th) * W + x := by
        simp only [taddr, Nat.div_eq_of_lt hx, Nat.mod_eq_of_lt hx, Nat.zero_mul, Nat.add_zero]
    _ = y * W + x := by rw [← Nat.mul_assoc, ← Nat.add_mul, Nat.div_add_mod']

/-- Settles O39: byte (x, y) comes from its own raster place. -/
theorem fullWidthTilesAreRaster : Obligations.FullWidthTilesAreRaster := by
  intro W H th base buf hW hth hH hb
  have ht : Tiles W H W th := ⟨hW, hth, Nat.mod_self W, hH⟩
  refine ⟨fun x y hx _ => taddr_full_width hx y th,
    plane_ext (detile_length ..) (by simp; omega) fun x y hx hy => ?_⟩
  rw [ht.detile_read hb hx hy, taddr_full_width hx, slice_getElem?]
  rw [Nat.add_sub_cancel_left]
  exact raster_lt hx hy

/-! ### Tiled frames -/

/-- Chroma pair `i` of an interleaved run, by the chroma order (44_decode.md R207). -/
theorem splitChroma_getElem? {ci : List Byte} {n i : Nat} (hn : 2 * n ≤ ci.length) (hi : i < n) (co : ChromaOrder)
    (y : List Byte) :
    (co = .cbFirst → (splitChroma co y ci n).cb[i]? = ci[2 * i]? ∧ (splitChroma co y ci n).cr[i]? = ci[2 * i + 1]?) ∧
    (co = .crFirst → (splitChroma co y ci n).cr[i]? = ci[2 * i]? ∧ (splitChroma co y ci n).cb[i]? = ci[2 * i + 1]?) := by
  have heven : (strided ci 0 2 n)[i]? = ci[2 * i]? := by
    rw [strided_getElem? ci hi, Nat.zero_add, byteAt_of_lt (by omega)]
  have hodd : (strided ci 1 2 n)[i]? = ci[2 * i + 1]? := by
    rw [strided_getElem? ci hi, Nat.add_comm, byteAt_of_lt (by omega)]
  constructor
  all_goals
    rintro rfl
    exact ⟨heven, hodd⟩

/-- What a geometry tells of a tiled frame: both regions are tiled, the width is even, and there are `(w / 2) * (h / 2)`
chroma pairs (43_tile.md R183 to R185). -/
theorem tiled_regions {cap w h : Nat} {d : Descriptor} {g : Geometry} (hd : d.wf = true) (hf : d.fam = .tiled)
    (hg : geom cap w h d = .ok g) :
    Tiles w h d.tw.toNat d.th.toNat ∧ Tiles w (h / 2) d.tw.toNat d.th.toNat ∧ w / 2 * 2 = w ∧
      g.csrc = (w / 2) * (h / 2) := by
  obtain ⟨-, -, hpar, htile, -⟩ := geom_ok hg
  obtain ⟨htw, hth, hw, hh, hh2⟩ := tile_conditions hf htile
  have hs : d.subs = .s420 := ((descriptor_wf_iff d).mp hd).tiled hf
  exact ⟨⟨htw, hth, hw, hh⟩, ⟨htw, hth, hw, hh2⟩,
    Nat.div_mul_cancel (Nat.dvd_of_mod_eq_zero (even_width (.inl hs) hpar)), csrc_s420 hg hs⟩

/-- Settles O43: each region is detiled, and pair `j` of a chroma row is its columns `2 j` and `2 j + 1`. -/
theorem tiledPixelsComeFromTheirTileAddress : Obligations.TiledPixelsComeFromTheirTileAddress := by
  intro cap w h d g r8 hd hf hg hr p addr
  obtain ⟨hluma, hchroma, heven, hcsrc⟩ := tiled_regions hd hf hg
  have hlen : r8.length = w * h + w * (h / 2) := hr.trans (r8_tiled hd hg hf)
  have hp : p = unpackTiled d w h g r8 := by simp only [p, unpack, hf]
  rw [hp]
  refine ⟨fun x y hx hy => ?_, fun j r hj hrow => ?_⟩
  · rw [unpackTiled, splitChroma, orderChroma_y, hluma.detile_read (by omega) hx hy, Nat.zero_add]
  · have hpairs : 2 * g.csrc = w * (h / 2) := by rw [hcsrc, ← Nat.mul_assoc, Nat.mul_comm 2, heven]
    have hpair : r * (w / 2) + j < g.csrc := hcsrc ▸ raster_lt hj hrow
    have hcolumn : 2 * (r * (w / 2) + j) = r * w + 2 * j := by
      rw [Nat.mul_add, Nat.mul_left_comm, Nat.mul_comm 2 (w / 2), heven]
    have hfirst := hchroma.detile_read hlen.ge (x := 2 * j) (by omega) hrow
    have hsecond := hchroma.detile_read hlen.ge (x := 2 * j + 1) (by omega) hrow
    have hsplit := splitChroma_getElem? (ci := detile r8 (w * h) w (h / 2) d.tw.toNat d.th.toNat)
      (by rw [detile_length, hpairs]) hpair d.co (detile r8 0 w h d.tw.toNat d.th.toNat)
    rwa [hcolumn, Nat.add_assoc, hfirst, hsecond] at hsplit

end Sys2Proof.Machine
end

section
/-! The decode family (44_decode.md): the R8 frame, the unpackers of planar, semi-planar, packed, mixed and mono frames, and
what a DECODE leaves in the frame buffer. -/

namespace Sys2Proof.Machine

/-! ### The R8 frame -/

/-- Without a packing the R8 frame is the source itself (44_decode.md R200). -/
theorem decodeFrame_unpacked {cap w h : Nat} {d : Descriptor} {g : Geometry} {src : List Byte}
    (hg : geom cap w h d = .ok g) (hs : src.length = g.raw) (hp : d.pack = .pnone) :
    (decodeFrame d w h g src).1 = src := by
  obtain ⟨hraw, -, -⟩ := rawBytes_eq_some (geom_isRecordOf hg).raw
  have hlen : src.length ≤ g.r8 := (hs.trans (hraw hp)).le
  simp only [decodeFrame, toR8, hp, List.take_of_length_le hlen]

/-- Settles O40: the converter by the packing, the sizes by the laws of the converter and of the unpackers. -/
theorem decodedPlanesHaveTheGeometrySizes : Obligations.DecodedPlanesHaveTheGeometrySizes := by
  intro cap w h d g src hd hg hs
  have hr8 : (decodeFrame d w h g src).1.length = g.r8 := toR8_length hg hs
  exact ⟨decodeFrame_unpacked hg hs, fun hp => by simp only [decodeFrame, toR8, hp],
    fun hp => by simp only [decodeFrame, toR8, hp], rfl, hr8, unpack_lengths hd hg hr8⟩

/-! ### Planar and semi-planar frames -/

/-- Byte `j` of the run of `n` bytes from `a`. -/
theorem slice_run_getElem? (s : List Byte) (a : Nat) {n j : Nat} (hj : j < n) : (slice s a (a + n))[j]? = s[a + j]? :=
  slice_getElem? s a (a + n) j (by rwa [Nat.add_sub_cancel_left])

/-- The first run of `n` bytes. -/
theorem slice_zero_getElem? (s : List Byte) {n i : Nat} (hi : i < n) : (slice s 0 n)[i]? = s[i]? := by
  rw [slice_getElem? s 0 n i hi, Nat.zero_add]

/-- The chroma planes of a planar frame are its second and third run, by the chroma order (44_decode.md R201). -/
theorem unpackPlanar_chroma (d : Descriptor) (w h : Nat) {g : Geometry} (r8 : List Byte) {j : Nat} (hj : j < g.csrc) :
    (d.co = .cbFirst → (unpackPlanar d w h g r8).cb[j]? = r8[w * h + j]? ∧
      (unpackPlanar d w h g r8).cr[j]? = r8[w * h + g.csrc + j]?) ∧
    (d.co = .crFirst → (unpackPlanar d w h g r8).cr[j]? = r8[w * h + j]? ∧
      (unpackPlanar d w h g r8).cb[j]? = r8[w * h + g.csrc + j]?) := by
  have hfirst := slice_run_getElem? r8 (w * h) hj
  have hsecond := slice_run_getElem? r8 (w * h + g.csrc) hj
  rw [Nat.add_assoc (w * h) g.csrc g.csrc, ← Nat.two_mul] at hsecond
  constructor
  all_goals
    intro hco
    rw [unpackPlanar, hco]
    exact ⟨hfirst, hsecond⟩

/-- The planes of a semi-planar frame. -/
theorem unpackSemi_lengths (d : Descriptor) (w h : Nat) (g : Geometry) {r8 : List Byte}
    (hr : r8.length = w * h + 2 * g.csrc) :
    (unpackSemi d w h g r8).y.length = w * h ∧ (unpackSemi d w h g r8).cb.length = g.csrc ∧
      (unpackSemi d w h g r8).cr.length = g.csrc := by
  refine ⟨?_, orderChroma_lengths _ _ _ _ (strided_length ..) (strided_length ..)⟩
  rw [unpackSemi, splitChroma, orderChroma_y, slice_length]
  omega

/-- The chroma planes of a semi-planar frame are the even and the odd bytes of its second run, by the chroma order
(44_decode.md R202, R207). -/
theorem unpackSemi_chroma (d : Descriptor) {w h : Nat} {g : Geometry} {r8 : List Byte}
    (hr : r8.length = w * h + 2 * g.csrc) {j : Nat} (hj : j < g.csrc) :
    (d.co = .cbFirst → (unpackSemi d w h g r8).cb[j]? = r8[w * h + 2 * j]? ∧
      (unpackSemi d w h g r8).cr[j]? = r8[w * h + 2 * j + 1]?) ∧
    (d.co = .crFirst → (unpackSemi d w h g r8).cr[j]? = r8[w * h + 2 * j]? ∧
      (unpackSemi d w h g r8).cb[j]? = r8[w * h + 2 * j + 1]?) := by
  have hsplit := splitChroma_getElem? (ci := slice r8 (w * h) (w * h + 2 * g.csrc)) (by rw [slice_length]; omega) hj
    d.co (slice r8 0 (w * h))
  rwa [slice_run_getElem? r8 (w * h) (by omega : 2 * j < 2 * g.csrc),
    slice_run_getElem? r8 (w * h) (by omega : 2 * j + 1 < 2 * g.csrc), ← Nat.add_assoc] at hsplit

/-- Settles O41: luma is the first run, the chroma runs are those of `unpackPlanar_chroma` and `unpackSemi_chroma`. -/
theorem planarAndSemiPlanarRuns : Obligations.PlanarAndSemiPlanarRuns := by
  intro d w h g r8 hr pl se
  refine ⟨fun hf => by simp only [pl, unpack, hf], fun hf => by simp only [se, unpack, hf],
    unpackPlanar_lengths d w h g hr, unpackSemi_lengths d w h g hr, fun i hi => ?_, fun j hj => ?_⟩
  · simp only [pl, se, unpackPlanar, unpackSemi, splitChroma, orderChroma_y]
    exact ⟨slice_zero_getElem? r8 hi, slice_zero_getElem? r8 hi⟩
  · obtain ⟨hplCb, hplCr⟩ := unpackPlanar_chroma d w h r8 hj
    obtain ⟨hseCb, hseCr⟩ := unpackSemi_chroma d hr hj
    exact ⟨fun hco => and_assoc.mp ⟨hplCb hco, hseCb hco⟩, fun hco => and_assoc.mp ⟨hplCr hco, hseCr hco⟩⟩

/-! ### Packed frames -/

/-- Byte `i` of every `stride`-th byte from `start`, where the sequence has it. -/
theorem strided_read {s : List Byte} {start stride n i : Nat} (hi : i < n) (hs : start + stride * i < s.length) :
    (strided s start stride n)[i]? = s[start + stride * i]? := by
  rw [strided_getElem? s hi, byteAt_of_lt hs]

/-- The places read at an offset below the stride are those with that remainder. -/
theorem exists_stride_iff {off stride n k : Nat} (ho : off < stride) (hk : k < stride * n) :
    (∃ i, i < n ∧ k = off + stride * i) ↔ k % stride = off := by
  constructor
  · rintro ⟨i, -, rfl⟩
    rw [Nat.add_mul_mod_self_left, Nat.mod_eq_of_lt ho]
  · intro hmod
    exact ⟨k / stride, Nat.div_lt_of_lt_mul hk, by rw [← hmod, Nat.mod_add_div]⟩

/-- A packed frame has two luma bytes and one byte of each chroma component in every four (44_decode.md R203). -/
theorem packed_sizes {cap w h : Nat} {d : Descriptor} {g : Geometry} (hd : d.wf = true) (hf : d.fam = .packed422)
    (hg : geom cap w h d = .ok g) : w * h = 2 * g.csrc ∧ g.r8 = 4 * g.csrc := by
  have hrec := geom_isRecordOf hg
  have hs : d.subs = .s422 := (((descriptor_wf_iff d).mp hd).packed hf).1
  have hpairs := two_mul_csrc_s422 hg hs
  exact ⟨hpairs.symm, by rw [hrec.r8, hrec.y]; omega⟩

/-- Settles O42: each component reads the places of its remainders, and the well-formed offsets split the remainders. -/
theorem packedSamplesCoverTheFrame : Obligations.PackedSamplesCoverTheFrame := by
  intro cap w h d g r8 hd hf hg hr p
  obtain ⟨hpix, hr8⟩ := packed_sizes hd hf hg
  obtain ⟨-, hyoff, hoffsets⟩ := ((descriptor_wf_iff d).mp hd).packed hf
  have hcb : d.cboff.toNat < 4 := d.cboff.isLt
  have hcr : d.croff.toNat < 4 := d.croff.isLt
  have hp : p = unpackPacked d w h g r8 := by simp only [p, unpack, hf]
  rw [hp, hpix]
  refine ⟨fun i hi => ?_, fun j hj => ?_, fun k hk => ?_⟩
  · have hin : d.yoff.toNat + 2 * i < r8.length := by omega
    exact ⟨hin, strided_read (hpix ▸ hi) hin⟩
  · have hcbIn : d.cboff.toNat + 4 * j < r8.length := by omega
    have hcrIn : d.croff.toNat + 4 * j < r8.length := by omega
    exact ⟨hcbIn, strided_read hj hcbIn, hcrIn, strided_read hj hcrIn⟩
  · have hk : k < 4 * g.csrc := by omega
    dsimp only
    rw [exists_stride_iff (by omega) (by omega), exists_stride_iff hcb hk, exists_stride_iff hcr hk]
    have h0 := hoffsets 0
    have h1 := hoffsets 1
    have h2 := hoffsets 2
    have h3 := hoffsets 3
    omega

/-! ### Mixed and mono frames -/

/-- The chroma components of a mixed frame, in their storage order, are the downsampled second and third run
(44_decode.md R205). -/
theorem unpackMixed_runs (d : Descriptor) (w h : Nat) (g : Geometry) (r8 : List Byte) :
    (if d.co = .cbFirst then (unpackMixed d w h g r8).cb else (unpackMixed d w h g r8).cr) =
      downsample d.subs w h (slice r8 (w * h) (w * h + g.csrc)) ∧
    (if d.co = .cbFirst then (unpackMixed d w h g r8).cr else (unpackMixed d w h g r8).cb) =
      downsample d.subs w h (slice r8 (w * h + g.csrc) (w * h + g.csrc + g.csrc)) := by
  rw [Nat.add_assoc (w * h) g.csrc g.csrc, ← Nat.two_mul, unpackMixed, unpackPlanar]
  cases d.co <;> exact ⟨rfl, rfl⟩

/-- Byte (x, y) of a plane made in raster order. -/
theorem raster_map_getElem? (f : Nat → Nat → Byte) {W H x y : Nat} (hx : x < W) (hy : y < H) :
    ((List.range (W * H)).map fun k => f (k % W) (k / W))[y * W + x]? = some (f x y) := by
  have hmod : (y * W + x) % W = x := by rw [Nat.mul_add_mod', Nat.mod_eq_of_lt hx]
  rw [List.getElem?_map, List.getElem?_range (raster_lt hx hy), Option.map_some, mul_add_div_of_lt hx, hmod]

/-- Byte `j` of the run of `n` bytes from `a`, where the sequence has the run. -/
theorem byteAt_slice_run {s : List Byte} {a n j : Nat} (hs : a + n ≤ s.length) (hj : j < n) :
    some (byteAt (slice s a (a + n)) j) = s[a + j]? := by
  rw [byteAt_of_lt (by rw [slice_length]; omega), slice_run_getElem? s a hj]

/-- The even rows of a 4:2:2 chroma run are kept (44_decode.md R205). -/
theorem downsample_s422_run {s : List Byte} {a w h n x r : Nat} (hs : a + n ≤ s.length) (hn : n = (w / 2) * h)
    (hx : x < w / 2) (hr : r < h / 2) :
    (downsample .s422 w h (slice s a (a + n)))[r * (w / 2) + x]? = s[a + (2 * r) * (w / 2) + x]? := by
  have hin : (2 * r) * (w / 2) + x < n := hn ▸ raster_lt hx (by omega)
  rw [Nat.add_assoc, ← byteAt_slice_run hs hin]
  exact raster_map_getElem? (fun x y => byteAt (slice s a (a + n)) (2 * y * (w / 2) + x)) hx hr

/-- The even rows and the even columns of a 4:4:4 chroma run are kept (44_decode.md R205). -/
theorem downsample_s444_run {s : List Byte} {a w h n x r : Nat} (hs : a + n ≤ s.length) (hn : n = w * h)
    (hx : x < w / 2) (hr : r < h / 2) :
    (downsample .s444 w h (slice s a (a + n)))[r * (w / 2) + x]? = s[a + (2 * r) * w + 2 * x]? := by
  have hin : (2 * r) * w + 2 * x < n := hn ▸ raster_lt (by omega) (by omega)
  rw [Nat.add_assoc, ← byteAt_slice_run hs hin]
  exact raster_map_getElem? (fun x y => byteAt (slice s a (a + n)) (2 * y * w + 2 * x)) hx hr

/-- Settles O44: the chroma runs of a mixed frame are downsampled in place; those of a mono frame are constant. -/
theorem mixedAndMonoChroma : Obligations.MixedAndMonoChroma := by
  intro cap w h d g r8 hd hg hr p
  have hrec := geom_isRecordOf hg
  have hlen : w * h + g.csrc + g.csrc ≤ r8.length := by rw [hr, hrec.r8, hrec.y]; omega
  have hlen' : w * h + g.csrc ≤ r8.length := Nat.le_of_add_right_le hlen
  have hmixed (hf : d.fam = .mixed) : p = unpackMixed d w h g r8 := by simp only [p, unpack, hf]
  have hmono (hf : d.fam = .mono) : p = unpackMono w h g r8 := by simp only [p, unpack, hf]
  obtain ⟨hfirst, hsecond⟩ := unpackMixed_runs d w h g r8
  refine ⟨hrec.y ▸ unpack_lengths hd hg hr, ?_⟩
  intro first second
  refine ⟨?_, fun hf hs x r hx hrow => ?_, fun hf hs x r hx hrow => ?_, fun hf => ?_⟩
  · rintro (hf | hf) i hi
    · rw [hmixed hf, unpackMixed, unpackPlanar, orderChroma_y, slice_zero_getElem? r8 hi]
    · rw [hmono hf, unpackMono, slice_zero_getElem? r8 hi]
  · have hcsrc := csrc_s422 hg hs
    simp only [first, second, hmixed hf, hfirst, hsecond, hs]
    exact ⟨downsample_s422_run hlen' hcsrc hx hrow, downsample_s422_run hlen hcsrc hx hrow⟩
  · have hcsrc : g.csrc = w * h := by rw [hrec.csrc, hs, chromaSrc]
    simp only [first, second, hmixed hf, hfirst, hsecond, hs]
    exact ⟨downsample_s444_run hlen' hcsrc hx hrow, downsample_s444_run hlen hcsrc hx hrow⟩
  · rw [hmono hf]
    exact ⟨rfl, rfl⟩

/-! ### DECODE -/

/-- The bytes a DECODE of `src` writes to a plane from index 0 (44_decode.md R215). -/
def decodedRun (d : Descriptor) (c : Context) (g : Geometry) (src : List Byte) : Plane → List Byte :=
  frameRun (decodeFrame d c.w.toNat c.h.toNat g src).1 (decodeFrame d c.w.toNat c.h.toNat g src).2

/-- The frame buffer after a DECODE of `src` (44_decode.md R215). -/
def FrameBuffer.decoded (fb : FrameBuffer) (d : Descriptor) (c : Context) (g : Geometry) (src : List Byte) :
    FrameBuffer :=
  fb.filled (decodeFrame d c.w.toNat c.h.toNat g src).1 (decodeFrame d c.w.toNat c.h.toNat g src).2

/-- The views hold the decoded frame, and every byte beyond them is what it was (44_decode.md R215). -/
theorem FrameBuffer.read_decoded (fb : FrameBuffer) {cfg : Config} {c : Context} {d : Descriptor} {g : Geometry}
    (hcfg : cfg.wf = true) (hg : contextGeometry cfg c = .ok (d, g)) {src : List Byte} (hs : src.length = g.raw)
    (p : Plane) (i : Nat) :
    (fb.decoded d c g src).read p i = if i < g.viewSize p then (decodedRun d c g src p)[i]? else fb.read p i := by
  rw [FrameBuffer.decoded, FrameBuffer.read_filled, frameRun_length hcfg hg hs p]
  rfl

/-- What a DECODE in flight on a context says of the frame buffer: no byte has a value (44_decode.md R216). -/
theorem Inv.read_of_decode_in_flight {s : State} (h : Inv s) {c : Context} (hc : (s.operandsFor .decode).ctx = some c)
    {l : Latch} (hl : s.latch = some l) (hd : decode l.op = .ok .decode) (p : Plane) (i : Nat) :
    s.fb.read p i = none := by
  obtain ⟨-, -, -, -, hlatch⟩ := h.latchOk l hl
  obtain ⟨hctx, hpoisoned⟩ := hlatch hd
  have hsome : s.ctx = some c := by rw [← hctx, ← hc, State.operandsFor, hl]
  obtain ⟨-, hcells⟩ := hpoisoned (by simp [hsome])
  rw [FrameBuffer.read, hcells p, Memory.read_nil]

/-- Settles O45: the step is `execDecode_frame`, and its writes read back by `read_decoded`. -/
theorem decodeWritesTheFrame : Obligations.DecodeWritesTheFrame := by
  intro s c d g hcfg hctx hg hraw frame
  have hread := s.fb.read_decoded hcfg hg (List.length_take_of_le hraw)
  have hview {p : Plane} {i : Nat} (hi : i < g.viewSize p) := (hread p i).trans (if_pos hi)
  have hbeyond {p : Plane} {i : Nat} (hi : g.viewSize p ≤ i) := (hread p i).trans (if_neg hi.not_gt)
  refine ⟨_, execDecode_frame hctx hg hraw, fun i hi => hview (p := .raw) hi, fun i hi => hview (p := .y) hi,
    fun i hi => ⟨hview (p := .cb) hi, hview (p := .cr) hi⟩, fun p => ⟨by simp, fun i hi => hbeyond hi⟩,
    fun l hinv hl hd p i hi => ?_⟩
  exact (hbeyond hi).trans (hinv.read_of_decode_in_flight hctx hl hd p i)

/-! ### DECODE from its accept -/

@[simp] theorem accept_busy (v : Word) (s : State) : (s.accept v).status.busy = true := by
  unfold State.accept
  split <;> rfl

/-- The engine step after the accept of a command's word runs that command (45_control.md R239). -/
theorem engineStep_accept {i : Instr} (hi : i ≠ .sreset) (s : State) :
    (s.accept (encode i)).engineStep = exec i (s.accept (encode i)) := by
  simp [State.engineStep, State.accept_fields, hi]

/-- DECODE of a source that has ended too early (44_decode.md R214). -/
theorem execDecode_shortRead {s : State} {c : Context} {d : Descriptor} {g : Geometry}
    (hctx : (s.operandsFor .decode).ctx = some c) (hg : contextGeometry s.cfg c = .ok (d, g))
    (hl : s.fifo.length < g.raw) (he : s.eof = true) :
    exec .decode s = .next ((s.srcTake s.fifo.length).2.completeError .shortRead) := by
  simp only [exec, execDecode, hctx, decodeAction_of hg, if_neg hl.not_ge, he, if_true]

/-- The state once a DECODE in flight in `s` has taken its frame (44_decode.md R213, R215). -/
def State.afterDecode (s : State) (d : Descriptor) (c : Context) (g : Geometry) : State :=
  { s with
    fb := s.fb.decoded d c g (s.fifo.take g.raw), fifo := s.fifo.drop g.raw,
    srcPos := s.srcPos + BitVec.ofNat 64 g.raw, latch := none, status := s.status.validated.succeeded }

section
variable {s : State} {c : Context} {d : Descriptor} {g : Geometry} (hc : s.ctx = some c)
  (hg : contextGeometry s.cfg c = .ok (d, g))
include hc hg

/-- A DECODE accepted with a context and its frame in the FIFO completes with that frame. -/
theorem engineStep_accept_decode (hraw : g.raw ≤ s.fifo.length) :
    (s.accept (encode .decode)).engineStep = .next ((s.accept (encode .decode)).afterDecode d c g) := by
  rw [engineStep_accept (by decide)]
  exact execDecode_frame (by rw [operandsFor_accept]; exact hc) (by simpa using hg) (by simpa using hraw)

/-- A DECODE accepted with a context and an ended source of fewer bytes completes with ShortRead. -/
theorem engineStep_accept_decode_shortRead (hl : s.fifo.length < g.raw) (he : s.eof = true) :
    (s.accept (encode .decode)).engineStep =
      .next (((s.accept (encode .decode)).srcTake s.fifo.length).2.completeError .shortRead) := by
  have hfifo : (s.accept (encode .decode)).fifo = s.fifo := by simp
  rw [engineStep_accept (by decide), ← hfifo]
  exact execDecode_shortRead (by rw [operandsFor_accept]; exact hc) (by simpa using hg) (by simpa using hl)
    (by simpa using he)

/-- The views after a DECODE, byte by byte: they depend on the context and on the bytes taken, and on nothing else. -/
theorem viewByte_afterDecode (hcfg : s.cfg.wf = true) (hraw : g.raw ≤ s.fifo.length) (p : Plane) (i : Nat) :
    (s.afterDecode d c g).viewByte p i =
      if i < g.viewSize p then (decodedRun d c g (s.fifo.take g.raw) p)[i]? else none := by
  have hsize : (s.afterDecode d c g).viewSize p = g.viewSize p := viewSize_of_geometry hc hg p
  have hread := s.fb.read_decoded hcfg hg (List.length_take_of_le hraw) p i
  rw [State.viewByte, hsize]
  exact ite_congr rfl (fun hi => hread.trans (if_pos hi)) fun _ => rfl

/-- The same for a DECODE from its accept, which keeps the parameters, the context and the source. -/
theorem viewByte_accept_afterDecode (hcfg : s.cfg.wf = true) (hraw : g.raw ≤ s.fifo.length) (p : Plane) (i : Nat) :
    ((s.accept (encode .decode)).afterDecode d c g).viewByte p i =
      if i < g.viewSize p then (decodedRun d c g (s.fifo.take g.raw) p)[i]? else none := by
  simpa using viewByte_afterDecode (s := s.accept (encode .decode)) (by simpa using hc) (by simpa using hg)
    (by simpa using hcfg) (by simpa using hraw) p i

end

/-- Settles O49: success and its views by `engineStep_accept_decode` and `viewByte_accept_afterDecode`, (b) by the short
read. -/
theorem everyGeometryDecodes : Obligations.EveryGeometryDecodes := by
  intro s c d g hcfg hc hg
  refine ⟨fun hlen => ?_, fun hl he => ?_, fun s' t t' hcfg' hc' hraw hraw' hsame ht ht' p i => ?_⟩
  · have hsize : ∀ p, ((s.accept (encode .decode)).afterDecode d c g).viewSize p = g.viewSize p :=
      viewSize_of_geometry (by simpa [State.afterDecode] using hc) (by simpa [State.afterDecode] using hg)
    have hempty : ((s.accept (encode .decode)).afterDecode d c g).fifo = [] := by simp [State.afterDecode, hlen]
    refine ⟨_, engineStep_accept_decode hc hg hlen.ge, rfl, rfl, rfl, hempty, hsize .raw, hsize .y, hsize .cb,
      hsize .cr, fun p => ⟨hsize p, fun i hi => ?_⟩⟩
    have hrun : (decodedRun d c g (s.fifo.take g.raw) p).length = g.viewSize p :=
      frameRun_length hcfg hg (List.length_take_of_le hlen.ge) p
    rw [viewByte_accept_afterDecode hc hg hcfg hlen.ge, if_pos hi, List.getElem?_eq_getElem (hrun ▸ hi)]
    exact Option.some_ne_none _
  · refine ⟨_, engineStep_accept_decode_shortRead hc hg hl he, rfl, rfl, ?_⟩
    rw [State.accept_poisons (decode_encode _) hc]
    rfl
  · have hwf' : s'.cfg.wf = true := by rw [hcfg', hcfg]
    have hg' : contextGeometry s'.cfg c = .ok (d, g) := by rw [hcfg', hg]
    cases (engineStep_accept_decode hc hg hraw).symm.trans ht
    cases (engineStep_accept_decode hc' hg' hraw').symm.trans ht'
    rw [viewByte_accept_afterDecode hc hg hcfg hraw, viewByte_accept_afterDecode hc' hg' hwf' hraw', hsame]

end Sys2Proof.Machine
end

section
/-! The control family (45_control.md): whose turn a step is, the CMD write, the registers, the NAME buffer, the reads of
the frame buffer with the fault mark they leave, and the source. -/

namespace Sys2Proof.Machine

/-! ### Whose turn a step is -/

/-- On the engine's turn a step is the engine step (45_control.md R239). -/
theorem step_engine {s : State} (hw : s.cfg.wf = true) (ha : s.nextAgent = .engine) :
    step s = s.turnTaken.engineStep := by
  simp [step, State.agentStep, hw, ha]

/-- On the host's turn a step is the host's next transaction (45_control.md R235). -/
theorem step_transaction {s : State} {op : Transaction} {rest : List HostOp} (hw : s.cfg.wf = true)
    (ha : s.nextAgent = .host) (hh : s.host = .tx op :: rest) :
    step s = State.transact op { s.turnTaken with host := rest } := by
  simp [step, State.agentStep, State.hostStep, hw, ha, hh]

/-- The engine step of a latched command is that command (45_control.md R239). -/
theorem engineStep_command {s : State} {l : Latch} {i : Instr} (hb : s.status.busy = true) (hl : s.latch = some l)
    (hd : decode l.op = .ok i) (hi : i ≠ .sreset) : s.engineStep = exec i s := by
  simp [State.engineStep, hb, hl, hd, hi]

/-- SRESET runs within its CMD write, BUSY or not (45_control.md R231, R238). -/
theorem cmdWrite_sreset (s : State) :
    State.transact (.csrWr cmdIndex (encode .sreset)) s = exec .sreset { s with ret := .none } := rfl

/-- While BUSY = 1 the write of any other word sets OVR only (45_control.md R238). -/
theorem cmdWrite_dropped {s : State} {v : Word} (hb : s.status.busy = true) (hv : v ≠ encode .sreset) :
    State.transact (.csrWr cmdIndex v) s = .next { s with ret := .none, status := s.status.dropped } := by
  simp [State.transact, State.cmdRequest, hv, hb]

/-- Settles O6: the host's turn, spelled out. -/
theorem hostTurnTakesTheNextTransaction : Obligations.HostTurnTakesTheNextTransaction :=
  fun _ _ _ hw ha hh => step_transaction hw ha hh

/-- Settles O4: the engine's turn runs the latched command, the host's turn an SRESET write. -/
theorem stepRunsTheDecodedCommand : Obligations.StepRunsTheDecodedCommand := by
  refine ⟨fun s l i hw ha hb hl hd hi => ?_, fun s rest hw ha hh => ?_⟩
  · rw [step_engine hw ha]
    exact engineStep_command (s := s.turnTaken) hb hl hd hi
  · rw [step_transaction hw ha hh]
    exact cmdWrite_sreset _

/-! ### A placed word -/

theorem ofNat_toNat_mod (v : Word) : BitVec.ofNat 64 (v.toNat % 2 ^ 64) = v := by
  rw [Nat.mod_eq_of_lt v.isLt, BitVec.ofNat_toNat, BitVec.setWidth_eq]

theorem decodeTableWord_word (v : Word) : decodeTableWord 64 v.toNat = (decode v).toOption := by
  rw [decodeTableWord, if_pos ⟨Nat.le_refl _, v.isLt⟩, ofNat_toNat_mod]

/-- A placed word other than SRESET is accepted, and the next turn is the engine's (log entry 13). -/
theorem withFetchWord_accepts {v : Word} (hv : v ≠ encode .sreset) (s : State) :
    s.withFetchWord 64 v.toNat = { s.accept v with turns := .engine :: s.turns } := by
  simp only [State.withFetchWord, ofNat_toNat_mod, if_neg hv]

/-- A placed SRESET is the host's next transaction (log entry 13). -/
theorem withFetchWord_sreset (s : State) : s.withFetchWord 64 (encode .sreset).toNat =
    { s with host := .tx (.csrWr cmdIndex (encode .sreset)) :: s.host, turns := .host :: s.turns } := by
  simp only [State.withFetchWord, ofNat_toNat_mod, if_true]

/-- Taking the turn that placing a word listed gives back the accepted state. -/
theorem turnTaken_accept (v : Word) (s : State) (a : Agent) :
    ({ s.accept v with turns := a :: s.turns } : State).turnTaken = s.accept v := by
  rw [State.accept_form]
  rfl

/-- Settles O5: the placed word is in the latch on the engine's turn, or an SRESET write on the host's. -/
theorem placedWordIsTheNextCommand : Obligations.PlacedWordIsTheNextCommand := by
  refine fun s v => ⟨decodeTableWord_word v, fun i hd hw => ?_⟩
  obtain rfl := eq_encode_of_decode hd
  refine ⟨fun hi => ?_, ?_⟩
  · rw [withFetchWord_accepts (encode_injective.ne hi), step_engine (by simpa using hw) rfl, turnTaken_accept,
      engineStep_accept hi]
  · rintro rfl
    rw [withFetchWord_sreset, step_transaction (by exact hw) rfl (by rfl)]
    exact cmdWrite_sreset _

/-! ### Completion -/

/-- The command that waits is a DECODE whose latched context decides so (70_reset_and_hazards.md R303). -/
theorem waiting_iff {s : State} {l : Latch} (hl : s.latch = some l) :
    s.waiting = true ↔ decode l.op = .ok .decode ∧ s.decodeAction l.operands.ctx = .wait := by
  unfold State.waiting
  rw [hl]
  dsimp only
  split
  · next hd => simp [hd]
  · next hd => simp [show decode l.op ≠ .ok .decode from hd]

/-- A command is done (60_exceptions.md R265, R266): BUSY = 0, DONE = 1, and the latch is empty. -/
def State.Completed (t : State) : Prop := t.status.busy = false ∧ t.status.done = true ∧ t.latch = none

theorem completed_completeSuccess (s : State) : s.completeSuccess.Completed := ⟨rfl, rfl, rfl⟩

theorem completed_completeError (e : ErrKind) (s : State) : (s.completeError e).Completed := ⟨rfl, rfl, rfl⟩

/-- A DECODE step that waits changes nothing (70_reset_and_hazards.md R303). -/
theorem execDecode_wait {s : State} (h : s.decodeAction (s.operandsFor .decode).ctx = .wait) :
    exec .decode s = .next s := by
  simp only [exec, execDecode, h]

/-- Every command but SRESET and a DECODE that waits completes (45_control.md R239). -/
theorem exec_completes {i : Instr} {s t : State} (hi : i ≠ .sreset)
    (hwait : i = .decode → s.decodeAction (s.operandsFor .decode).ctx ≠ .wait) (h : exec i s = .next t) :
    t.Completed := by
  by_cases hd : i = .decode
  · subst hd
    rcases execDecode_cases h with ⟨e, -, rfl⟩ | ⟨c, d, g, -, -, -, rfl⟩ | ⟨-, rfl⟩ | ⟨hw, -⟩
    · exact completed_completeError _ _
    · exact completed_completeSuccess _
    · exact completed_completeError _ _
    · exact absurd hw (hwait rfl)
  · rcases exec_forms hi h with ⟨e, rfl⟩ | ⟨-, rfl⟩ | ⟨-, d, rfl⟩ | ⟨-, fid, rfl⟩ | ⟨-, c, g, n, rfl⟩ | ⟨hdec, -⟩
    · exact completed_completeError _ _
    · exact completed_completeSuccess _
    · exact completed_completeSuccess _
    · exact completed_completeSuccess _
    · exact completed_completeSuccess _
    · exact absurd hdec hd

/-- A latched SRESET word, which no accept latches, completes as an illegal one (log entry 16). -/
theorem engineStep_latched_sreset {s : State} {l : Latch} (hb : s.status.busy = true) (hl : s.latch = some l)
    (hd : decode l.op = .ok .sreset) : s.engineStep = .next (s.completeError .illegalCommand) := by
  simp [State.engineStep, execIllegal, hb, hl, hd]

/-- The engine step of a command in flight that does not wait completes it (45_control.md R239). -/
theorem engineStep_completes {s : State} {l : Latch} (hb : s.status.busy = true) (hl : s.latch = some l)
    (hw : s.waiting ≠ true) : ∃ t, s.engineStep = .next t ∧ t.Completed := by
  cases hd : decode l.op with
  | error e => exact ⟨_, engineStep_illegal hb hl hd, completed_completeError _ _⟩
  | ok i =>
    by_cases hi : i = .sreset
    · exact ⟨_, engineStep_latched_sreset hb hl (hi ▸ hd), completed_completeError _ _⟩
    · obtain ⟨t, ht⟩ := exec_total i s
      refine ⟨t, (engineStep_command hb hl hd hi).trans ht, exec_completes hi ?_ ht⟩
      rintro rfl hwait
      rw [State.operandsFor, hl] at hwait
      exact hw ((waiting_iff hl).mpr ⟨hd, hwait⟩)

/-- The engine step of a waiting DECODE changes nothing (45_control.md R239). -/
theorem engineStep_waits {s : State} {l : Latch} (hb : s.status.busy = true) (hl : s.latch = some l)
    (hw : s.waiting = true) : s.engineStep = .next s := by
  obtain ⟨hd, hwait⟩ := (waiting_iff hl).mp hw
  rw [engineStep_command hb hl hd (by decide)]
  exact execDecode_wait (by rw [State.operandsFor, hl]; exact hwait)

/-- Settles O8: the command in flight is a waiting DECODE, or it completes. -/
theorem engineStepCompletesOrWaits : Obligations.EngineStepCompletesOrWaits := by
  refine ⟨fun s hb => by simp [State.engineStep, hb], fun s l hb hl => ?_⟩
  by_cases hw : s.waiting = true
  · exact .inl ⟨((waiting_iff hl).mp hw).1, hw, engineStep_waits hb hl hw⟩
  · exact .inr ⟨by simpa using hw, engineStep_completes hb hl hw⟩

/-! ### The CMD write -/

/-- STATUS at the accept of a word (45_control.md R238, 44_decode.md R216). -/
theorem accept_status (v : Word) (s : State) : (s.accept v).status = { s.status with
    busy := true, done := false, err := false, errcode := 0#4, ovr := false, lastop := opcodeField v,
    valid := s.status.valid && !(decide (v = encode .decode) && decide (s.ctx ≠ none)) } := by
  by_cases h : decode v = .ok .decode ∧ s.ctx ≠ none
  · obtain ⟨hd, hc⟩ := h
    obtain ⟨c, hctx⟩ := Option.ne_none_iff_exists'.mp hc
    rw [State.accept_poisons hd hctx]
    simp [Status.invalidated, Status.accepted, eq_encode_of_decode hd, hctx]
  · rw [State.accept_keeps h]
    rw [decode_eq_ok_iff] at h
    rw [← Bool.decide_and, decide_eq_false h, Bool.not_false, Bool.and_true, Status.accepted]

/-- The accept of a DECODE with a context leaves no byte with a value (44_decode.md R216). -/
theorem accept_decode_fb {s : State} (hc : s.ctx ≠ none) : (s.accept (encode .decode)).fb = s.fb.poisoned := by
  obtain ⟨c, hctx⟩ := Option.ne_none_iff_exists'.mp hc
  rw [State.accept_poisons (decode_encode _) hctx]

/-- Any other accept keeps the frame buffer (45_control.md R238). -/
theorem accept_fb_of_not {s : State} {v : Word} (h : ¬ (v = encode .decode ∧ s.ctx ≠ none)) :
    (s.accept v).fb = s.fb := by
  rw [State.accept_keeps (by rwa [decode_eq_ok_iff])]

/-- The accept of a command's word latches the operands of that command (10_state.md R48). -/
theorem capture_encode (i : Instr) (s : State) : s.capture (encode i) = s.operandsOf i := by
  simp [State.capture]

/-- An accept does not read what the host holds (log entry 3). -/
theorem accept_ret (v : Word) (s : State) (r : HostReturn) :
    ({ s with ret := r } : State).accept v = { s.accept v with ret := r } := by
  unfold State.accept
  dsimp only
  split
  · rfl
  · rfl

/-- Settles O12: SRESET and a drop by the two lemmas on them, an accept by what it does to STATUS, the latch and the
frame buffer. -/
theorem commandRequestAcceptsDropsOrResets : Obligations.CommandRequestAcceptsDropsOrResets := by
  intro s v
  refine ⟨fun hv => hv ▸ cmdWrite_sreset s, fun hv hb => cmdWrite_dropped hb hv, fun hv hb =>
    ⟨s.capture v, (s.accept v).fb, ?_, ?_, ?_, ?_, ?_, ?_, accept_fb_of_not⟩⟩
  · rw [cmdWrite_accepted hb hv, accept_ret, State.accept_form, accept_status]
    rfl
  · rintro rfl
    exact congrArg Operands.fid (capture_encode .lookup s)
  · rintro rfl
    have ho : s.capture 0x02#64 = s.operandsOf .findname := capture_encode .findname s
    rw [ho]
    exact ⟨rfl, rfl⟩
  · rintro rfl
    have ho : s.capture 0x03#64 = s.operandsOf .geom := capture_encode .geom s
    rw [ho]
    exact ⟨rfl, rfl, rfl, rfl⟩
  · rintro rfl
    exact congrArg Operands.ctx (capture_encode .decode s)
  · rintro rfl hc p
    have hfb : (s.accept 0x04#64).fb = s.fb.poisoned := accept_decode_fb hc
    simp [hfb]

/-- Settles O11: NOP is a success completion, and its accept and its drop are those of every word. -/
theorem nopOnlyCompletes : Obligations.NopOnlyCompletes :=
  ⟨rfl, fun _ => rfl, fun s => ⟨_, rfl, rfl, rfl, by simp [accept_status], rfl⟩,
    fun _ hb => cmdWrite_dropped hb (by decide)⟩

/-! ### Registers -/

/-- SRC_STAT in numbers (10_state.md R43). -/
theorem srcStat_toNat (s : State) :
    s.srcStat.toNat = min s.fifo.length (2 ^ 48 - 1) + 2 ^ 48 * s.eof.toNat := by
  simp only [State.srcStat, toNat_append_add, bit, BitVec.toNat_ofBool, BitVec.toNat_ofNat]
  omega

/-- The indices 0x14 to 0x3F are reserved (10_state.md R50). -/
theorem csrRead_reserved {i : Fin 64} (hi : 0x14 ≤ i.val) (s : State) : s.csrRead i = 0#64 := by
  unfold State.csrRead
  split
  case h_21 => rfl
  all_goals omega

/-- Settles O16: each register is its row of the map. -/
theorem registerReadReturnsTheRegister : Obligations.RegisterReadReturnsTheRegister := by
  refine ⟨fun _ _ => rfl, fun s h hb => ?_, fun s => ?_⟩
  · obtain ⟨hdone, hcode⟩ := h.busyStatus hb
    exact ⟨hdone, by simpa [hcode] using h.errBit⟩
  · have field {n : Nat} (hn : n ≤ 64) (x : BitVec n) := BitVec.toNat_setWidth_of_le (b := x) hn
    exact ⟨rfl, rfl, rfl, field (by decide) s.fmtId, field (by decide) s.width, field (by decide) s.height,
      field (by decide) s.srcSize, field (by decide) s.nameLen, field (by decide) s.resultId, rfl, rfl, rfl, rfl, rfl,
      rfl, rfl, rfl, rfl, rfl, srcStat_toNat s, fun i hi => csrRead_reserved hi s⟩

/-- The operand registers after a register write: the one at the index holds its field (45_control.md R237). -/
theorem csrWrite_operands (i : Fin 64) (v : Word) (s : State) :
    (s.csrWrite i v).fmtId = (if i = 0x03 then v.extractLsb' 0 16 else s.fmtId) ∧
    (s.csrWrite i v).width = (if i = 0x04 then v.extractLsb' 0 16 else s.width) ∧
    (s.csrWrite i v).height = (if i = 0x05 then v.extractLsb' 0 16 else s.height) ∧
    (s.csrWrite i v).srcSize = (if i = 0x06 then v.extractLsb' 0 48 else s.srcSize) ∧
    (s.csrWrite i v).nameLen = (if i = 0x07 then nameLenOf v else s.nameLen) := by
  unfold State.csrWrite
  simp only [Fin.ext_iff]
  split
  case h_6 h3 h4 h5 h6 h7 =>
    exact ⟨(if_neg h3).symm, (if_neg h4).symm, (if_neg h5).symm, (if_neg h6).symm, (if_neg h7).symm⟩
  all_goals next h => simp [h]

/-- A write reaches no register but the one at its index (45_control.md R237). -/
theorem csrRead_csrWrite_of_ne {i j : Fin 64} (hj : j ≠ i) (v : Word) (s : State) :
    (s.csrWrite i v).csrRead j = s.csrRead j := by
  obtain ⟨hfid, hwidth, hheight, hsize, hlen⟩ := csrWrite_operands i v s
  have hne {k : Fin 64} (hk : j.val = k.val) : i ≠ k := fun h => hj (Fin.ext (h ▸ hk))
  unfold State.csrRead
  split
  case h_4 h => rw [hfid, if_neg (hne (k := 0x03) h)]
  case h_5 h => rw [hwidth, if_neg (hne (k := 0x04) h)]
  case h_6 h => rw [hheight, if_neg (hne (k := 0x05) h)]
  case h_7 h => rw [hsize, if_neg (hne (k := 0x06) h)]
  case h_8 h => rw [hlen, if_neg (hne (k := 0x07) h)]
  all_goals simp [State.srcStat]

/-- A write outside the five operand registers changes nothing (45_control.md R237). -/
theorem csrWrite_other {i : Fin 64} (hi : i.val < 0x03 ∨ 0x07 < i.val) (v : Word) (s : State) : s.csrWrite i v = s := by
  unfold State.csrWrite
  split
  case h_6 => rfl
  all_goals omega

/-- NAME_LEN keeps nine bits, at most 256 (10_state.md R37). -/
theorem nameLenOf_toNat (v : Word) : (nameLenOf v).toNat = min (v.toNat % 2 ^ 9) 256 := by
  have hfield : (v.extractLsb' 0 9).toNat = v.toNat % 2 ^ 9 := by simp
  unfold nameLenOf nameMax
  rw [hfield]
  split
  · next h => rw [hfield, Nat.min_eq_left h]
  · next h => exact (Nat.min_eq_right (Nat.not_le.mp h).le).symm

/-- Settles O18: each operand register reads back its field; the rest is the frame of the write. -/
theorem registerWriteStoresItsField : Obligations.RegisterWriteStoresItsField := by
  intro s i v hi
  obtain ⟨hfid, hwidth, hheight, hsize, hlen⟩ := csrWrite_operands i v s
  refine ⟨if_neg hi, ?_, ?_, ?_, fun hother => csrWrite_other hother v s, State.csrWrite_form i v s,
    fun j hj => csrRead_csrWrite_of_ne hj v s, by simp, by simp, by simp, by simp, by simp, by simp⟩
  · rintro (rfl | rfl | rfl)
    · exact (BitVec.toNat_setWidth_of_le (by decide)).trans (by simp [hfid])
    · exact (BitVec.toNat_setWidth_of_le (by decide)).trans (by simp [hwidth])
    · exact (BitVec.toNat_setWidth_of_le (by decide)).trans (by simp [hheight])
  · rintro rfl
    exact (BitVec.toNat_setWidth_of_le (by decide)).trans (by simp [hsize])
  · rintro rfl
    exact (BitVec.toNat_setWidth_of_le (by decide)).trans (by simp [hlen, nameLenOf_toNat])

/-! ### The NAME buffer -/

/-- A NAME write changes the byte at its index and no other (45_control.md R240). -/
theorem nameByte_nameWrite (s : State) (i : Fin 256) (b : Byte) (j : Nat) :
    (s.nameWrite i b).nameByte j = if i.val = j then b else s.nameByte j := by
  simp only [State.nameByte, State.nameWrite_fields, Memory.read_write]
  split
  · rfl
  · rfl

/-- Settles O19: the bytes by `nameByte_nameWrite`. -/
theorem nameBufferReadsWhatWasWritten : Obligations.NameBufferReadsWhatWasWritten := by
  intro s i b
  refine ⟨⟨_, rfl, ?_, fun j hj => ?_, rfl⟩, rfl⟩
  · rw [nameByte_nameWrite, if_pos rfl]
  · rw [nameByte_nameWrite, if_neg hj.symm]
    rfl

/-! ### Reads of the frame buffer -/

/-- FB_RD of a byte of the view (45_control.md R243). -/
theorem fbRead_of_some {s : State} {p : Plane} {i : Nat} {b : Byte} (hb : s.viewByte p i = some b) :
    s.fbRead p i = { s with ret := .byte b } := by
  rcases fbRead_cases p i s with ⟨b', hb', h⟩ | ⟨hnone, -⟩
  · cases hb.symm.trans hb'
    exact h
  · cases hb.symm.trans hnone

/-- FB_RD beyond the view or of an `undef` byte (45_control.md R244). -/
theorem fbRead_of_none {s : State} {p : Plane} {i : Nat} (hnone : s.viewByte p i = none) :
    s.fbRead p i = { s with ret := .none, faultMark := true } := by
  rcases fbRead_cases p i s with ⟨b, hb, -⟩ | ⟨-, h⟩
  · cases hnone.symm.trans hb
  · exact h

/-- Without a context the stores are empty, so no byte has a value (10_state.md R44). -/
theorem Inv.read_of_no_context {s : State} (h : Inv s) (hc : s.ctx = none) (p : Plane) (i : Nat) :
    s.fb.read p i = none := by
  have hctx := h.context
  simp only [State.ContextOk, hc] at hctx
  obtain ⟨-, -, -, -, -, -, -, hsize, -⟩ := hctx
  have hcells : (s.fb.plane p).cells = [] :=
    List.eq_nil_iff_forall_not_mem.mpr fun c hmem => by
      have := ((h.planesWf p).2 c hmem).1
      rw [hsize p] at this
      exact Nat.not_lt_zero _ this
  rw [FrameBuffer.read, hcells, Memory.read_nil]

/-- While a DECODE is in flight no byte has a value, with a context or without (44_decode.md R216). -/
theorem Inv.read_undef_during_decode {s : State} (h : Inv s) {l : Latch} (hl : s.latch = some l)
    (hd : decode l.op = .ok .decode) (p : Plane) (i : Nat) : s.fb.read p i = none := by
  obtain ⟨-, -, -, -, hlatch⟩ := h.latchOk l hl
  obtain ⟨hctx, -⟩ := hlatch hd
  cases hc : s.ctx with
  | some c => exact h.read_of_decode_in_flight (by rw [State.operandsFor, hl]; exact hctx.trans hc) hl hd p i
  | none => exact h.read_of_no_context hc p i

/-- Settles O20: the two outcomes of FB_RD by the byte of the view. -/
theorem frameBufferReadReturnsOrFaults : Obligations.FrameBufferReadReturnsOrFaults := by
  refine ⟨fun s t op hop h => ?_, fun s p i => ⟨fun b hi hb => ?_, fun hbad => ?_, fun hc => ?_,
    fun l h hl hd => h.read_undef_during_decode hl hd p i⟩⟩
  · rcases transact_fb h with hfb | ⟨v, rfl, -⟩
    · exact hfb
    · exact absurd rfl (hop v)
  · exact congrArg Host.Outcome.next (fbRead_of_some (by rw [State.viewByte, if_pos hi, hb]))
  · refine congrArg Host.Outcome.next (fbRead_of_none ?_)
    rcases hbad with hi | hb
    · exact if_neg hi.not_gt
    · rw [State.viewByte, hb, ite_self]
  · rw [State.viewSize, hc]

/-- Settles O21: VALID = 1 promises a byte at every index of the view. -/
theorem dutifulReadIsAnswered : Obligations.DutifulReadIsAnswered := by
  rintro s p i h ⟨hv, hi⟩
  obtain ⟨-, hviews⟩ := h.validViews hv
  obtain ⟨b, hb⟩ := Option.ne_none_iff_exists'.mp (hviews p i hi)
  exact ⟨b, congrArg Host.Outcome.next (fbRead_of_some (by rw [State.viewByte, if_pos hi, hb]))⟩

/-- Of the host's transactions only a bad FB_RD touches the fault mark (45_control.md R244). -/
theorem transact_faultMark {op : Transaction} {s t : State} (h : State.transact op s = .next t) :
    t.faultMark = s.faultMark ∨ ∃ p i, op = .fbRd p i ∧ s.viewByte p i = none ∧ t.faultMark = true := by
  rcases transact_cases h with ⟨v, rfl, ⟨rfl, rfl⟩ | ⟨-, -, rfl⟩ | ⟨-, -, rfl⟩⟩ |
    ⟨p, i, rfl, ⟨b, -, rfl⟩ | ⟨hnone, rfl⟩⟩ | ⟨b, rfl, rfl⟩ | ⟨rfl, rfl⟩ | ⟨-, -, -, -, -, hmark, -⟩
  · exact .inl rfl
  · exact .inl rfl
  · exact .inl (by simp)
  · exact .inl rfl
  · exact .inr ⟨p, i, rfl, hnone, rfl⟩
  · exact .inl rfl
  · exact .inl rfl
  · exact .inl hmark

/-- A step keeps the fault mark, unless it is a bad FB_RD, which sets it (45_control.md R244). -/
theorem step_faultMark {s t : State} (h : step s = .next t) :
    t.faultMark = s.faultMark ∨ t.faultMark = true ∧ ∃ p i rest, s.nextAgent = .host ∧
      s.host = .tx (.fbRd p i) :: rest ∧ s.viewByte p i = none := by
  rcases step_forms h with ⟨-, rfl | ⟨l, -, rfl | ⟨i, -, -, hx⟩⟩⟩ | ⟨ha, ⟨ops, r, rfl⟩ | ⟨op, rest, hh, hx⟩⟩
  · exact .inl rfl
  · exact .inl rfl
  · exact .inl (exec_keeps_run hx).2.1
  · exact .inl rfl
  · rcases transact_faultMark hx with hmark | ⟨p, i, rfl, hnone, hset⟩
    · exact .inl hmark
    · exact .inr ⟨hset, p, i, rest, ha, hh, hnone⟩

/-- Settles O54: the mark by `step_faultMark`, the bad read by `fbRead_of_none`. -/
theorem faultMarkStaysAndOnlyBadReadsSetIt : Obligations.FaultMarkStaysAndOnlyBadReadsSetIt := by
  intro s t h
  refine ⟨fun hs => ?_, fun p i rest ha hh hnone => ?_, fun hs ht => ?_⟩
  · rcases step_faultMark h with hmark | ⟨hset, -⟩
    · exact hmark.trans hs
    · exact hset
  · have hread : step s = .next { s.turnTaken with host := rest, ret := .none, faultMark := true } :=
      (step_transaction (step_cases h).1 ha hh).trans
        (congrArg Host.Outcome.next (fbRead_of_none (s := { s.turnTaken with host := rest }) hnone))
    cases hread.symm.trans h
    exact ⟨rfl, rfl, rfl⟩
  · rcases step_faultMark h with hmark | ⟨-, hbad⟩
    · simp [hs, ht] at hmark
    · exact hbad

/-! ### The source -/

/-- Of the host's transactions only a flush and an SRESET clear eof (45_control.md R246, R247). -/
theorem transact_eof {op : Transaction} {s t : State} (h : State.transact op s = .next t) (he : s.eof = true) :
    t.eof = true ∨ op = .srcFlush ∨ op = .csrWr cmdIndex (encode .sreset) := by
  cases op with
  | csrWr i v =>
    by_cases hi : i = cmdIndex
    · subst hi
      rcases cmdWrite_cases h with ⟨rfl, -⟩ | ⟨-, -, rfl⟩ | ⟨-, -, rfl⟩
      · exact .inr (.inr rfl)
      · exact .inl he
      · exact .inl (by simpa using he)
    · simp only [State.transact, hi, if_false, Host.Outcome.next.injEq] at h
      subst h
      exact .inl (by simpa using he)
  | fbRd p i =>
    cases h
    rcases fbRead_cases p i s with ⟨b, -, hr⟩ | ⟨-, hr⟩
    · exact .inl (hr ▸ he)
    · exact .inl (hr ▸ he)
  | srcFlush => exact .inr (.inl rfl)
  | csrRd i => cases h; exact .inl he
  | nameWr i b => cases h; exact .inl he
  | nameRd i => cases h; exact .inl he
  | srcPush b => cases h; exact .inl he
  | srcEof => cases h; exact .inl rfl

/-- No command but SRESET changes eof (10_state.md R47). -/
theorem exec_eof {i : Instr} {s t : State} (hi : i ≠ .sreset) (h : exec i s = .next t) : t.eof = s.eof := by
  obtain ⟨-, -, heof, -⟩ := commandsLeaveTheRestAlone.2 i s t hi h
  exact heof

/-- Settles O22: eof by the step's forms, the transactions by their definitions. -/
theorem sourceTransactionsFeedTheFifo : Obligations.SourceTransactionsFeedTheFifo := by
  refine ⟨fun s t h hs ht => ?_, fun s => ⟨fun b => rfl, rfl, fun hb => ?_, fun hb => ?_⟩⟩
  · have hne : t.eof ≠ s.eof := by simp [hs, ht]
    rcases step_forms h with ⟨-, rfl | ⟨l, -, rfl | ⟨i, hi, -, hx⟩⟩⟩ | ⟨ha, ⟨ops, r, rfl⟩ | ⟨op, rest, hh, hx⟩⟩
    · exact absurd rfl hne
    · exact absurd rfl hne
    · exact absurd (exec_eof hi hx) hne
    · exact absurd rfl hne
    · rcases transact_eof hx hs with htrue | rfl | rfl
      · exact absurd (htrue.trans hs.symm) hne
      · exact ⟨ha, rest, .inl hh⟩
      · exact ⟨ha, rest, .inr hh⟩
  · simp [State.transact, State.srcFlush, hb]
  · simp [State.transact, State.srcFlush, hb]

end Sys2Proof.Machine
end

section
/-! The exceptions family (60_exceptions.md): an error of a DECODE is a completion, and from a state of the invariant the
machine neither faults nor refuses. -/

namespace Sys2Proof.Machine

/-! ### Progress -/

/-- In a state of the invariant the engine has a command to run whenever BUSY = 1, so its turn answers a next state
(60_exceptions.md R273). -/
theorem Inv.engineStep_total {s : State} (h : Inv s) : ∃ t, s.engineStep = .next t := by
  by_cases hb : s.status.busy = true
  · obtain ⟨l, hl⟩ := Option.isSome_iff_exists.mp (h.busyLatch.symm.trans hb)
    by_cases hw : s.waiting = true
    · exact ⟨s, engineStep_waits hb hl hw⟩
    · obtain ⟨t, ht, -⟩ := engineStep_completes hb hl hw
      exact ⟨t, ht⟩
  · exact ⟨s, if_neg hb⟩

/-- A state of the invariant steps, and to a state of the invariant. -/
theorem Inv.exists_step {s : State} (h : Inv s) : ∃ t, step s = .next t ∧ Inv t := by
  have turn : Inv s.turnTaken := h.of_same rfl rfl rfl
  have hagent : ∃ t, s.agentStep = .next t := by
    unfold State.agentStep
    cases s.nextAgent with
    | engine => exact turn.engineStep_total
    | host => exact hostStep_total _
  obtain ⟨t, ht⟩ := hagent
  have hstep : step s = .next t := (if_pos h.cfgWf).trans ht
  exact ⟨t, hstep, everyStepKeepsTheInvariant s t h hstep⟩

/-- Every state a run reaches from a state of the invariant is one of the invariant. -/
theorem Inv.of_reaches {s t : State} (h : Inv s) (hr : Reaches s t) : Inv t := by
  induction hr with
  | refl => exact h
  | step t u _ hstep ih => exact everyStepKeepsTheInvariant t u ih hstep

/-- Settles O53: the invariant holds of every reachable state, and from each the machine steps. -/
theorem machineNeverStops : Obligations.MachineNeverStops :=
  fun _ _ h hr => (h.of_reaches hr).exists_step

/-! ### The errors of a DECODE -/

/-- While a DECODE is in flight on a context VALID is 0 (44_decode.md R216). -/
theorem Inv.valid_of_decode_in_flight {s : State} (h : Inv s) {c : Context}
    (hc : (s.operandsFor .decode).ctx = some c) {l : Latch} (hl : s.latch = some l) (hd : decode l.op = .ok .decode) :
    s.status.valid = false := by
  obtain ⟨-, -, -, -, hlatch⟩ := h.latchOk l hl
  obtain ⟨hctx, hpoisoned⟩ := hlatch hd
  have hsome : s.ctx = some c := by rw [← hctx, ← hc, State.operandsFor, hl]
  obtain ⟨hvalid, -⟩ := hpoisoned (by simp [hsome])
  exact hvalid

/-- Settles O47: the step is `execDecode_shortRead`; the accept of that DECODE has cleared VALID and the frame buffer. -/
theorem shortReadTakesWhatRemains : Obligations.ShortReadTakesWhatRemains := by
  intro s c d g hctx hg hlt heof
  refine ⟨?_, fun l h hl hd => ⟨h.valid_of_decode_in_flight hctx hl hd, h.read_of_decode_in_flight hctx hl hd⟩⟩
  rw [execDecode_shortRead hctx hg hlt heof]
  simp only [State.srcTake, State.completeError, Status.failed, ErrKind.code, List.drop_length]

/-- Settles O46: without a latched context the decision of DECODE is to fail with NoGeometry. -/
theorem decodeWithoutContextFails : Obligations.DecodeWithoutContextFails := by
  intro s hctx
  have hfail : s.decodeAction (s.operandsFor .decode).ctx = .fail .noGeometry := by rw [hctx, State.decodeAction]
  simp only [exec, execDecode, hfail, State.completeError, Status.failed, ErrKind.code]

end Sys2Proof.Machine
end

section
/-! The reset and hazards family (70_reset_and_hazards.md): the reset event, writes of operands under a command in flight,
the wait of a DECODE, how long the views live, and the end of a poll. -/

namespace Sys2Proof.Machine

/-! ### Reset -/

/-- Settles O10: SRESET is the reset event, which keeps only what is not the block's. -/
theorem sresetIsTheResetEvent : Obligations.SresetIsTheResetEvent :=
  fun s => ⟨s.resetEvent, rfl, rfl, rfl, rfl⟩

/-! ### Operand writes -/

/-- The operand registers and the NAME buffer: what the host writes for a command to read at its accept (10_state.md
R34 to R37, R46). -/
structure HostOperands where
  fmtId : BitVec 16
  width : BitVec 16
  height : BitVec 16
  srcSize : BitVec 48
  nameLen : BitVec 9
  name : Memory

/-- The operands as they stand in a state. -/
def State.hostOperands (s : State) : HostOperands :=
  { fmtId := s.fmtId, width := s.width, height := s.height, srcSize := s.srcSize, nameLen := s.nameLen, name := s.name }

/-- The state with other operands, and nothing else changed. -/
def State.withHostOperands (o : HostOperands) (s : State) : State :=
  { s with fmtId := o.fmtId, width := o.width, height := o.height, srcSize := o.srcSize, nameLen := o.nameLen,
           name := o.name }

/-- A register write changes operands only, by a rule that reads operands only (45_control.md R237). -/
theorem csrWrite_withHostOperands (r : Fin 64) (v : Word) (s t : State) :
    (t.withHostOperands s.hostOperands).csrWrite r v = t.withHostOperands (s.csrWrite r v).hostOperands := by
  unfold State.csrWrite
  split <;> rfl

/-- So does a NAME write (45_control.md R240). -/
theorem nameWrite_withHostOperands (k : Fin 256) (b : Byte) (s t : State) :
    (t.withHostOperands s.hostOperands).nameWrite k b = t.withHostOperands (s.nameWrite k b).hostOperands := rfl

/-- While a command is in flight every meaning reads the latched operands (10_state.md R48). -/
theorem operandsFor_of_latch {s : State} {l : Latch} (hl : s.latch = some l) (i : Instr) :
    s.operandsFor i = l.operands := by
  rw [State.operandsFor, hl]

/-- GEOM's writes do not touch the operands (41_geometry.md R139). -/
theorem installContext_withHostOperands (c : Context) (g : Geometry) (n : BitVec 48) (o : HostOperands) (s : State) :
    (s.withHostOperands o).installContext c g n = (s.installContext c g n).withHostOperands o := by
  by_cases hc : s.ctx = some c
  · simp [State.installContext, State.withHostOperands, hc]
  · simp [State.installContext, State.withHostOperands, hc]

/-- The command in flight runs on other operands as on these: it reads the latch instead, and writes none of them. -/
theorem exec_withHostOperands {s t : State} {l : Latch} {i : Instr} (hl : s.latch = some l) (hi : i ≠ .sreset)
    (h : exec i s = .next t) (o : HostOperands) : exec i (s.withHostOperands o) = .next (t.withHostOperands o) := by
  have hops : (s.withHostOperands o).operandsFor i = s.operandsFor i :=
    (operandsFor_of_latch (s := s.withHostOperands o) hl i).trans (operandsFor_of_latch hl i).symm
  cases i with
  | nop =>
    cases h
    rfl
  | lookup =>
    rcases execLookup_cases h with ⟨d, hd, rfl⟩ | ⟨hnone, rfl⟩
    · exact exec_lookup_of_found (hops ▸ hd)
    · exact exec_lookup_of_none (hops ▸ hnone)
  | findname =>
    rcases execFindname_cases h with ⟨fid, hok, rfl⟩ | ⟨hnone, rfl⟩
    · exact exec_findname_of_ok (hops ▸ hok)
    · exact exec_findname_of_noMatch ((findByNameToken_noMatch_iff ..).mp (hops ▸ hnone))
  | geom =>
    cases hg : contextGeometry s.cfg (s.operandsFor .geom).newContext with
    | error e =>
      cases (exec_geom_of_error hg).symm.trans h
      exact exec_geom_of_error (hops ▸ hg)
    | ok dg =>
      cases (exec_geom_of_ok hg).symm.trans h
      rw [exec_geom_of_ok (hops ▸ hg), hops, installContext_withHostOperands]
      rfl
  | decode =>
    have haction : (s.withHostOperands o).decodeAction (s.operandsFor .decode).ctx =
        s.decodeAction (s.operandsFor .decode).ctx := rfl
    simp only [exec, execDecode, hops, haction] at h ⊢
    generalize s.decodeAction (s.operandsFor .decode).ctx = action at h ⊢
    cases action with
    | fail e => cases h; rfl
    | frame d w h' g => cases h; rfl
    | shortRead => cases h; rfl
    | wait => cases h; rfl
  | sreset => exact absurd rfl hi

/-- Settles O14: both writes are a change of operands, and the command writes no operand itself. -/
theorem operandWritesCommuteWithTheInFlightCommand : Obligations.OperandWritesCommuteWithTheInFlightCommand := by
  intro s t l i hl hi h
  have hcommute := exec_withHostOperands hl hi h
  have hkeeps : t.withHostOperands s.hostOperands = t :=
    (Host.Outcome.next.inj (h.symm.trans (hcommute s.hostOperands))).symm
  refine ⟨fun r v => ?_, fun k b => ?_⟩
  · calc exec i (s.csrWrite r v)
      _ = exec i (s.withHostOperands (s.csrWrite r v).hostOperands) :=
        congrArg (exec i) (csrWrite_withHostOperands r v s s)
      _ = .next (t.withHostOperands (s.csrWrite r v).hostOperands) := hcommute _
      _ = .next (t.csrWrite r v) := by rw [← csrWrite_withHostOperands, hkeeps]
  · calc exec i (s.nameWrite k b)
      _ = .next (t.withHostOperands (s.nameWrite k b).hostOperands) := hcommute (s.nameWrite k b).hostOperands
      _ = .next (t.nameWrite k b) := by rw [← nameWrite_withHostOperands, hkeeps]

/-! ### The host's turn -/

/-- On the host's turn a step is the host's step (45_control.md R235). -/
theorem step_host {s : State} (hw : s.cfg.wf = true) (ha : s.nextAgent = .host) : step s = s.turnTaken.hostStep := by
  simp only [step, State.agentStep, hw, ha, if_true]

/-! ### The wait of a DECODE -/

/-- Settles O48: the decision is to wait, and an idle host has nothing to do either. -/
theorem decodeWaitsForTheSource : Obligations.DecodeWaitsForTheSource := by
  intro s c d g hctx hg hlt heof
  have hwait : s.decodeAction (s.operandsFor .decode).ctx = .wait := by
    rw [hctx, decodeAction_of hg, if_neg hlt.not_ge, heof]
    rfl
  refine ⟨execDecode_wait hwait, fun l hw hb hl hd hh => ?_⟩
  cases ha : s.nextAgent with
  | engine =>
    have hwaiting : s.turnTaken.waiting = true :=
      (waiting_iff (s := s.turnTaken) hl).mpr ⟨hd, operandsFor_of_latch hl .decode ▸ hwait⟩
    rw [step_engine hw ha]
    exact engineStep_waits (s := s.turnTaken) hb hl hwaiting
  | host =>
    rw [step_host hw ha, State.hostStep, State.turnTaken, hh]

/-! ### The life of the views -/

/-- VALID, every byte of the frame buffer and the context are those of `s` (70_reset_and_hazards.md R304). -/
def State.KeepsViews (s t : State) : Prop := t.status.valid = s.status.valid ∧ t.fb = s.fb ∧ t.ctx = s.ctx

/-- What a command does to the views: a GEOM to another context invalidates them, a DECODE that succeeds writes them, and
everything else keeps them (10_state.md R29). -/
theorem exec_views {i : Instr} {s t : State} (hi : i ≠ .sreset) (h : exec i s = .next t) :
    s.KeepsViews t ∨ (i = .geom ∧ t.ctx ≠ s.ctx ∧ t.status.valid = false) ∨
    (i = .decode ∧ t.status.done = true ∧ t.status.err = false) := by
  rcases exec_forms hi h with ⟨e, rfl⟩ | ⟨-, rfl⟩ | ⟨-, d, rfl⟩ | ⟨-, fid, rfl⟩ | ⟨rfl, c, g, n, rfl⟩ |
    ⟨rfl, ⟨n, r8, pl, -, rfl⟩ | ⟨e, rfl⟩ | rfl⟩
  · exact .inl ⟨rfl, rfl, rfl⟩
  · exact .inl ⟨rfl, rfl, rfl⟩
  · exact .inl ⟨rfl, rfl, rfl⟩
  · exact .inl ⟨rfl, rfl, rfl⟩
  · by_cases hc : s.ctx = some c
    · exact .inl (by simp [State.KeepsViews, hc])
    · exact .inr (.inl (by simp [hc, Ne.symm hc]))
  · exact .inr (.inr ⟨rfl, rfl, rfl⟩)
  · exact .inl ⟨rfl, rfl, rfl⟩
  · exact .inl ⟨rfl, rfl, rfl⟩

/-- An accept keeps the views unless it is that of a DECODE with a context (45_control.md R238). -/
theorem accept_keepsViews {s : State} {v : Word} (h : ¬ (v = encode .decode ∧ s.ctx ≠ none)) :
    s.KeepsViews (s.accept v) := by
  rw [State.accept_keeps (by rwa [decode_eq_ok_iff])]
  exact ⟨rfl, rfl, rfl⟩

/-- Of the host's transactions only an SRESET and the accept of a DECODE end the views, and both clear VALID. -/
theorem transact_views {op : Transaction} {s t : State} (h : State.transact op s = .next t) :
    s.KeepsViews t ∨ (t.status.valid = false ∧ ∃ v, op = .csrWr cmdIndex v ∧
      (v = encode .sreset ∨ (v = encode .decode ∧ s.status.busy = false))) := by
  rcases transact_cases h with ⟨v, rfl, ⟨hv, rfl⟩ | ⟨-, -, rfl⟩ | ⟨-, hb, rfl⟩⟩ |
    ⟨p, i, rfl, ⟨b, -, rfl⟩ | ⟨-, rfl⟩⟩ | ⟨b, rfl, rfl⟩ | ⟨rfl, rfl⟩ | ⟨hstatus, hfb, hctx, -⟩
  · exact .inr ⟨rfl, v, rfl, .inl hv⟩
  · exact .inl ⟨rfl, rfl, rfl⟩
  · by_cases hv : v = encode .decode ∧ s.ctx ≠ none
    · exact .inr ⟨by simp [accept_status, hv], v, rfl, .inr ⟨hv.1, hb⟩⟩
    · exact .inl (accept_keepsViews (s := { s with ret := .none }) hv)
  · exact .inl ⟨rfl, rfl, rfl⟩
  · exact .inl ⟨rfl, rfl, rfl⟩
  · exact .inl ⟨rfl, rfl, rfl⟩
  · exact .inl ⟨rfl, rfl, rfl⟩
  · exact .inl ⟨congrArg Status.valid hstatus, hfb, hctx⟩

/-- What a step does to the views (70_reset_and_hazards.md R304). -/
theorem step_views {s t : State} (h : step s = .next t) :
    s.KeepsViews t ∨
    (s.nextAgent = .engine ∧ ∃ l, s.latch = some l ∧
      ((decode l.op = .ok .geom ∧ t.ctx ≠ s.ctx ∧ t.status.valid = false) ∨
       (decode l.op = .ok .decode ∧ t.status.done = true ∧ t.status.err = false))) ∨
    (s.nextAgent = .host ∧ t.status.valid = false ∧ ∃ v rest, s.host = .tx (.csrWr cmdIndex v) :: rest ∧
      (v = encode .sreset ∨ (v = encode .decode ∧ s.status.busy = false))) := by
  rcases step_forms h with ⟨ha, rfl | ⟨l, hl, rfl | ⟨i, hi, hd, hx⟩⟩⟩ |
    ⟨ha, ⟨ops, r, rfl⟩ | ⟨op, rest, hh, hx⟩⟩
  · exact .inl ⟨rfl, rfl, rfl⟩
  · exact .inl ⟨rfl, rfl, rfl⟩
  · rcases exec_views hi hx with hkeeps | ⟨rfl, hgeom⟩ | ⟨rfl, hdecode⟩
    · exact .inl hkeeps
    · exact .inr (.inl ⟨ha, l, hl, .inl ⟨hd, hgeom⟩⟩)
    · exact .inr (.inl ⟨ha, l, hl, .inr ⟨hd, hdecode⟩⟩)
  · exact .inl ⟨rfl, rfl, rfl⟩
  · rcases transact_views hx with hkeeps | ⟨hvalid, v, rfl, hv⟩
    · exact .inl hkeeps
    · exact .inr (.inr ⟨ha, hvalid, v, rest, hh, hv⟩)

/-- With VALID = 1 no DECODE is in flight: its accept has cleared VALID (44_decode.md R216). -/
theorem Inv.not_decode_of_valid {s : State} (h : Inv s) (hv : s.status.valid = true) {l : Latch}
    (hl : s.latch = some l) : decode l.op ≠ .ok .decode := by
  intro hd
  obtain ⟨hctx, -⟩ := h.validViews hv
  obtain ⟨-, -, -, -, hlatch⟩ := h.latchOk l hl
  obtain ⟨hinvalid, -⟩ := (hlatch hd).2 hctx
  cases hv.symm.trans hinvalid

/-- Settles O58: by what a step does to the views; under the invariant the step is no DECODE while VALID = 1. -/
theorem viewsLiveFromDecodeToTheNextWriter : Obligations.ViewsLiveFromDecodeToTheNextWriter := by
  refine ⟨fun s t h hs ht => ?_, fun s t hinv h hs => ?_⟩
  · rcases step_views h with ⟨hsame, -⟩ | ⟨ha, l, hl, ⟨-, -, hvalid⟩ | ⟨hd, hdone, herr⟩⟩ | ⟨-, hvalid, -⟩
    · simp [hs, ht] at hsame
    · simp [ht] at hvalid
    · exact ⟨ha, ⟨l, hl, hd⟩, hdone, herr⟩
    · simp [ht] at hvalid
  · rcases step_views h with ⟨hsame, hkeeps⟩ | ⟨ha, l, hl, ⟨hd, hctx, -⟩ | ⟨hd, -⟩⟩ | ⟨ha, -, hwrite⟩
    · exact .inl ⟨hsame.trans hs, hkeeps⟩
    · exact .inr (.inl ⟨ha, hctx, l, hl, hd⟩)
    · exact absurd hd (hinv.not_decode_of_valid hs hl)
    · exact .inr (.inr ⟨ha, hwrite⟩)

/-! ### The end of a poll -/

section
variable {s : State} {rest : List HostOp} (hw : s.cfg.wf = true) (hh : s.host = .poll :: rest)
include hw hh

/-- A poll stays the host's next operation while BUSY = 1 (30_encoding.md R87). -/
theorem step_poll_busy (ha : s.nextAgent = .host) (hb : s.status.busy = true) :
    step s = .next { s.turnTaken with ret := .word s.status.word } := by
  rw [step_host hw ha]
  simp only [State.hostStep, State.turnTaken_fields, hh, hb, if_true]
  rfl

/-- A poll ends at a read with BUSY = 0 (30_encoding.md R87). -/
theorem step_poll_idle (ha : s.nextAgent = .host) (hb : s.status.busy = false) :
    step s = .next { s.turnTaken with host := rest, ret := .word s.status.word } := by
  rw [step_host hw ha]
  simp only [State.hostStep, State.turnTaken_fields, hh, hb]
  rfl

end

/-- The host's poll has ended at `t`, with the operations `rest` still to come: the value read is STATUS with BUSY = 0
(70_reset_and_hazards.md R311). -/
def State.PollEnded (t : State) (rest : List HostOp) : Prop :=
  t.host = rest ∧ t.status.busy = false ∧ t.ret = .word t.status.word

/-- With the default turns a poll of an idle block ends in one step (log entry 2). -/
theorem poll_ends_of_idle {s : State} {rest : List HostOp} (hw : s.cfg.wf = true) (hturns : s.turns = [])
    (hh : s.host = .poll :: rest) (hb : s.status.busy = false) : ∃ t, step s = .next t ∧ t.PollEnded rest := by
  have ha : s.nextAgent = .host := by simp [State.nextAgent, hturns, hb]
  exact ⟨_, step_poll_idle hw hh ha hb, rfl, hb, rfl⟩

/-- An engine step leaves the parameters and the agents' moves still to come. -/
theorem engineStep_keeps_run {s t : State} (h : s.engineStep = .next t) :
    t.cfg = s.cfg ∧ t.host = s.host ∧ t.turns = s.turns := by
  rcases engineStep_cases h with ⟨-, rfl⟩ | ⟨-, l, -, ⟨-, rfl⟩ | ⟨i, -, -, hx⟩⟩
  · exact ⟨rfl, rfl, rfl⟩
  · exact ⟨rfl, rfl, rfl⟩
  · obtain ⟨hcfg, -, hhost, hturns, -⟩ := exec_keeps_run hx
    exact ⟨hcfg, hhost, hturns⟩

/-- With the default turns a command in flight that does not wait completes in one step, and the host's operations stay
(log entry 2). -/
theorem step_completes_first {s : State} (h : Inv s) (hturns : s.turns = []) (hb : s.status.busy = true)
    (hwait : s.waiting = false) :
    ∃ u, step s = .next u ∧ u.status.busy = false ∧ u.turns = [] ∧ u.host = s.host := by
  obtain ⟨l, hl⟩ := Option.isSome_iff_exists.mp (h.busyLatch.symm.trans hb)
  have ha : s.nextAgent = .engine := by simp [State.nextAgent, hturns, hb, hwait]
  have hturn : s.turnTaken.waiting = false := hwait
  obtain ⟨u, hu, hidle, -⟩ := engineStep_completes (s := s.turnTaken) hb hl (by simp [hturn])
  obtain ⟨-, hhost, hkept⟩ := engineStep_keeps_run hu
  exact ⟨u, (step_engine h.cfgWf ha).trans hu, hidle, by simp [hkept, hturns], hhost⟩

/-- Settles O59: while BUSY = 1 the engine completes the command first, and of an idle block the poll reads BUSY = 0. -/
theorem pollEndsUnlessDecodeWaits : Obligations.PollEndsUnlessDecodeWaits := by
  refine ⟨fun s rest hw ha hh => ⟨step_poll_busy hw hh ha, step_poll_idle hw hh ha⟩,
    fun s rest h hturns hh hwait => ?_⟩
  cases hb : s.status.busy with
  | false =>
    obtain ⟨t, ht, hrest, hidle, hread⟩ := poll_ends_of_idle h.cfgWf hturns hh hb
    exact ⟨t, hrest, hidle, hread, .inl ht⟩
  | true =>
    obtain ⟨u, hu, hbusy, hnone, hhost⟩ := step_completes_first h hturns hb hwait
    have hw : u.cfg.wf = true := (step_cfg hu).symm ▸ h.cfgWf
    obtain ⟨t, ht, hrest, hidle, hread⟩ := poll_ends_of_idle hw hnone (hhost.trans hh) hbusy
    exact ⟨t, hrest, hidle, hread, .inr ⟨u, hu, ht⟩⟩

end Sys2Proof.Machine
end
